-- ==== Sys2Proof/Word.lean ====
section
/-! DEFINITION. The word types of the block (00_scope.md R5 to R8) and the two small records that
carry operands from one layer to the next: the host command tuple (30_encoding.md R61) and the trip
number (10_state.md R13). `Time` of R6 is the naturals: instants and durations in ticks, unbounded, no
wrap-around; its fields have the type `Nat`. -/

namespace Sys2Proof

/-- `u8` of R7: one byte of a frame. -/
abbrev Byte := BitVec 8

/-- `u16` of R7: a register address or a register value. -/
abbrev Half := BitVec 16

/-- `u32` of R7: a 32-bit IEEE-754 single-precision pattern (R105), or `CMD_WDATA`. -/
abbrev Pattern := BitVec 32

/-- `bytes` of R8: index 0 is the byte sent or received first. -/
abbrev Bytes := List Byte

/-- The command tuple of R61 as it stands on the host's command port and in the five command
latches (R11). `op` is coded as R60 says. -/
structure HostCmd where
  op    : BitVec 2
  addr  : Half
  wdata : Pattern
  tmoEn : Bool
  tmo   : Nat
  deriving DecidableEq, Repr

/-- `SEQ.trip` of R13: which round trip of the command. -/
inductive Trip where
  | zero
  | one
  deriving DecidableEq, Repr

/-- The trip as the number that R128 adds to `CMD_ADDR`. -/
def Trip.toNat : Trip → Nat
  | .zero => 0
  | .one  => 1

end Sys2Proof
end

