-- ==== Sys2Proof/Config.lean ====
section
/-! DEFINITION. What is fixed for the machine: the constants of 00_scope.md R5, the host operation
codes of 30_encoding.md R60, the status codes of 10_state.md R17, the open type `TFault` of R6, and
the values this model names where the spec gives none (each with its log entry). -/

namespace Sys2Proof

/-- `TFault` of R6 and D12: an open, non-empty type of transport fault values that the block copies
and never looks into. DESIGN CHOICE (log 4): a fault value is a label. -/
structure TFault where
  label : Nat
  deriving DecidableEq, Repr

namespace Config

/-- `HDR0` (R5): frame byte 0. -/
abbrev hdr0 : Byte := 0x5A
/-- `HDR1` (R5): frame byte 1. -/
abbrev hdr1 : Byte := 0xA5
/-- `LEN_WR` (R5): length byte of the write request, a protocol constant, not computed. -/
abbrev lenWr : Byte := 0x05
/-- `LEN_RD` (R5): length byte of the read request. -/
abbrev lenRd : Byte := 0x04
/-- `CMD_WR` (R5): write-register command byte. -/
abbrev cmdWr : Byte := 0x82
/-- `CMD_RD` (R5): read-register command byte, and the echo the validator demands. -/
abbrev cmdRd : Byte := 0x83
/-- `COUNT_1` (R5): last byte of the read request, "read one register". -/
abbrev count1 : Byte := 0x01
/-- `ACK_LEN` (R5): bytes read and discarded after a write request. -/
abbrev ackLen : Nat := 6
/-- `RSP_LEN` (R5): bytes read after a read request. -/
abbrev rspLen : Nat := 9

/-- Host code of `WRITE_REG` (R60, D2). -/
abbrev opWriteReg : BitVec 2 := 0
/-- Host code of `READ_REG` (R60, D2). -/
abbrev opReadReg : BitVec 2 := 1
/-- Host code of `WRITE_FLOAT` (R60, D2). -/
abbrev opWriteFloat : BitVec 2 := 2
/-- Host code of `READ_FLOAT` (R60, D2). -/
abbrev opReadFloat : BitVec 2 := 3

/-- `RES_STATUS` of an `OK` (R17, D5). -/
abbrev statusOk : BitVec 2 := 0
/-- `RES_STATUS` of an `INVALID_RESPONSE` (R17, R141, D5). -/
abbrev statusInvalid : BitVec 2 := 1
/-- `RES_STATUS` of a `TRANSPORT_ERROR` (R17, R142, D5). -/
abbrev statusTransport : BitVec 2 := 2

/-- What a device register nothing has written reads as. DESIGN CHOICE (log 18): N6 gives no value. -/
abbrev unwrittenRegister : Half := 0

/-- The transport's default timeout in `State.reset`. DESIGN CHOICE (log 3): `T_DEFAULT` is OPEN (R6,
D7); this is the value of the spec's programs (95_test_vectors.md 3.1). -/
abbrev resetDefaultTimeout : Nat := 100

/-- The acknowledgement of the ideal device of D26. PRESUMED (log 18; the spec's own G1): the block
ignores the content. -/
abbrev idealAck : Bytes := [0x5A, 0xA5, 0x03, 0x82, 0x4F, 0x4B]

end Config

end Sys2Proof
end

