-- ==== Sys2Proof/Syntax.lean ====
section
/-! DEFINITION. The instructions: one constructor for each of the eight rows of
spec/opcode_table.json, the four host operations (format HOSTCMD) and the four frame kinds. -/

namespace Sys2Proof

/-- The rows of the opcode table with their operands. A host operation carries the whole tuple of
R61; a field it does not read may hold anything (R12, U15). A frame carries the fields its row
leaves free. -/
inductive Instr where
  /-- `WRITE_REG` (R90): `writeRegister(address, value [, timeout=t])`, code 0. -/
  | writeReg (addr : Half) (wdata : Pattern) (tmoEn : Bool) (tmo : Nat)
  /-- `READ_REG` (R98): `readRegister(address [, timeout=t])`, code 1. -/
  | readReg (addr : Half) (wdata : Pattern) (tmoEn : Bool) (tmo : Nat)
  /-- `WRITE_FLOAT` (R109): `writeFloat(address, value [, timeout=t])`, code 2. -/
  | writeFloat (addr : Half) (wdata : Pattern) (tmoEn : Bool) (tmo : Nat)
  /-- `READ_FLOAT` (R110): `readFloat(address [, timeout=t])`, code 3. -/
  | readFloat (addr : Half) (wdata : Pattern) (tmoEn : Bool) (tmo : Nat)
  /-- `WR_REQ` (R51): the write request the block sends. -/
  | wrReq (addr val : Half)
  /-- `RD_REQ` (R52): the read request the block sends. -/
  | rdReq (addr : Half)
  /-- `RD_RSP` (R53): the read response the block accepts; `len`, the echoed address and the count
  are not checked (R96). -/
  | rdRsp (len ahEcho alEcho cnt vh vl : Byte)
  /-- `WR_ACK` (R54, R91): what the reader returned after a write request, 0 to 6 bytes. -/
  | wrAck (bytes : Bytes)
  deriving DecidableEq, Repr

end Sys2Proof
end

