-- ==== Sys2Proof/WellFormed.lean ====
section
/-! DEFINITION. Which instructions the encodings of spec/30_encoding.md admit. The field widths are
the types of Syntax.lean; the one thing left to check is the length of an acknowledgement: "any 6
bytes (or fewer, on timeout)" (R54, R59, R91). All four host codes and every operand are legal (R60,
R61). -/

namespace Sys2Proof

/-- The checks an instruction must pass. -/
def Instr.wf : Instr → Bool
  | .writeReg _ _ _ _ => true
  | .readReg _ _ _ _ => true
  | .writeFloat _ _ _ _ => true
  | .readFloat _ _ _ _ => true
  | .wrReq _ _ => true
  | .rdReq _ => true
  | .rdRsp _ _ _ _ _ _ => true
  | .wrAck bytes => decide (bytes.length ≤ Config.ackLen)

end Sys2Proof
end

