-- ==== Sys2Proof/Decode.lean ====
section
/-! DEFINITION. The decoder, total on any command tuple and any bytes, rejecting by name; after it the
frame encoder of spec/40_frame_encoder.md and the encoder of instructions; last the host's opcode-table
word. A frame is decoded by its kind, which the block knows from the operation in progress and never
from the frame itself (R58). -/

namespace Sys2Proof

/-! ## Byte order (20_memory.md R36) -/

/-- `HI8` (R70): the more significant byte of a 16-bit field; bits above bit 15 are dropped. -/
def hi8 (x : Nat) : Byte := BitVec.ofNat 8 ((x >>> 8) &&& 0xFF)

/-- `LO8` (R71): the less significant byte. -/
def lo8 (x : Nat) : Byte := BitVec.ofNat 8 (x &&& 0xFF)

/-- R56: the field whose more significant byte is `h`, `(h << 8) | l`. -/
def join16 (h l : Byte) : Half := (h.setWidth 16 <<< 8) ||| l.setWidth 16

/-! ## Decoding -/

/-- The four frame kinds of R50, with the direction the opcode table gives each. -/
inductive FrameKind where
  /-- FRAME8_TX, block to device (R51). -/
  | wrReq
  /-- FRAME7_TX, block to device (R52). -/
  | rdReq
  /-- FRAME9_RX, device to block (R53). -/
  | rdRsp
  /-- FRAME6_RX, device to block (R54). -/
  | wrAck
  deriving DecidableEq, Repr

/-- What is decoded: the tuple on the command port (R61), or the bytes of a frame of a known kind. -/
inductive Encoded where
  | command (c : HostCmd)
  | frame (kind : FrameKind) (bytes : Bytes)
  deriving DecidableEq, Repr

/-- Why bytes are not a frame of the kind asked for. -/
inductive Reject where
  /-- The count of bytes is not the kind's (R51 to R54). -/
  | wrongLength
  /-- Bytes 0 and 1 are not `5A A5` (R50). -/
  | wrongHeader
  /-- Byte 2 of a request is not its constant (R57, R64). -/
  | wrongLengthByte
  /-- Byte 3 is not the kind's command byte. -/
  | wrongCommand
  /-- Byte 6 of a read request is not `01` (R52). -/
  | wrongCount
  deriving DecidableEq, Repr

/-- The decoder's answer. -/
inductive Decoded where
  | instr (i : Instr)
  | rejected (r : Reject)
  deriving DecidableEq, Repr

/-- The host operation a command tuple names (R60): the two bits of `op`, all four legal. -/
def decodeCommand (c : HostCmd) : Instr :=
  match c.op.toNat with
  | 0 => .writeReg c.addr c.wdata c.tmoEn c.tmo
  | 1 => .readReg c.addr c.wdata c.tmoEn c.tmo
  | 2 => .writeFloat c.addr c.wdata c.tmoEn c.tmo
  | _ => .readFloat c.addr c.wdata c.tmoEn c.tmo

/-- A write request (R51): eight bytes `5A A5 05 82 AH AL VH VL`. -/
def decodeWrReq : Bytes → Decoded
  | [h0, h1, len, cmd, ah, al, vh, vl] =>
    if h0 ≠ Config.hdr0 ∨ h1 ≠ Config.hdr1 then .rejected .wrongHeader
    else if len ≠ Config.lenWr then .rejected .wrongLengthByte
    else if cmd ≠ Config.cmdWr then .rejected .wrongCommand
    else .instr (.wrReq (join16 ah al) (join16 vh vl))
  | _ => .rejected .wrongLength

/-- A read request (R52): seven bytes `5A A5 04 83 AH AL 01`. -/
def decodeRdReq : Bytes → Decoded
  | [h0, h1, len, cmd, ah, al, cnt] =>
    if h0 ≠ Config.hdr0 ∨ h1 ≠ Config.hdr1 then .rejected .wrongHeader
    else if len ≠ Config.lenRd then .rejected .wrongLengthByte
    else if cmd ≠ Config.cmdRd then .rejected .wrongCommand
    else if cnt ≠ Config.count1 then .rejected .wrongCount
    else .instr (.rdReq (join16 ah al))
  | _ => .rejected .wrongLength

/-- A read response (R53): nine bytes, of which 0, 1 and 3 are compared and nothing else (R96, C2). -/
def decodeRdRsp : Bytes → Decoded
  | [h0, h1, len, cmd, ah, al, cnt, vh, vl] =>
    if h0 ≠ Config.hdr0 ∨ h1 ≠ Config.hdr1 then .rejected .wrongHeader
    else if cmd ≠ Config.cmdRd then .rejected .wrongCommand
    else .instr (.rdRsp len ah al cnt vh vl)
  | _ => .rejected .wrongLength

/-- An acknowledgement (R54, R91): any 0 to 6 bytes. -/
def decodeWrAck (bytes : Bytes) : Decoded :=
  if bytes.length ≤ Config.ackLen then .instr (.wrAck bytes) else .rejected .wrongLength

/-- The bytes of a frame of a known kind. -/
def decodeFrame : FrameKind → Bytes → Decoded
  | .wrReq, bytes => decodeWrReq bytes
  | .rdReq, bytes => decodeRdReq bytes
  | .rdRsp, bytes => decodeRdRsp bytes
  | .wrAck, bytes => decodeWrAck bytes

/-- The decoder. -/
def decode : Encoded → Decoded
  | .command c => .instr (decodeCommand c)
  | .frame kind bytes => decodeFrame kind bytes

/-! ## Encoding -/

/-- `ENC_WRITE` (R72): the write request for any two naturals, masked to 16 bits each. -/
def encWrite (addr val : Nat) : Bytes :=
  [Config.hdr0, Config.hdr1, Config.lenWr, Config.cmdWr, hi8 addr, lo8 addr, hi8 val, lo8 val]

/-- `ENC_READ` (R73): the read request for any natural, masked to 16 bits. -/
def encRead (addr : Nat) : Bytes :=
  [Config.hdr0, Config.hdr1, Config.lenRd, Config.cmdRd, hi8 addr, lo8 addr, Config.count1]

/-- The command tuple or the frame of an instruction: R60, R61 for the host operations, R51 to R54
for the frames. -/
def encode : Instr → Encoded
  | .writeReg addr wdata tmoEn tmo => .command ⟨Config.opWriteReg, addr, wdata, tmoEn, tmo⟩
  | .readReg addr wdata tmoEn tmo => .command ⟨Config.opReadReg, addr, wdata, tmoEn, tmo⟩
  | .writeFloat addr wdata tmoEn tmo => .command ⟨Config.opWriteFloat, addr, wdata, tmoEn, tmo⟩
  | .readFloat addr wdata tmoEn tmo => .command ⟨Config.opReadFloat, addr, wdata, tmoEn, tmo⟩
  | .wrReq addr val => .frame .wrReq (encWrite addr.toNat val.toNat)
  | .rdReq addr => .frame .rdReq (encRead addr.toNat)
  | .rdRsp len ah al cnt vh vl =>
    .frame .rdRsp [Config.hdr0, Config.hdr1, len, Config.cmdRd, ah, al, cnt, vh, vl]
  | .wrAck bytes => .frame .wrAck bytes

/-! ## The host's opcode-table word -/

/-- The whole bytes of a table word: the first byte on the line in bits 7 to 0. -/
def tableBytes (nbits w : Nat) : Bytes :=
  (List.range (nbits / 8)).map fun i => BitVec.ofNat 8 (w >>> (8 * i))

/-- The frame kind whose row has this many bits; the four lengths differ (R58). -/
def kindOfBits (nbits : Nat) : Option FrameKind :=
  if nbits = 64 then some .wrReq
  else if nbits = 56 then some .rdReq
  else if nbits = 72 then some .rdRsp
  else if nbits = 48 then some .wrAck
  else none

/-- The instruction of an answer, if there is one. -/
def Decoded.toOption : Decoded → Option Instr
  | .instr i => some i
  | .rejected _ => none

/-- The instruction the decoder reads from an opcode-table word. Up to 8 bits: a host code (the row's
mask looks at bits 1 and 0 only), every other field of the tuple zero. More: a frame of the kind that
has this length, its first byte in the lowest bits; the table's own hexadecimal strings write byte 0
leftmost, so where that reading is no frame the other byte order is tried (log 15). -/
def decodeTableWord (nbits w : Nat) : Option Instr :=
  if nbits = 0 then none
  else if nbits ≤ 8 then
    (decode (.command ⟨BitVec.ofNat 2 w, 0, 0, false, 0⟩)).toOption
  else
    match kindOfBits nbits with
    | none => none
    | some kind =>
      match decode (.frame kind (tableBytes nbits w)) with
      | .instr i => some i
      | .rejected _ => (decode (.frame kind (tableBytes nbits w).reverse)).toOption

end Sys2Proof
end

