-- ==== Sys2Proof/Machine/State.lean ====
section
/-! DEFINITION. The state of the block (10_state.md R10 to R19), the reference environment it runs in
(R25, log 1), the state after reset (R26), and the reasons a step can stop. Plain data throughout. -/

namespace Sys2Proof.Machine

/-! ## The block -/

/-- `SEQ` of R13, the pair `(phase, trip)`. The trip stands only where the spec gives it a meaning: in
`IDLE` and `DONE` the spec writes `(IDLE, -)` and `(DONE, -)` (log 6). -/
inductive Seq where
  /-- No command; the block accepts one. -/
  | idle
  /-- About to hand the request frame of this trip to the transport. -/
  | send (trip : Trip)
  /-- The reader is accumulating the reply of this trip. -/
  | recv (trip : Trip)
  /-- The reader has returned; its bytes are about to be discarded or validated. -/
  | check (trip : Trip)
  /-- The result registers hold the outcome; waiting for the host to take it. -/
  | done
  deriving DecidableEq, Repr

/-- `NEED` of R14: 6 after a write request, 9 after a read request. -/
inductive Need where
  | six
  | nine
  deriving DecidableEq, Repr

/-- The four result registers of R17. `none` is the spec's own "no value" (R18, U3; log 5). -/
structure ResultRegs where
  /-- `RES_STATUS`: 0 `OK`, 1 `INVALID_RESPONSE`, 2 `TRANSPORT_ERROR`. -/
  status : BitVec 2
  /-- `RES_RDATA`. -/
  rdata  : Option Pattern
  /-- `RES_DIAG`; its count `RES_DIAG_N` is the length of the list (log 24). -/
  diag   : Option Bytes
  /-- `RES_TFAULT`. -/
  tfault : Option TFault
  deriving DecidableEq, Repr

/-- The abstract result of R19, of which the registers of R17 are the encoding. -/
inductive Result where
  | ok
  | okReg (value : Half)
  | okFloat (pattern : Pattern)
  | invalidResponse (bytes : Bytes)
  | transportError (fault : TFault)
  deriving DecidableEq, Repr

/-! ## The environment (R20 to R25) -/

/-- What a transport call answers in place of a plain value: the value, or a fault (R20). -/
inductive Answer (α : Type) where
  | ok (a : α)
  | fault (f : TFault)
  deriving DecidableEq, Repr

/-- One `TxWrite` call: the frame the block handed over (R32), and how many of its bytes reached the
line, which is all of them unless the call faulted (U11; log 9). -/
structure TxCall where
  frame   : Bytes
  reached : Nat
  deriving DecidableEq, Repr

/-- A faulting answer of `TxWrite`, and how many bytes of the frame get out all the same (U11). -/
structure TxFault where
  fault   : TFault
  reached : Nat
  deriving DecidableEq, Repr

/-- A faulting answer of `RxReadOne`, and whether the faulting call removes a byte from the transport:
"the transport's affair" (V-RX-11; log 10). -/
structure ReadFault where
  fault : TFault
  lost  : Bool
  deriving DecidableEq, Repr

/-- One move of an agent (R120, R129). Everything but `block` belongs to the host, the device and its
transport, or the clock. -/
inductive Move where
  /-- The block takes its enabled step: ACCEPT, SEND, POLL or CHECK (R121 to R125). -/
  | block
  /-- The host changes what it presents at the command port; `none` withdraws it (R121). -/
  | present (c : Option HostCmd)
  /-- The host takes the result: RETIRE (R127). -/
  | retire
  /-- The reset input (R26, R160 to R162). -/
  | reset
  /-- DEVICE: the transport's receive queue gets one more byte (R129). -/
  | device (b : Byte)
  /-- CLOCK: time moves forward by `d` ticks (R129). -/
  | clock (d : Nat)
  /-- The transport's default timeout is configured (R24). -/
  | setDefault (t : Nat)
  /-- How `TxWrite` answers from now on (R20; log 12). -/
  | answerTx (a : Option TxFault)
  /-- How `RxAvail` answers from now on (R20; log 12). -/
  | answerAvail (a : Option TFault)
  /-- How `RxReadOne` answers from now on (R20; log 12). -/
  | answerRead (a : Option ReadFault)
  /-- The transport reports `n` bytes more than it holds, against R165 when `n` is not 0 (U5, D13;
  log 11). -/
  | overreport (n : Nat)
  /-- Something other than the block takes `n` bytes from the head of the receive queue: the host
  clearing it by means outside the block (R167), or another user (R173) (log 19). -/
  | drain (n : Nat)
  /-- The ideal device of D26 acts on the oldest frame it has not acted on, and answers (log 18). -/
  | serve
  /-- Something else changes a device register (R112, R170). -/
  | poke (addr value : Half)
  deriving DecidableEq, Repr

/-- The device register space of R30, R31: 65,536 registers of 16 bits, as a list of (address, value)
in one canonical form (`Memory.wf` in Machine/Ops.lean; log 18). -/
abbrev Memory := List (Nat × Half)

/-- The environment of R25 and the order in which its agents move (log 1). -/
structure Env where
  /-- The command port (R61): the tuple the host presents, if it presents one (log 7). -/
  port       : Option HostCmd
  /-- `RXQ` (R25): the transport's receive queue, oldest byte first. -/
  rxq        : Bytes
  /-- `TXLOG` (R25): every `TxWrite` call, oldest first. -/
  txlog      : List TxCall
  /-- `NOW` (R23). -/
  now        : Nat
  /-- `T_DEFAULT` (R24). -/
  tDefault   : Nat
  /-- How `TxWrite` answers: `none` is normally (R20). -/
  txFault    : Option TxFault
  /-- How `RxAvail` answers: `none` is normally (R20). -/
  availFault : Option TFault
  /-- How `RxReadOne` answers: `none` is normally (R20). -/
  readFault  : Option ReadFault
  /-- How many bytes `RxAvail` reports beyond those held; 0 for a transport that keeps R165 (log 11). -/
  overcount  : Nat
  /-- The device register space (R31; log 18). -/
  dev        : Memory
  /-- How many `TxWrite` calls the ideal device has acted on (D26; log 18). -/
  served     : Nat
  /-- What the host has taken, one snapshot per RETIRE, oldest first (R127; log 8). -/
  taken      : List ResultRegs
  /-- The moves to come, the next one first; when none is left the block goes on alone (log 1). -/
  sched      : List Move
  deriving DecidableEq, Repr

/-- The machine: the block's registers of R10 and the environment. -/
structure State where
  /-- `SEQ` (R13). -/
  seq      : Seq
  /-- The five command latches `CMD_OP`, `CMD_ADDR`, `CMD_WDATA`, `CMD_TMO_EN`, `CMD_TMO` (R11). -/
  cmd      : HostCmd
  /-- `ACC` (R14). -/
  acc      : Bytes
  /-- `NEED` (R14). -/
  need     : Need
  /-- `DEADLINE` (R14). -/
  deadline : Nat
  /-- `HIWORD` (R15). -/
  hiword   : Half
  /-- `RES_STATUS`, `RES_RDATA`, `RES_DIAG`, `RES_TFAULT` (R17). -/
  res      : ResultRegs
  /-- The environment (R25). -/
  env      : Env
  deriving DecidableEq, Repr

/-- The environment at the start. None of these is the block's, and none of these values is the spec's
(log 3): nothing presented, nothing received or sent, time 0, a transport that answers normally. -/
def Env.initial : Env where
  port       := none
  rxq        := []
  txlog      := []
  now        := 0
  tDefault   := Config.resetDefaultTimeout
  txFault    := none
  availFault := none
  readFault  := none
  overcount  := 0
  dev        := []
  served     := 0
  taken      := []
  sched      := []

/-- The block right after reset, in a given environment: `SEQ.phase = IDLE` (R26, R160), no result
register holds a value, and the environment as it was (R162). The values of the latches, the reader
registers, `HIWORD` and `RES_STATUS` are unspecified in R26; these are the model's (log 2). -/
def State.resetIn (env : Env) : State where
  seq      := .idle
  cmd      := ⟨0, 0, 0, false, 0⟩
  acc      := []
  need     := .six
  deadline := 0
  hiword   := 0
  res      := ⟨0, none, none, none⟩
  env      := env

/-- The machine right after reset (R26). -/
def State.reset : State := State.resetIn Env.initial

/-- Why the machine stops. The spec's two errors are endings of a command, not stops (R140); they are
in the next state's result registers. -/
inductive Fault where
  /-- Raised by POLL alone: `RxAvail` reported bytes, `RxReadOne` was called and the transport held
  none. "A transport that reports available bytes and then yields none has broken its contract; the
  model gives that no step" (D13, U5). Safe: the model stops where the spec gives no step (log 11). -/
  | readOneUnavailable
  deriving DecidableEq, Repr

/-- Why an instruction is refused. -/
inductive Refusal where
  /-- Raised by an arm of `exec` whose instruction has no meaning yet. Safe: the model stops. -/
  | notModelled (mnemonic : String)
  deriving DecidableEq, Repr

end Sys2Proof.Machine
end

