-- ==== Sys2Proof/Machine/Flags.lean ====
section
/-! DEFINITION. The three flags of 10_state.md R16, functions of `SEQ.phase`, and what the host can
see of the block (R16, R17, R135). The block has no condition codes (R16). -/

namespace Sys2Proof.Machine

/-- `cmd_ready` (R16): 1 exactly when `phase = IDLE`. -/
def State.cmdReady (s : State) : Bool :=
  match s.seq with
  | .idle => true
  | .send _ => false
  | .recv _ => false
  | .check _ => false
  | .done => false

/-- `BUSY` (R16): 1 exactly when `phase` is `SEND`, `RECV` or `CHECK`. -/
def State.busy (s : State) : Bool :=
  match s.seq with
  | .idle => false
  | .send _ => true
  | .recv _ => true
  | .check _ => true
  | .done => false

/-- `rsp_valid` (R16): 1 exactly when `phase = DONE`. -/
def State.rspValid (s : State) : Bool :=
  match s.seq with
  | .idle => false
  | .send _ => false
  | .recv _ => false
  | .check _ => false
  | .done => true

/-- `RES_DIAG_N` (R17): the 4-bit count of `RES_DIAG`, where that holds a value. -/
def ResultRegs.diagN (r : ResultRegs) : Option (BitVec 4) :=
  r.diag.map fun bytes => BitVec.ofNat 4 bytes.length

/-- What the host reads at the result port: the registers while `rsp_valid = 1`, else nothing (R17). -/
def State.resultPort (s : State) : Option ResultRegs :=
  if s.rspValid then some s.res else none

end Sys2Proof.Machine
end

