-- ==== Sys2Proof/Machine/Operands.lean ====
section
/-! DEFINITION. The operand forms: the helper functions of the latched command (45_sequencer.md R128),
the float split and join (44_float.md R106, R107) and the response validator and extraction
(43_register_read.md R95, R97). -/

namespace Sys2Proof.Machine

/-- `is_read(op)` (R128): bit 0 of the code. -/
def isRead (op : BitVec 2) : Bool := op.getLsbD 0

/-- `is_float(op)` (R128): bit 1 of the code. -/
def isFloat (op : BitVec 2) : Bool := op.getLsbD 1

/-- `FSPLIT` (R106), the more significant word first: `(w[31:16], w[15:0])`. -/
def fsplit (w : Pattern) : Half × Half := (w.extractLsb' 16 16, w.extractLsb' 0 16)

/-- `FJOIN` (R107): `cat16(h, l)`. -/
def fjoin (h l : Half) : Pattern := (h.setWidth 32 <<< 16) ||| l.setWidth 32

/-- `trip_addr` (R128): `(CMD_ADDR + SEQ.trip) & 0xFFFF`, so trip 1 at 0xFFFF is at 0 (R40). -/
def tripAddr (addr : Half) (k : Trip) : Half := addr + BitVec.ofNat 16 k.toNat

/-- The value a float write sends in a trip (R128, R109): MSW in trip 0, LSW in trip 1. -/
def tripWord (w : Pattern) : Trip → Half
  | .zero => (fsplit w).1
  | .one  => (fsplit w).2

/-- The value `WRITE_REG` sends: `CMD_WDATA[15:0]` (R61, R128). -/
def lowHalf (w : Pattern) : Half := w.extractLsb' 0 16

/-- `trip_val` (R128). -/
def tripVal (c : HostCmd) (k : Trip) : Half :=
  if isFloat c.op then tripWord c.wdata k else lowHalf c.wdata

/-- `need` (R128): 9 for a read, 6 for a write. -/
def needOf (op : BitVec 2) : Need := if isRead op then .nine else .six

/-- The count `NEED` stands for (R5, R14). -/
def Need.count : Need → Nat
  | .six  => Config.ackLen
  | .nine => Config.rspLen

/-- `last_trip` (R128). -/
def lastTrip (op : BitVec 2) (k : Trip) : Bool := !isFloat op || k == .one

/-- `tmo_eff` (R128, R81): the override, or the transport's default read now. -/
def tmoEff (c : HostCmd) (tDefault : Nat) : Nat := if c.tmoEn then c.tmo else tDefault

/-- The request of a trip as an instruction (R128 `frame`): its encoding is the frame sent. -/
def frameInstr (c : HostCmd) (k : Trip) : Instr :=
  if isRead c.op then .rdReq (tripAddr c.addr k) else .wrReq (tripAddr c.addr k) (tripVal c k)

/-- `VALIDATE` (R95): nine bytes, then bytes 0, 1 and 3; nothing else is looked at (R96). -/
def validate (s : Bytes) : Bool :=
  s.length == Config.rspLen && s[0]? == some Config.hdr0 && s[1]? == some Config.hdr1
    && s[3]? == some Config.cmdRd

/-- `EXTRACT` (R97): `(s[7] << 8) | s[8]`, defined for nine bytes and taken only after `validate` has
held, so that neither default is ever the result. -/
def extract (s : Bytes) : Half := join16 (s.getD 7 0) (s.getD 8 0)

/-- The registers a result is encoded in (R17, R18): `RES_STATUS` always, the others only where the
row of R18 gives them a value. -/
def Result.regs : Result → ResultRegs
  | .ok => ⟨Config.statusOk, none, none, none⟩
  | .okReg v => ⟨Config.statusOk, some (v.setWidth 32), none, none⟩
  | .okFloat w => ⟨Config.statusOk, some w, none, none⟩
  | .invalidResponse bytes => ⟨Config.statusInvalid, none, some bytes, none⟩
  | .transportError f => ⟨Config.statusTransport, none, none, some f⟩

/-- The abstract result that the registers encode for an operation (R18, R19), read back from them;
`none` where they hold no row of R18. -/
def ResultRegs.result (op : BitVec 2) (r : ResultRegs) : Option Result :=
  match r.status.toNat, r.rdata, r.diag, r.tfault with
  | 0, none, none, none => if isRead op then none else some .ok
  | 0, some w, none, none =>
    if !isRead op then none
    else if isFloat op then some (.okFloat w)
    else if w.extractLsb' 16 16 = 0 then some (.okReg (lowHalf w)) else none
  | 1, none, some bytes, none => if isRead op then some (.invalidResponse bytes) else none
  | 2, none, none, some f => some (.transportError f)
  | _, _, _, _ => none

end Sys2Proof.Machine
end

