-- ==== Sys2Proof/Machine/Ops.lean ====
section
/-! DEFINITION. The named operations: the environment calls of 10_state.md R20 to R24, the device
register space, FINISH and the two errors (45_sequencer.md R126, 60_exceptions.md R143, R144), the
return from them (RETIRE, R127, R147), ACCEPT (R121), SEND (R122) and the tails of CHECK (R124, R125). -/

namespace Sys2Proof.Machine

/-- The answer of a meaning. -/
abbrev Outcome := Host.Outcome State Fault Refusal

/-! ## The device register space (20_memory.md R30, R31) -/

/-- The value of a device register; one that is not listed reads as `Config.unwrittenRegister`. -/
def Memory.read : Memory → Nat → Half
  | [], _ => Config.unwrittenRegister
  | (b, u) :: m, a => if a = b then u else Memory.read m a

/-- Storing a value, keeping the addresses rising and listing no register that reads the same
unlisted. -/
def Memory.write : Memory → Nat → Half → Memory
  | [], a, v => if v = Config.unwrittenRegister then [] else [(a, v)]
  | (b, u) :: m, a, v =>
    if a < b then
      if v = Config.unwrittenRegister then (b, u) :: m else (a, v) :: (b, u) :: m
    else if a = b then
      if v = Config.unwrittenRegister then m else (a, v) :: m
    else (b, u) :: Memory.write m a v

/-- The canonical form: addresses strictly rising and below 65,536 (R30), no entry equal to what an
unlisted register reads as. -/
abbrev Memory.wf (m : Memory) : Prop :=
  m.Pairwise (fun c d => c.1 < d.1) ∧ ∀ c ∈ m, c.1 < 65536 ∧ c.2 ≠ Config.unwrittenRegister

/-! ## The environment calls (R20 to R24) -/

/-- `TxWrite(frame)` (R21): the transport takes the whole frame and answers at once, normally or with
a fault; on a fault any part of the frame may have reached the line (U11). -/
def State.txWrite (frame : Bytes) (s : State) : State × Answer Unit :=
  match s.env.txFault with
  | none =>
    ({ s with env := { s.env with txlog := s.env.txlog ++ [⟨frame, frame.length⟩] } }, .ok ())
  | some e =>
    ({ s with env := { s.env with txlog := s.env.txlog ++ [⟨frame, e.reached⟩] } }, .fault e.fault)

/-- `RxAvail()` (R22): how many received bytes the transport says it holds. -/
def State.rxAvail (s : State) : Answer Nat :=
  match s.env.availFault with
  | none => .ok (s.env.rxq.length + s.env.overcount)
  | some f => .fault f

/-- `RxReadOne()` (R22): removes and returns the oldest byte, or faults. `none`: called with nothing
to return, which the spec leaves without a step (U5, D13). -/
def State.rxReadOne (s : State) : Option (State × Answer Byte) :=
  match s.env.readFault with
  | some e =>
    if e.lost then some ({ s with env := { s.env with rxq := s.env.rxq.tail } }, .fault e.fault)
    else some (s, .fault e.fault)
  | none =>
    match s.env.rxq with
    | [] => none
    | b :: rest => some ({ s with env := { s.env with rxq := rest } }, .ok b)

/-! ## FINISH, the two errors, and the return from them -/

/-- FINISH (R126): writes the result registers and goes to `(DONE, -)`. -/
def State.finish (r : Result) (s : State) : State := { s with res := r.regs, seq := .done }

/-- `raise InvalidResponse(s)` (R143). -/
def State.raiseInvalidResponse (bytes : Bytes) (s : State) : State :=
  s.finish (.invalidResponse bytes)

/-- `raise TransportError(f)` (R144): the fault value is copied unchanged; `ACC` is not reported. -/
def State.raiseTransportError (f : TFault) (s : State) : State := s.finish (.transportError f)

/-- RETIRE (R127, R147), the way out of a success and of an error alike: the host takes the four
registers and the block goes to `(IDLE, -)`; not enabled outside `DONE`. -/
def State.retire (s : State) : State :=
  match s.seq with
  | .done => { s with seq := .idle, env := { s.env with taken := s.env.taken ++ [s.res] } }
  | .idle => s
  | .send _ => s
  | .recv _ => s
  | .check _ => s

/-! ## ACCEPT, SEND and the tails of CHECK -/

/-- ACCEPT (R121): the five latches are written together and the port is free again (log 7). -/
def State.accept (c : HostCmd) (s : State) : State :=
  { s with cmd := c, seq := .send .zero, env := { s.env with port := none } }

/-- SEND (R122) of a given frame in trip `k`: the hand-over, and then the deadline from the time of the
hand-over, an empty accumulator and the count to ask for. -/
def State.sendRequest (frame : Bytes) (k : Trip) (s : State) : State :=
  match s.txWrite frame with
  | (s', .fault f) => s'.raiseTransportError f
  | (s', .ok _) =>
    { s' with
      deadline := s'.env.now + tmoEff s'.cmd s'.env.tDefault
      acc := []
      need := needOf s'.cmd.op
      seq := .recv k }

/-- CHECK after a write request (R124): what the reader returned is not looked at. -/
def State.discardAck (k : Trip) (s : State) : State :=
  if lastTrip s.cmd.op k then s.finish .ok else { s with seq := .send .one }

/-- CHECK after a read request whose response was valid (R125), with the value extracted from it. -/
def State.acceptValue (v : Half) (k : Trip) (s : State) : State :=
  if isFloat s.cmd.op then
    match k with
    | .zero => { s with hiword := v, seq := .send .one }
    | .one => s.finish (.okFloat (fjoin s.hiword v))
  else s.finish (.okReg v)

end Sys2Proof.Machine
end

