-- ==== Sys2Proof/Machine/Reader.lean ====
section
/-! DEFINITION. The transport reader (spec/41_transport_reader.md) as the POLL step of
45_sequencer.md R123, one turn of its loop. -/

namespace Sys2Proof.Machine

/-- POLL (R123, R82) in trip `k`: both tests first, on the time of this step; then at most one byte is
removed. When the count is reached or the deadline has come, the run ends with what there is (R83). -/
def State.poll (k : Trip) (s : State) : Outcome :=
  if s.acc.length < s.need.count ∧ s.env.now < s.deadline then
    match s.rxAvail with
    | .fault f => .next (s.raiseTransportError f)
    | .ok 0 => .next s
    | .ok (_ + 1) =>
      match s.rxReadOne with
      | none => .fault .readOneUnavailable
      | some (s', .fault f) => .next (s'.raiseTransportError f)
      | some (s', .ok b) => .next { s' with acc := s'.acc ++ [b] }
  else .next { s with seq := .check k }

end Sys2Proof.Machine
end

