-- ==== Sys2Proof/Machine/Command.lean ====
section
/-! DEFINITION. What the four host operations share: a command is the steps ACCEPT, SEND, POLL and
CHECK of 45_sequencer.md, one at a time, and between them the other agents move (R120). The meaning of
a host operation is the step the block takes for that command in the phase it is in (log 13). -/

namespace Sys2Proof.Machine

/-- One step of the command `c`, given its own SEND and CHECK. In `IDLE` it is accepted (R121). In the
busy phases the command in the latches takes its step; any other one waits at the port, unseen, until
the block is `IDLE` again (R121, R166). In `DONE` the block waits for the host (R127, R130). -/
def runCommand (c : HostCmd) (send check : Trip → State → State) (s : State) : Outcome :=
  match s.seq with
  | .idle => .next (s.accept c)
  | .send k => .next (if s.cmd = c then send k s else s)
  | .recv k => if s.cmd = c then s.poll k else .next s
  | .check k => .next (if s.cmd = c then check k s else s)
  | .done => .next s

end Sys2Proof.Machine
end

