-- ==== Sys2Proof/Machine/Float.lean ====
section
/-! DEFINITION. The float write and float read compositions, spec/44_float.md: two trips, the more
significant word at `addr` and then the less significant at `(addr + 1) & 0xFFFF`. -/

namespace Sys2Proof.Machine

/-- `WRITE_FLOAT` (R109): two write trips, each ending whatever its acknowledgement was; `OK` after the
second. -/
def execWriteFloat (addr : Half) (wdata : Pattern) (tmoEn : Bool) (tmo : Nat) (s : State) : Outcome :=
  runCommand ⟨Config.opWriteFloat, addr, wdata, tmoEn, tmo⟩
    (fun k s => s.sendRequest (encWrite (tripAddr addr k).toNat (tripWord wdata k).toNat) k)
    (fun k s =>
      match k with
      | .zero => { s with seq := .send .one }
      | .one => s.finish .ok) s

/-- `READ_FLOAT` (R110): two read trips; the first value waits in `HIWORD` (R15); a response that fails
`VALIDATE` in either trip ends the command there (R111). -/
def execReadFloat (addr : Half) (wdata : Pattern) (tmoEn : Bool) (tmo : Nat) (s : State) : Outcome :=
  runCommand ⟨Config.opReadFloat, addr, wdata, tmoEn, tmo⟩
    (fun k s => s.sendRequest (encRead (tripAddr addr k).toNat) k)
    (fun k s =>
      if validate s.acc then
        match k with
        | .zero => { s with hiword := extract s.acc, seq := .send .one }
        | .one => s.finish (.okFloat (fjoin s.hiword (extract s.acc)))
      else s.raiseInvalidResponse s.acc) s

end Sys2Proof.Machine
end

