-- ==== Sys2Proof/Machine/Frames.lean ====
section
/-! DEFINITION. The four frames as steps of the block: a request is handed to the transport by the SEND
step of its trip (45_sequencer.md R122), a reply is consumed by the CHECK step of its trip (R124, R125).
Each is enabled exactly when that step is, for a command of that direction; when it is not, the block
does nothing with the frame (R130; log 14). -/

namespace Sys2Proof.Machine

/-- `WR_REQ` (R51, R72): SEND of a write trip hands `5A A5 05 82 AH AL VH VL` to the transport. That it
does so also where it is not the frame of the trip (R128) is a DESIGN CHOICE (log 13). -/
def execWrReq (addr val : Half) (s : State) : Outcome :=
  match s.seq with
  | .send k => .next (if isRead s.cmd.op then s else s.sendRequest (encWrite addr.toNat val.toNat) k)
  | .idle => .next s
  | .recv _ => .next s
  | .check _ => .next s
  | .done => .next s

/-- `RD_REQ` (R52, R73): SEND of a read trip hands `5A A5 04 83 AH AL 01` to the transport. That it does
so also where it is not the frame of the trip (R128) is a DESIGN CHOICE (log 13). -/
def execRdReq (addr : Half) (s : State) : Outcome :=
  match s.seq with
  | .send k => .next (if isRead s.cmd.op then s.sendRequest (encRead addr.toNat) k else s)
  | .idle => .next s
  | .recv _ => .next s
  | .check _ => .next s
  | .done => .next s

/-- `RD_RSP` (R53, R95 to R97): CHECK of a read trip takes the value `(VH << 8) | VL`; the length byte,
the echoed address and the count are not looked at (R96). R125 validates `ACC`: that the instruction
takes the value of its own operands and does not look at `ACC`, also where `ACC` holds other bytes or no
valid response, is a DESIGN CHOICE (log 13). `fetch` gives it only as what `ACC` decodes to. -/
def execRdRsp (_len _ahEcho _alEcho _cnt vh vl : Byte) (s : State) : Outcome :=
  match s.seq with
  | .check k => .next (if isRead s.cmd.op then s.acceptValue (join16 vh vl) k else s)
  | .idle => .next s
  | .send _ => .next s
  | .recv _ => .next s
  | .done => .next s

/-- `WR_ACK` (R54, R91): CHECK of a write trip discards it, whatever its bytes and however few. That they
need not be those of `ACC` is a DESIGN CHOICE (log 13); R124 looks at neither. -/
def execWrAck (_bytes : Bytes) (s : State) : Outcome :=
  match s.seq with
  | .check k => .next (if isRead s.cmd.op then s else s.discardAck k)
  | .idle => .next s
  | .send _ => .next s
  | .recv _ => .next s
  | .done => .next s

end Sys2Proof.Machine
end

