-- ==== Sys2Proof/Machine/RegisterRead.lean ====
section
/-! DEFINITION. The register read operation, spec/43_register_read.md. -/

namespace Sys2Proof.Machine

/-- `READ_REG` (R98): sends `ENC_READ(addr)`, reads up to nine bytes, and ends `OkReg` of the value in
the last two of them if they pass `VALIDATE`, else `InvalidResponse` with the bytes (R99). -/
def execReadReg (addr : Half) (wdata : Pattern) (tmoEn : Bool) (tmo : Nat) (s : State) : Outcome :=
  runCommand ⟨Config.opReadReg, addr, wdata, tmoEn, tmo⟩
    (fun k s => s.sendRequest (encRead (tripAddr addr k).toNat) k)
    (fun _ s =>
      if validate s.acc then s.finish (.okReg (extract s.acc)) else s.raiseInvalidResponse s.acc) s

end Sys2Proof.Machine
end

