-- ==== Sys2Proof/Machine/RegisterWrite.lean ====
section
/-! DEFINITION. The register write operation, spec/42_register_write.md. -/

namespace Sys2Proof.Machine

/-- `WRITE_REG` (R90): sends `ENC_WRITE(addr, wdata[15:0])`, reads up to six bytes and drops them, and
ends `OK` whatever came (R91, R92). -/
def execWriteReg (addr : Half) (wdata : Pattern) (tmoEn : Bool) (tmo : Nat) (s : State) : Outcome :=
  runCommand ⟨Config.opWriteReg, addr, wdata, tmoEn, tmo⟩
    (fun k s => s.sendRequest (encWrite (tripAddr addr k).toNat (lowHalf wdata).toNat) k)
    (fun _ s => s.finish .ok) s

end Sys2Proof.Machine
end

