-- ==== Sys2Proof/Machine/Dispatch.lean ====
section
/-! DEFINITION. One arm for each row of the opcode table. -/

namespace Sys2Proof.Machine

/-- The meaning of each instruction. -/
def exec (i : Instr) (s : State) : Host.Outcome State Fault Refusal :=
  match i with
  | .writeReg addr wdata tmoEn tmo => Sys2Proof.Machine.execWriteReg addr wdata tmoEn tmo s
  | .readReg addr wdata tmoEn tmo => Sys2Proof.Machine.execReadReg addr wdata tmoEn tmo s
  | .writeFloat addr wdata tmoEn tmo => Sys2Proof.Machine.execWriteFloat addr wdata tmoEn tmo s
  | .readFloat addr wdata tmoEn tmo => Sys2Proof.Machine.execReadFloat addr wdata tmoEn tmo s
  | .wrReq addr val => Sys2Proof.Machine.execWrReq addr val s
  | .rdReq addr => Sys2Proof.Machine.execRdReq addr s
  | .rdRsp len ahEcho alEcho cnt vh vl => Sys2Proof.Machine.execRdRsp len ahEcho alEcho cnt vh vl s
  | .wrAck bytes => Sys2Proof.Machine.execWrAck bytes s

end Sys2Proof.Machine
end

