-- ==== Sys2Proof/Machine/Device.lean ====
section
/-! DEFINITION. The ideal device of 92_eei_decisions.md D26 and 95_test_vectors.md 3.1: one well-behaved
device, a premise of claims and no part of the block (log 18). Any other device is a list of `device`
moves (R129, U14). -/

namespace Sys2Proof.Machine

/-- The response of the ideal device, in the layout of the source's wire table (D26). -/
def idealResponse (addr value : Half) : Bytes :=
  [Config.hdr0, Config.hdr1, Config.lenRd, Config.cmdRd, hi8 addr.toNat, lo8 addr.toNat,
    Config.count1, hi8 value.toNat, lo8 value.toNat]

/-- What the ideal device does with the bytes of one request: it stores what it is sent and
acknowledges, or answers with what it holds; bytes that are no request leave it silent (D26). -/
def idealDevice (bytes : Bytes) (m : Memory) : Memory × Bytes :=
  match decodeWrReq bytes with
  | .instr (.wrReq addr value) => (m.write addr.toNat value, Config.idealAck)
  | _ =>
    match decodeRdReq bytes with
    | .instr (.rdReq addr) => (m, idealResponse addr (m.read addr.toNat))
    | _ => (m, [])

/-- The ideal device acts on the oldest `TxWrite` call it has not acted on, as much of it as reached
the line, and its whole reply arrives (D26). -/
def Env.serve (e : Env) : Env :=
  match e.txlog[e.served]? with
  | none => e
  | some call =>
    { e with
      dev := (idealDevice (call.frame.take call.reached) e.dev).1
      rxq := e.rxq ++ (idealDevice (call.frame.take call.reached) e.dev).2
      served := e.served + 1 }

end Sys2Proof.Machine
end

