-- ==== Sys2Proof/Machine/Environment.lean ====
section
/-! DEFINITION. The moves of the other agents (45_sequencer.md R127, R129; 70_reset_and_hazards.md R160
to R162). Each is one whole step: none falls inside a step of the block (R120). -/

namespace Sys2Proof.Machine

/-- Reset (R26, R160, R161): from any phase to `IDLE`; no transport call, no result; the environment is
not touched (R162). -/
def State.pullReset (s : State) : State := State.resetIn s.env

/-- The effect of a move. `block` is the block's own turn and does nothing here (Step.lean). -/
def State.applyMove (m : Move) (s : State) : State :=
  match m with
  | .block => s
  | .present c => { s with env := { s.env with port := c } }
  | .retire => s.retire
  | .reset => s.pullReset
  | .device b => { s with env := { s.env with rxq := s.env.rxq ++ [b] } }
  | .clock d => { s with env := { s.env with now := s.env.now + d } }
  | .setDefault t => { s with env := { s.env with tDefault := t } }
  | .answerTx a => { s with env := { s.env with txFault := a } }
  | .answerAvail a => { s with env := { s.env with availFault := a } }
  | .answerRead a => { s with env := { s.env with readFault := a } }
  | .overreport n => { s with env := { s.env with overcount := n } }
  | .drain n => { s with env := { s.env with rxq := s.env.rxq.drop n } }
  | .serve => { s with env := s.env.serve }
  | .poke addr value => { s with env := { s.env with dev := s.env.dev.write addr.toNat value } }

/-- The moves still to come. -/
def State.withSched (s : State) (moves : List Move) : State :=
  { s with env := { s.env with sched := moves } }

end Sys2Proof.Machine
end

