-- ==== Sys2Proof/Machine/Fetch.lean ====
section
/-! DEFINITION. Where the block's next instruction comes from. The block has no program and no fetch
(10_state.md R13, 20_memory.md R47): what it executes next is the command at its port in `IDLE`, the
request frame of the trip in `SEND`, the command in progress in `RECV`, and in `CHECK` the reply frame
the reader has returned (log 13). -/

namespace Sys2Proof.Machine

/-- The reply of the trip as an instruction: after a write request whatever was returned is the
acknowledgement (R91, R124); after a read request a response that decodes, and where none does the
command itself, whose CHECK raises `InvalidResponse` (R125). -/
def replyInstr (s : State) : Instr :=
  if isRead s.cmd.op then
    match decode (.frame .rdRsp s.acc) with
    | .instr i => i
    | .rejected _ => decodeCommand s.cmd
  else .wrAck s.acc

/-- The instruction of the block's enabled step; `none` where it has none: in `DONE`, and in `IDLE`
while the host presents no command (R130). -/
def fetch (s : State) : Option Instr :=
  match s.seq with
  | .idle => s.env.port.map decodeCommand
  | .send k => some (frameInstr s.cmd k)
  | .recv _ => some (decodeCommand s.cmd)
  | .check _ => some (replyInstr s)
  | .done => none

/-- An idle block with the command at its port, and the block's turn coming next (log 16). -/
def State.placeCommand (s : State) (c : HostCmd) : State :=
  { s with seq := .idle, env := { s.env with port := some c, sched := [] } }

/-- The state in which `fetch` gives the instruction `i`, the block's turn coming next (log 16): a host
operation stands at the port of an idle block; a request is the frame of trip 0 of the register
command that sends it; a reply is what the reader of trip 0 of such a command has returned. -/
def State.placeInstr (s : State) (i : Instr) : State :=
  match i with
  | .writeReg addr wdata tmoEn tmo =>
    s.placeCommand ⟨Config.opWriteReg, addr, wdata, tmoEn, tmo⟩
  | .readReg addr wdata tmoEn tmo =>
    s.placeCommand ⟨Config.opReadReg, addr, wdata, tmoEn, tmo⟩
  | .writeFloat addr wdata tmoEn tmo =>
    s.placeCommand ⟨Config.opWriteFloat, addr, wdata, tmoEn, tmo⟩
  | .readFloat addr wdata tmoEn tmo =>
    s.placeCommand ⟨Config.opReadFloat, addr, wdata, tmoEn, tmo⟩
  | .wrReq addr val =>
    { s with
      seq := .send .zero
      cmd := { s.cmd with op := Config.opWriteReg, addr := addr, wdata := val.setWidth 32 }
      env := { s.env with sched := [] } }
  | .rdReq addr =>
    { s with
      seq := .send .zero
      cmd := { s.cmd with op := Config.opReadReg, addr := addr }
      env := { s.env with sched := [] } }
  | .rdRsp len ah al cnt vh vl =>
    { s with
      seq := .check .zero
      cmd := { s.cmd with op := Config.opReadReg }
      need := .nine
      acc := [Config.hdr0, Config.hdr1, len, Config.cmdRd, ah, al, cnt, vh, vl]
      env := { s.env with sched := [] } }
  | .wrAck bytes =>
    { s with
      seq := .check .zero
      cmd := { s.cmd with op := Config.opWriteReg }
      need := .six
      acc := bytes
      env := { s.env with sched := [] } }

end Sys2Proof.Machine
end

