-- ==== Sys2Proof/Machine/Functions.lean ====
section
/-! DEFINITION. The four operations as the functions of the family files (41_transport_reader.md R80,
42_register_write.md R90, 43_register_read.md R98, 44_float.md R109, R110), run against a script of
what the environment answers, and the transport calls and answers of one step of the machine. R133
says that the two descriptions agree; R133 also says that the step machine governs. -/

namespace Sys2Proof.Machine

/-- A transport call with its argument (R20 to R22). -/
inductive Call where
  | txWrite (frame : Bytes)
  | rxAvail
  | rxReadOne
  deriving DecidableEq, Repr

/-- What the environment answers around one SEND: the answer of `TxWrite`, `Now()` and `TDefault()`. -/
structure SendEnv where
  fault    : Option TFault
  now      : Nat
  tDefault : Nat
  deriving DecidableEq, Repr

/-- What the environment answers at one poll: `Now()`, `RxAvail()`, `RxReadOne()`. -/
structure PollEnv where
  now   : Nat
  avail : Answer Nat
  read  : Answer Byte
  deriving DecidableEq, Repr

/-- The environment's answers at one step of the block that calls it. -/
inductive EnvAnswer where
  | send (e : SendEnv)
  | poll (p : PollEnv)
  deriving DecidableEq, Repr

/-- How a function ended: with a value, with a `raise` (R9), or not yet when the script ran out. -/
inductive Ended (α : Type) where
  | value (a : α)
  | raised (r : Result)
  | running
  deriving DecidableEq, Repr

/-- A run of a function: the transport calls it made, in order, how it ended, and the answers left. -/
structure Run (α : Type) where
  calls : List Call
  ended : Ended α
  rest  : List EnvAnswer
  deriving DecidableEq, Repr

/-- A run with calls made before it. -/
def Run.after {α : Type} (r : Run α) (calls : List Call) : Run α := { r with calls := calls ++ r.calls }

/-- Sequencing: no statement after a `raise` runs (R9). -/
def Run.andThen {α β : Type} (r : Run α) (next : α → List EnvAnswer → Run β) : Run β :=
  match r.ended with
  | .value a => (next a r.rest).after r.calls
  | .raised e => ⟨r.calls, .raised e, r.rest⟩
  | .running => ⟨r.calls, .running, r.rest⟩

/-- The loop of `RECV(n, tmo)` (R80) after its deadline is fixed: one poll for each answer. -/
def recvLoop (n : Nat) (deadline : Nat) : Bytes → List EnvAnswer → Run Bytes
  | _, [] => ⟨[], .running, []⟩
  | _, .send e :: rest => ⟨[], .running, .send e :: rest⟩
  | acc, .poll p :: rest =>
    if acc.length < n ∧ p.now < deadline then
      match p.avail with
      | .fault f => ⟨[.rxAvail], .raised (.transportError f), rest⟩
      | .ok 0 => (recvLoop n deadline acc rest).after [.rxAvail]
      | .ok (_ + 1) =>
        match p.read with
        | .fault f => ⟨[.rxAvail, .rxReadOne], .raised (.transportError f), rest⟩
        | .ok b => (recvLoop n deadline (acc ++ [b]) rest).after [.rxAvail, .rxReadOne]
    else ⟨[], .value acc, rest⟩

/-- `TxWrite(frame)?` and then `RECV(n, tmo)`: one round trip. The `Now()` of the deadline is that of
the hand-over (R81, R133); `tmo` is the override or `TDefault()` (R81). -/
def tripFn (frame : Bytes) (n : Nat) (tmoEn : Bool) (tmo : Nat) : List EnvAnswer → Run Bytes
  | [] => ⟨[], .running, []⟩
  | .poll p :: rest => ⟨[], .running, .poll p :: rest⟩
  | .send e :: rest =>
    match e.fault with
    | some f => ⟨[.txWrite frame], .raised (.transportError f), rest⟩
    | none =>
      (recvLoop n (e.now + (if tmoEn then tmo else e.tDefault)) [] rest).after [.txWrite frame]

/-- `WRITE_REG(addr, val, tmo)` of R90. -/
def writeRegFn (addr val : Nat) (tmoEn : Bool) (tmo : Nat) (script : List EnvAnswer) : Run Unit :=
  (tripFn (encWrite addr val) 6 tmoEn tmo script).andThen fun _ack rest => ⟨[], .value (), rest⟩

/-- `READ_REG(addr, tmo)` of R98. -/
def readRegFn (addr : Nat) (tmoEn : Bool) (tmo : Nat) (script : List EnvAnswer) : Run Half :=
  (tripFn (encRead addr) 9 tmoEn tmo script).andThen fun resp rest =>
    if validate resp then ⟨[], .value (extract resp), rest⟩
    else ⟨[], .raised (.invalidResponse resp), rest⟩

/-- `WRITE_FLOAT(addr, w, tmo)` of R109. -/
def writeFloatFn (addr : Nat) (w : Pattern) (tmoEn : Bool) (tmo : Nat) (script : List EnvAnswer) :
    Run Unit :=
  (writeRegFn addr (fsplit w).1.toNat tmoEn tmo script).andThen fun _ rest =>
    writeRegFn ((addr + 1) &&& 0xFFFF) (fsplit w).2.toNat tmoEn tmo rest

/-- `READ_FLOAT(addr, tmo)` of R110. -/
def readFloatFn (addr : Nat) (tmoEn : Bool) (tmo : Nat) (script : List EnvAnswer) : Run Pattern :=
  (readRegFn addr tmoEn tmo script).andThen fun h rest =>
    (readRegFn ((addr + 1) &&& 0xFFFF) tmoEn tmo rest).andThen fun l rest' =>
      ⟨[], .value (fjoin h l), rest'⟩

/-- The function of a command's operation (R133), with the `Result` it returns (R19). -/
def commandFn (c : HostCmd) (script : List EnvAnswer) : Run Result :=
  match c.op.toNat with
  | 0 =>
    (writeRegFn c.addr.toNat (c.wdata.toNat &&& 0xFFFF) c.tmoEn c.tmo script).andThen fun _ rest =>
      ⟨[], .value .ok, rest⟩
  | 1 =>
    (readRegFn c.addr.toNat c.tmoEn c.tmo script).andThen fun v rest => ⟨[], .value (.okReg v), rest⟩
  | 2 =>
    (writeFloatFn c.addr.toNat c.wdata c.tmoEn c.tmo script).andThen fun _ rest =>
      ⟨[], .value .ok, rest⟩
  | _ =>
    (readFloatFn c.addr.toNat c.tmoEn c.tmo script).andThen fun w rest =>
      ⟨[], .value (.okFloat w), rest⟩

/-- The result a run of a command's function ended with, by return or by `raise`. -/
def Ended.result : Ended Result → Option Result
  | .value r => some r
  | .raised r => some r
  | .running => none

/-! ## The same of one step of the machine -/

/-- The answers of the environment at the block's next step, where that step calls it (R122, R123). -/
def State.answers (s : State) : List EnvAnswer :=
  match s.seq with
  | .idle => []
  | .send _ => [.send ⟨s.env.txFault.map TxFault.fault, s.env.now, s.env.tDefault⟩]
  | .recv _ =>
    match s.rxReadOne with
    | some (_, r) => [.poll ⟨s.env.now, s.rxAvail, r⟩]
    | none => [.poll ⟨s.env.now, s.rxAvail, .ok 0⟩]
  | .check _ => []
  | .done => []

/-- The transport calls of the block's next step, in order, with their arguments (R122, R123). -/
def State.calls (s : State) : List Call :=
  match s.seq with
  | .idle => []
  | .send k =>
    match encode (frameInstr s.cmd k) with
    | .frame _ bytes => [.txWrite bytes]
    | .command _ => []
  | .recv _ =>
    if s.acc.length < s.need.count ∧ s.env.now < s.deadline then
      match s.rxAvail with
      | .fault _ => [.rxAvail]
      | .ok 0 => [.rxAvail]
      | .ok (_ + 1) => [.rxAvail, .rxReadOne]
    else []
  | .check _ => []
  | .done => []

end Sys2Proof.Machine
end

