-- ==== Sys2Proof/Machine/Step.lean ====
section
/-! DEFINITION. One step of the machine (45_sequencer.md R120): the agent that is next moves. -/

namespace Sys2Proof.Machine

/-- The block's enabled step: it executes the instruction it fetches. Where it has none it does nothing
(R130). -/
def blockStep (s : State) : Host.Outcome State Fault Refusal :=
  match fetch s with
  | some i => exec i s
  | none => .next s

/-- One step. The move at the head of the schedule happens; with no move left it is the block's turn
(log 1). -/
def step (s : State) : Host.Outcome State Fault Refusal :=
  match s.env.sched with
  | [] => blockStep s
  | .block :: moves => blockStep (s.withSched moves)
  | m :: moves => .next ((s.withSched moves).applyMove m)

/-- The host's opcode-table word, put where the block fetches its next instruction (log 16). A word
that is no instruction changes nothing. -/
def State.withFetchWord (s : State) (nbits w : Nat) : State :=
  match decodeTableWord nbits w with
  | some i => s.placeInstr i
  | none => s

end Sys2Proof.Machine
end

