-- ==== Sys2Proof/Safety.lean ====
section
/-! DEFINITION. The terms that claims are stated in: whose turn it is, a transport that keeps its
contract, the invariant of the machine, which registers are live, the run of a command with what it
calls and is answered, and the schedules of whole commands. -/

namespace Sys2Proof.Machine

/-- The block moves next: no move is left, or the next one is the block's (log 1). -/
def State.blockTurn (s : State) : Prop :=
  s.env.sched = [] ∨ ∃ moves, s.env.sched = .block :: moves

/-- The state in which the block takes its turn: its turn has come off the schedule. -/
def State.atTurn (s : State) : State := s.withSched s.env.sched.tail

/-- The encoded instruction the block holds for its next step: the tuple at the port, the request frame
of the trip (R128), the command in progress, or the reply in `ACC` as the kind the operation expects
(R58); `none` where the block has no step (R130). -/
def State.encodedAt (s : State) : Option Encoded :=
  match s.seq with
  | .idle => s.env.port.map .command
  | .send k =>
    if isRead s.cmd.op then some (.frame .rdReq (encRead (tripAddr s.cmd.addr k).toNat))
    else some (.frame .wrReq (encWrite (tripAddr s.cmd.addr k).toNat (tripVal s.cmd k).toNat))
  | .recv _ => some (.command s.cmd)
  | .check _ => some (.frame (if isRead s.cmd.op then .rdRsp else .wrAck) s.acc)
  | .done => none

/-- The command `c` is in progress in the phase and trip `q`. -/
def State.running (s : State) (c : HostCmd) (q : Seq) : Prop := s.seq = q ∧ s.cmd = c

/-- A transport that answers every call normally and keeps R165 (no byte reported that is not held). -/
def Env.wellBehaved (e : Env) : Prop :=
  e.txFault = none ∧ e.availFault = none ∧ e.readFault = none ∧ e.overcount = 0

/-- The trip of a phase, where it has one (R13). -/
def Seq.trip : Seq → Option Trip
  | .idle => none
  | .send k => some k
  | .recv k => some k
  | .check k => some k
  | .done => none

/-- The frames the block may send (R64): 8 bytes that begin `5A A5 05 82`, or 7 bytes that begin
`5A A5 04 83` and end `01`. -/
def LegalRequest (f : Bytes) : Prop :=
  (f.length = 8 ∧ f.take 4 = [0x5A, 0xA5, 0x05, 0x82]) ∨
    (f.length = 7 ∧ f.take 4 = [0x5A, 0xA5, 0x04, 0x83] ∧ f[6]? = some 0x01)

/-- The results an operation can end with (R18, R19). -/
def Result.possible (op : BitVec 2) : Result → Prop
  | .ok => isRead op = false
  | .okReg _ => isRead op = true ∧ isFloat op = false
  | .okFloat _ => isRead op = true ∧ isFloat op = true
  | .invalidResponse bytes => isRead op = true ∧ bytes.length ≤ 9 ∧ validate bytes = false
  | .transportError _ => True

/-- The invariant of the machine: what every step keeps. -/
structure Inv (s : State) : Prop where
  /-- Trip 1 is reached only by float operations (R134). -/
  secondTrip : s.seq.trip = some .one → isFloat s.cmd.op = true
  /-- `NEED` is the latched operation's while the reader runs and is checked (R14, R60). -/
  needed : ∀ k, s.seq = .recv k ∨ s.seq = .check k → s.need = needOf s.cmd.op
  /-- `len(ACC) <= NEED` (R14). -/
  bounded : ∀ k, s.seq = .recv k ∨ s.seq = .check k → s.acc.length ≤ s.need.count
  /-- A short return means that the deadline has come (R83). -/
  short : ∀ k, s.seq = .check k → s.acc.length < s.need.count → s.deadline ≤ s.env.now
  /-- In `DONE` the result registers encode a result the operation can end with (R18). -/
  ended : s.seq = .done → ∃ r : Result, r.possible s.cmd.op ∧ s.res = r.regs
  /-- `RES_STATUS = 3` is never produced (R17, U13). -/
  status : s.res.status ≠ 3
  /-- Every frame handed to the transport is one of R64. -/
  requests : ∀ call ∈ s.env.txlog, LegalRequest call.frame
  /-- The device register space keeps its canonical form. -/
  memory : s.env.dev.wf

/-- Two states that differ only in registers that R27 calls dead: `CMD_` outside a command, `ACC`,
`NEED` and `DEADLINE` outside `RECV` and `CHECK`, `HIWORD` outside trip 1 of a read, the result
registers outside `DONE`. -/
structure LiveEq (s t : State) : Prop where
  seq : s.seq = t.seq
  env : s.env = t.env
  cmd : s.busy = true → s.cmd = t.cmd
  reader : ∀ k, s.seq = .recv k ∨ s.seq = .check k →
    s.acc = t.acc ∧ s.need = t.need ∧ s.deadline = t.deadline
  hiword : s.seq.trip = some .one → isRead s.cmd.op = true → s.hiword = t.hiword
  res : s.seq = .done → s.res = t.res

/-- Two outcomes of the same kind: live-equal next states, or the same stop. -/
def SameOutcome : Outcome → Outcome → Prop
  | .next s, .next t => LiveEq s t
  | .fault a, .fault b => a = b
  | .refused a, .refused b => a = b
  | _, _ => False

/-- The changes of `SEQ` the block can make by its own steps: the rows of R134 other than RETIRE and
reset, with what each is conditional on, and the phases in which it does nothing (R130). -/
def SeqEdge (s t : State) : Prop :=
  match s.seq with
  | .idle => (s.env.port = none ∧ t.seq = .idle) ∨ (s.env.port ≠ none ∧ t.seq = .send .zero)
  | .send k =>
    match s.env.txFault with
    | none => t.seq = .recv k
    | some e => t.seq = .done ∧ t.res = (Result.transportError e.fault).regs
  | .recv k =>
    (t.seq = .recv k ∧ s.acc.length < s.need.count ∧ s.env.now < s.deadline ∧ s.env.availFault = none)
    ∨ (t.seq = .done ∧ s.acc.length < s.need.count ∧ s.env.now < s.deadline ∧
        ∃ f, (s.env.availFault = some f ∨ ∃ lost, s.env.readFault = some ⟨f, lost⟩) ∧
          t.res = (Result.transportError f).regs)
    ∨ (t.seq = .check k ∧ (s.need.count ≤ s.acc.length ∨ s.deadline ≤ s.env.now))
  | .check k =>
    if isRead s.cmd.op = true ∧ validate s.acc = false then
      t.seq = .done ∧ t.res = (Result.invalidResponse s.acc).regs
    else if lastTrip s.cmd.op k = true then t.seq = .done ∧ t.res.status = Config.statusOk
    else t.seq = .send .one
  | .done => t.seq = .done

/-! ## Runs -/

/-- `n` steps, up to the first stop: the host's `Core.run` of this machine (`run_core` in
Laws/Step.lean). -/
def runSteps : Nat → State → Outcome
  | 0, s => .next s
  | n + 1, s =>
    match step s with
    | .next t => runSteps n t
    | .fault r => .fault r
    | .refused r => .refused r

/-! ## The run of a command: what it calls, is answered and removes (R133, R135) -/

/-- What a run of a command shows: the transport calls the block made, the answers it was given, the
bytes it removed from the receive queue, each oldest first, and the state reached. -/
structure Trace where
  calls   : List Call
  answers : List EnvAnswer
  removed : Bytes
  state   : State
  deriving DecidableEq, Repr

/-- A run with one step of the block before it, from `s` to `t`. -/
def Trace.afterBlock (r : Trace) (s t : State) : Trace where
  calls   := s.calls ++ r.calls
  answers := s.answers ++ r.answers
  removed := s.env.rxq.take (s.env.rxq.length - t.env.rxq.length) ++ r.removed
  state   := r.state

/-- The machine's run of at most `n` steps, up to `DONE`. `none` where the machine stopped. -/
def traceRun : Nat → State → Option Trace
  | 0, s => some ⟨[], [], [], s⟩
  | n + 1, s =>
    if s.seq = .done then some ⟨[], [], [], s⟩
    else
      match step s with
      | .next t =>
        match s.env.sched with
        | [] => (traceRun n t).map (·.afterBlock s t)
        | .block :: _ => (traceRun n t).map (·.afterBlock s t)
        | _ :: _ => traceRun n t
      | .fault _ => none
      | .refused _ => none

/-- The frames among a list of calls, in order: what the run hands to `TxWrite` (R135). -/
def sentFrames (calls : List Call) : List Bytes :=
  calls.filterMap fun c =>
    match c with
    | .txWrite frame => some frame
    | .rxAvail => none
    | .rxReadOne => none

/-! ## Schedules -/

/-- A move that is not reset and after which the transport still answers every call normally and reports
no byte it does not hold. -/
def Move.quiet : Move → Bool
  | .block => true
  | .present _ => true
  | .retire => true
  | .reset => false
  | .device _ => true
  | .clock _ => true
  | .setDefault _ => true
  | .answerTx a => a.isNone
  | .answerAvail a => a.isNone
  | .answerRead a => a.isNone
  | .overreport n => n == 0
  | .drain _ => true
  | .serve => true
  | .poke _ _ => true

/-- A move that leaves the receive queue to the block and to the bytes of `device` moves: no other user
takes bytes from it (R173), and the device is one whose bytes the schedule spells out. -/
def Move.exclusive : Move → Bool
  | .block => true
  | .present _ => true
  | .retire => true
  | .reset => true
  | .device _ => true
  | .clock _ => true
  | .setDefault _ => true
  | .answerTx _ => true
  | .answerAvail _ => true
  | .answerRead _ => true
  | .overreport _ => true
  | .drain _ => false
  | .serve => false
  | .poke _ _ => true

/-- The bytes that arrive by a list of moves, oldest first. -/
def arrivals (moves : List Move) : Bytes :=
  moves.filterMap fun m =>
    match m with
    | .device b => some b
    | _ => none

/-- What a run from `s` removed is what was queued and what had arrived, in that order, but for what is
still queued (R25, R84). -/
def Trace.accountsFor (r : Trace) (s : State) : Prop :=
  ∃ past, s.env.sched = past ++ r.state.env.sched ∧
    s.env.rxq ++ arrivals past = r.removed ++ r.state.env.rxq

/-- One trip against a device of any kind: SEND; the bytes `bs` arrive; `n` polls; `T` ticks pass; the
poll that ends the run; CHECK. -/
def tripMoves (n : Nat) (T : Nat) (bs : Bytes) : List Move :=
  .block :: (bs.map .device ++ (List.replicate n .block ++ [.clock T, .block, .block]))

/-- The environment after a trip that sent `frame` and asked for `n` bytes under `tripMoves n T bs`:
the reader has taken what it could of what was queued and what arrived (R84). -/
def Env.afterTrip (e : Env) (frame : Bytes) (n : Nat) (T : Nat) (bs : Bytes) (rest : List Move) : Env :=
  { e with
    txlog := e.txlog ++ [⟨frame, frame.length⟩]
    rxq := (e.rxq ++ bs).drop n
    now := e.now + T
    sched := rest }

/-- One trip against the ideal device, whose reply is there at once: SEND, the device acts, `n` polls
that take the reply, the poll that ends the run, CHECK (D26). -/
def servedTrip (n : Nat) : List Move :=
  .block :: .serve :: (List.replicate n .block ++ [.block, .block])

/-- A host program of two commands: a float is written and read back at the same address, each result
taken (95_test_vectors.md P2), with the ideal device. -/
def floatRoundTrip (addr : Half) (w junk : Pattern) (tmoEn : Bool) (tmo : Nat) : List Move :=
  [.present (some ⟨Config.opWriteFloat, addr, w, tmoEn, tmo⟩), .block]
    ++ servedTrip 6 ++ servedTrip 6
    ++ [.retire, .present (some ⟨Config.opReadFloat, addr, junk, tmoEn, tmo⟩), .block]
    ++ servedTrip 9 ++ servedTrip 9 ++ [.retire]

/-- Three rounds in which the block gets a step, `T` ticks pass, and it gets two more. -/
def fairMoves (T : Nat) : List Move :=
  [.block, .clock T, .block, .block, .block, .clock T, .block, .block,
    .block, .clock T, .block, .block]

/-- Within the first `n` steps, whatever else the schedule does, it has the three rounds of `fairMoves`
with a time that is enough for the command `c`, whatever the default is configured to before them
(R132). The first of the steps is the ACCEPT. -/
def timeEnough (c : HostCmd) (tDefault : Nat) (moves : List Move) (n : Nat) : Prop :=
  ∃ (early late : List Move) (T : Nat), moves = early ++ (fairMoves T ++ late) ∧
    tmoEff c tDefault ≤ T ∧ (∀ d, .setDefault d ∈ early → tmoEff c d ≤ T) ∧
    1 + early.length + (fairMoves T).length ≤ n

/-- The state with something else presented at the command port. -/
def State.withPort (s : State) (port : Option HostCmd) : State :=
  { s with env := { s.env with port := port } }

end Sys2Proof.Machine
end

