-- ==== Sys2Proof/Certificates/Slice0/Obligations.lean ====
section
/-! DEFINITION. The statements for the provers, each a rule of the spec or a consequence of its rules
(OBLIGATIONS.json names which). -/

open Sys2Proof Sys2Proof.Machine

/-! ## Encoding -/

/-- R70, R71: `HI8(x) = (x >> 8) & 0xFF` and `LO8(x) = x & 0xFF` on every natural, so that bits above
bit 15 reach neither; with the corner cases the rules print. -/
def Obligations.HighAndLowByteOfANumber : Prop :=
  (∀ x : Nat, (hi8 x).toNat = (x >>> 8) &&& 0xFF ∧ (lo8 x).toNat = x &&& 0xFF ∧
    hi8 x = hi8 (x &&& 0xFFFF) ∧ lo8 x = lo8 (x &&& 0xFFFF)) ∧
  hi8 0 = 0x00 ∧ hi8 0xFF = 0x00 ∧ hi8 0x100 = 0x01 ∧ hi8 0xFFFF = 0xFF ∧ hi8 0x10000 = 0x00 ∧
  hi8 0x12345 = 0x23 ∧ hi8 0x07D0 = 0x07 ∧
  lo8 0 = 0x00 ∧ lo8 0xFF = 0xFF ∧ lo8 0x100 = 0x00 ∧ lo8 0x12345 = 0x45 ∧ lo8 0x07D0 = 0xD0

/-- R72, R73: the two request frames, byte for byte, on every natural: eight bytes and seven, constant
length bytes, inputs masked to 16 bits, nothing escaped. -/
def Obligations.RequestFramesByteForByte : Prop :=
  (∀ addr val : Nat,
    encWrite addr val = [0x5A, 0xA5, 0x05, 0x82, hi8 addr, lo8 addr, hi8 val, lo8 val] ∧
    (encWrite addr val).length = 8 ∧
    encWrite addr val = encWrite (addr &&& 0xFFFF) (val &&& 0xFFFF)) ∧
  (∀ addr : Nat,
    encRead addr = [0x5A, 0xA5, 0x04, 0x83, hi8 addr, lo8 addr, 0x01] ∧
    (encRead addr).length = 7 ∧
    encRead addr = encRead (addr &&& 0xFFFF)) ∧
  encWrite 0 0 = [0x5A, 0xA5, 0x05, 0x82, 0x00, 0x00, 0x00, 0x00] ∧
  encWrite 0xFFFF 0xFFFF = [0x5A, 0xA5, 0x05, 0x82, 0xFF, 0xFF, 0xFF, 0xFF] ∧
  encWrite 0x10000 0x12345 = [0x5A, 0xA5, 0x05, 0x82, 0x00, 0x00, 0x23, 0x45] ∧
  encWrite 0x5AA5 0x5AA5 = [0x5A, 0xA5, 0x05, 0x82, 0x5A, 0xA5, 0x5A, 0xA5] ∧
  encWrite 0x07D0 0x1234 = [0x5A, 0xA5, 0x05, 0x82, 0x07, 0xD0, 0x12, 0x34] ∧
  encRead 0 = [0x5A, 0xA5, 0x04, 0x83, 0x00, 0x00, 0x01] ∧
  encRead 0xFFFF = [0x5A, 0xA5, 0x04, 0x83, 0xFF, 0xFF, 0x01] ∧
  encRead 0x10000 = encRead 0 ∧
  encRead 0x07D0 = [0x5A, 0xA5, 0x04, 0x83, 0x07, 0xD0, 0x01]

/-- R74: the fields of a request frame, joined big-endian, are the address and the value; for inputs
above 0xFFFF they are the inputs modulo 65,536. -/
def Obligations.RequestFieldsRoundTrip : Prop :=
  ∀ addr val : Nat,
    (∃ f4 f5 f6 f7, (encWrite addr val).drop 4 = [f4, f5, f6, f7] ∧
      (f4.toNat <<< 8) ||| f5.toNat = addr % 65536 ∧ (f6.toNat <<< 8) ||| f7.toNat = val % 65536 ∧
      join16 f4 f5 = BitVec.ofNat 16 addr ∧ join16 f6 f7 = BitVec.ofNat 16 val) ∧
    (∃ g4 g5 g6, (encRead addr).drop 4 = [g4, g5, g6] ∧
      (g4.toNat <<< 8) ||| g5.toNat = addr % 65536 ∧ join16 g4 g5 = BitVec.ofNat 16 addr)

/-- Decoding the encoding of any well-formed instruction, every operand at every value its encoding
admits, gives the instruction back. -/
def Obligations.DecodeOfEncodeIsTheInstruction : Prop :=
  ∀ i : Instr, i.wf = true → decode (encode i) = .instr i

/-- What decodes is a well-formed instruction, and its encoding is what was decoded: no tuple and no
bytes decode to an instruction that is encoded otherwise. -/
def Obligations.EncodeOfDecodeIsTheInput : Prop :=
  ∀ (e : Encoded) (i : Instr), decode e = .instr i → i.wf = true ∧ encode i = e

/-- A sanity check of the decoder on words written out from R51 to R54, R60 and the source's scenarios
S1 and S2. That three bytes are an acknowledgement rests on R59 and R91, and that they are the
instruction `WR_ACK` on the model's choice (log 17). -/
def Obligations.SpecWordsDecode : Prop :=
  decode (.frame .wrReq [0x5A, 0xA5, 0x05, 0x82, 0x07, 0xD0, 0x12, 0x34])
    = .instr (.wrReq 0x07D0 0x1234) ∧
  decode (.frame .rdReq [0x5A, 0xA5, 0x04, 0x83, 0x07, 0xD0, 0x01]) = .instr (.rdReq 0x07D0) ∧
  decode (.frame .rdRsp [0x5A, 0xA5, 0x04, 0x83, 0x07, 0xD0, 0x01, 0x04, 0xD2])
    = .instr (.rdRsp 0x04 0x07 0xD0 0x01 0x04 0xD2) ∧
  decode (.frame .rdRsp [0x5A, 0xA5, 0x04, 0x82, 0x07, 0xD0, 0x01, 0x04, 0xD2])
    = .rejected .wrongCommand ∧
  decode (.frame .wrAck [0x00, 0x00, 0x00]) = .instr (.wrAck [0x00, 0x00, 0x00]) ∧
  decode (.command ⟨0b00, 0x07D0, 0x1234, false, 0⟩) = .instr (.writeReg 0x07D0 0x1234 false 0) ∧
  decode (.command ⟨0b01, 0x07D0, 0, true, 7⟩) = .instr (.readReg 0x07D0 0 true 7) ∧
  decode (.command ⟨0b10, 0x1000, 0x40490E56, false, 0⟩)
    = .instr (.writeFloat 0x1000 0x40490E56 false 0) ∧
  decode (.command ⟨0b11, 0x1000, 0, false, 0⟩) = .instr (.readFloat 0x1000 0 false 0)

/-- R95: the validator holds of exactly the sequences of nine bytes with `5A A5` first and `83` at
index 3; and these are the sequences that decode as a read response. -/
def Obligations.AcceptedResponsesAreExactlyThese : Prop :=
  ∀ s : Bytes,
    (validate s = true ↔ s.length = 9 ∧ s[0]? = some 0x5A ∧ s[1]? = some 0xA5 ∧ s[3]? = some 0x83) ∧
    (validate s = true ↔ ∃ len ah al cnt vh vl,
      decode (.frame .rdRsp s) = .instr (.rdRsp len ah al cnt vh vl) ∧ extract s = join16 vh vl)

/-- R97: the value of a nine-byte response is `(s[7] << 8) | s[8]`, unsigned, whatever the other seven
bytes are; with the corner cases the rule prints. -/
def Obligations.ResponseValueIsItsLastTwoBytes : Prop :=
  ∀ b0 b1 b2 b3 b4 b5 b6 b7 b8 : Byte,
    (extract [b0, b1, b2, b3, b4, b5, b6, b7, b8]).toNat = (b7.toNat <<< 8) ||| b8.toNat ∧
    extract [b0, b1, b2, b3, b4, b5, b6, 0x00, 0x00] = 0 ∧
    extract [b0, b1, b2, b3, b4, b5, b6, 0xFF, 0xFF] = 0xFFFF ∧
    extract [b0, b1, b2, b3, b4, b5, b6, 0x00, 0xFF] = 0x00FF ∧
    extract [b0, b1, b2, b3, b4, b5, b6, 0xFF, 0x00] = 0xFF00

/-- R96: the length byte, the echoed address and the count of a response change nothing. With any two
choices of them the response passes the validator, and the step of the read command that checks it,
`READ_REG` or either trip of `READ_FLOAT`, gives the same state but for the bytes of `ACC` themselves. -/
def Obligations.UncheckedResponseBytesDoNotMatter : Prop :=
  ∀ (s : State) (k : Trip) (len ah al cnt len' ah' al' cnt' vh vl : Byte),
    validate [0x5A, 0xA5, len, 0x83, ah, al, cnt, vh, vl] = true ∧
    extract [0x5A, 0xA5, len, 0x83, ah, al, cnt, vh, vl]
      = extract [0x5A, 0xA5, len', 0x83, ah', al', cnt', vh, vl] ∧
    (s.seq = .check k → isRead s.cmd.op = true →
      ∃ t : State, (t.seq = .done → t.res.status = Config.statusOk) ∧
        blockStep { s with acc := [0x5A, 0xA5, len, 0x83, ah, al, cnt, vh, vl] }
          = .next { t with acc := [0x5A, 0xA5, len, 0x83, ah, al, cnt, vh, vl] } ∧
        blockStep { s with acc := [0x5A, 0xA5, len', 0x83, ah', al', cnt', vh, vl] }
          = .next { t with acc := [0x5A, 0xA5, len', 0x83, ah', al', cnt', vh, vl] })

/-- R106, R107, R108: the split, also through the little-endian bytes the source speaks of; the join,
also byte by byte; that each undoes the other; with the cases the rules print. -/
def Obligations.FloatPatternSplitsAndJoins : Prop :=
  (∀ w : Pattern, (fsplit w).1.toNat = w.toNat >>> 16 ∧ (fsplit w).2.toNat = w.toNat &&& 0xFFFF) ∧
  (∀ b0 b1 b2 b3 : Byte, ∀ w : Pattern,
    w.toNat = b0.toNat + 256 * b1.toNat + 65536 * b2.toNat + 16777216 * b3.toNat →
      fsplit w = (join16 b3 b2, join16 b1 b0)) ∧
  (∀ h l : Half, (fjoin h l).toNat = (h.toNat <<< 16) ||| l.toNat ∧
    (fjoin h l).toNat = (lo8 l.toNat).toNat + 256 * (hi8 l.toNat).toNat + 65536 * (lo8 h.toNat).toNat
      + 16777216 * (hi8 h.toNat).toNat) ∧
  (∀ w : Pattern, fjoin (fsplit w).1 (fsplit w).2 = w) ∧
  (∀ h l : Half, fsplit (fjoin h l) = (h, l)) ∧
  fsplit 0x00000000 = (0x0000, 0x0000) ∧ fsplit 0xFFFFFFFF = (0xFFFF, 0xFFFF) ∧
  fsplit 0x0000FFFF = (0x0000, 0xFFFF) ∧ fsplit 0x12345678 = (0x1234, 0x5678) ∧
  fsplit 0xBF800000 = (0xBF80, 0x0000) ∧ fjoin 0x4049 0x0E56 = 0x40490E56

/-- R60: the four host codes, none illegal; bit 0 is 1 for the reads and bit 1 for the floats; the float
operations have two trips and the others one; each trip of a read sends a read request and asks for 9
bytes, each trip of a write a write request and 6. -/
def Obligations.HostCodesNameTheOperations : Prop :=
  (∀ (addr : Half) (wdata : Pattern) (tmoEn : Bool) (tmo : Nat),
    decodeCommand ⟨0, addr, wdata, tmoEn, tmo⟩ = .writeReg addr wdata tmoEn tmo ∧
    decodeCommand ⟨1, addr, wdata, tmoEn, tmo⟩ = .readReg addr wdata tmoEn tmo ∧
    decodeCommand ⟨2, addr, wdata, tmoEn, tmo⟩ = .writeFloat addr wdata tmoEn tmo ∧
    decodeCommand ⟨3, addr, wdata, tmoEn, tmo⟩ = .readFloat addr wdata tmoEn tmo) ∧
  (∀ op : BitVec 2, op = 0 ∨ op = 1 ∨ op = 2 ∨ op = 3) ∧
  (∀ op : BitVec 2, (op.getLsbD 0 = true ↔ op = 1 ∨ op = 3) ∧ (isRead op = true ↔ op = 1 ∨ op = 3) ∧
    (op.getLsbD 1 = true ↔ op = 2 ∨ op = 3) ∧ (isFloat op = true ↔ op = 2 ∨ op = 3) ∧
    (needOf op).count = (if op = 1 ∨ op = 3 then 9 else 6) ∧
    (lastTrip op .zero = true ↔ op = 0 ∨ op = 1) ∧ lastTrip op .one = true) ∧
  (∀ (c : HostCmd) (k : Trip),
    ((c.op = 0 ∨ c.op = 2) → ∃ addr val, frameInstr c k = .wrReq addr val ∧
      encode (frameInstr c k) = .frame .wrReq (encWrite addr.toNat val.toNat)) ∧
    ((c.op = 1 ∨ c.op = 3) → ∃ addr, frameInstr c k = .rdReq addr ∧
      encode (frameInstr c k) = .frame .rdReq (encRead addr.toNat)))

/-- R40: the second register of a float operation is at `(CMD_ADDR + 1) & 0xFFFF`, so that a float at
0xFFFF has its high word at 0xFFFF and its low word at 0, in a write and in a read alike. -/
def Obligations.SecondRegisterWrapsAtTheTop : Prop :=
  (∀ addr : Half, tripAddr addr .zero = addr ∧
    (tripAddr addr .one).toNat = (addr.toNat + 1) &&& 0xFFFF) ∧
  (∀ (w : Pattern) (tmoEn : Bool) (tmo : Nat),
    frameInstr ⟨2, 0xFFFF, w, tmoEn, tmo⟩ .zero = .wrReq 0xFFFF (fsplit w).1 ∧
    frameInstr ⟨2, 0xFFFF, w, tmoEn, tmo⟩ .one = .wrReq 0x0000 (fsplit w).2 ∧
    frameInstr ⟨3, 0xFFFF, w, tmoEn, tmo⟩ .zero = .rdReq 0xFFFF ∧
    frameInstr ⟨3, 0xFFFF, w, tmoEn, tmo⟩ .one = .rdReq 0x0000)

/-! ## State, ports, reset -/

/-- R16: each flag is 1 exactly in its phases; at reset they are 1, 0, 0. -/
def Obligations.FlagsFollowThePhase : Prop :=
  (∀ s : State,
    (s.cmdReady = true ↔ s.seq = .idle) ∧
    (s.busy = true ↔ ∃ k, s.seq = .send k ∨ s.seq = .recv k ∨ s.seq = .check k) ∧
    (s.rspValid = true ↔ s.seq = .done)) ∧
  State.reset.cmdReady = true ∧ State.reset.busy = false ∧ State.reset.rspValid = false

/-- R26: after reset the block is `IDLE`, and no result register the host could read holds a value. The
values of the other registers are the model's (log 2) and nothing is stated about them. -/
def Obligations.ResetLeavesTheBlockIdle : Prop :=
  State.reset.seq = .idle ∧ State.reset.resultPort = none ∧
  State.reset.res.rdata = none ∧ State.reset.res.diag = none ∧ State.reset.res.tfault = none

/-- R160, R161, R162: the reset move, from any phase: the block is `IDLE`, no result can be read and none
is written, and the environment is as it was, the receive queue and every frame sent included. That
`RES_RDATA`, `RES_DIAG` and `RES_TFAULT` then hold no value is R26 as the model reads it (log 5). -/
def Obligations.ResetAbandonsTheCommand : Prop :=
  ∀ (s : State) (moves : List Move), s.env.sched = .reset :: moves →
    ∃ t, step s = .next t ∧ t.seq = .idle ∧ t.resultPort = none ∧
      t.res.rdata = none ∧ t.res.diag = none ∧ t.res.tfault = none ∧
      t.env = { s.env with sched := moves }

/-- R18, R19: the four registers encode the result. For every result an operation can end with, the
registers hold values exactly where the row of R18 says so, and read back they give the result. -/
def Obligations.ResultRegistersEncodeTheResult : Prop :=
  (Result.ok.regs = ⟨0, none, none, none⟩) ∧
  (∀ v : Half, (Result.okReg v).regs.status = 0 ∧ (Result.okReg v).regs.diag = none ∧
    (Result.okReg v).regs.tfault = none ∧
    ∃ w, (Result.okReg v).regs.rdata = some w ∧ w.toNat = v.toNat) ∧
  (∀ w : Pattern, (Result.okFloat w).regs = ⟨0, some w, none, none⟩) ∧
  (∀ bytes : Bytes, (Result.invalidResponse bytes).regs = ⟨1, none, some bytes, none⟩ ∧
    (bytes.length ≤ 9 →
      ∃ n, (Result.invalidResponse bytes).regs.diagN = some n ∧ n.toNat = bytes.length)) ∧
  (∀ f : TFault, (Result.transportError f).regs = ⟨2, none, none, some f⟩) ∧
  (∀ (op : BitVec 2) (r : Result), r.possible op → ResultRegs.result op r.regs = some r)

/-- The invariant holds after reset. Three of its clauses rest, at this one state, on values the model
names: that `RES_STATUS` is not 3 on its value there (log 2), and those on the frames sent and on the
device register space on the environment's start values (log 3). -/
def Obligations.InvariantHoldsAtReset : Prop := Inv State.reset

/-! ## One step -/

/-- A step of the block runs the instruction it decodes. When it is the block's turn and what the block
holds for its next step decodes to `i`, the step is `exec i` with the turn taken off the schedule and
nothing else around it; where what it holds is rejected the step is that of the reply as it is (R125:
for a read the command itself, which raises); where it holds nothing, nothing happens. -/
def Obligations.StepRunsTheDecodedInstruction : Prop :=
  ∀ s : State, s.blockTurn →
    (∀ e i, s.encodedAt = some e → decode e = .instr i → step s = exec i s.atTurn) ∧
    (∀ e r, s.encodedAt = some e → decode e = .rejected r →
      step s = exec (if isRead s.cmd.op then decodeCommand s.cmd else .wrAck s.acc) s.atTurn) ∧
    (s.encodedAt = none → step s = .next s.atTurn)

/-- The model's own placement (log 16): an instruction placed where the block fetches is what the next
step runs, for every well-formed instruction and every state. -/
def Obligations.PlacedInstructionRunsNext : Prop :=
  ∀ (i : Instr) (s : State), i.wf = true →
    fetch (s.placeInstr i) = some i ∧ step (s.placeInstr i) = exec i (s.placeInstr i)

/-- R129: DEVICE appends one byte, CLOCK moves the time; each is a whole step that changes nothing else.
Every move that is not the block's, the host's RETIRE or reset leaves the block's registers alone,
makes no transport call and takes the host nothing. -/
def Obligations.EnvironmentMovesLeaveTheBlockAlone : Prop :=
  (∀ (s : State) (b : Byte) (moves : List Move), s.env.sched = .device b :: moves →
    step s = .next { s with env := { s.env with rxq := s.env.rxq ++ [b], sched := moves } }) ∧
  (∀ (s : State) (d : Nat) (moves : List Move), s.env.sched = .clock d :: moves →
    step s = .next { s with env := { s.env with now := s.env.now + d, sched := moves } }) ∧
  (∀ (s : State) (m : Move) (moves : List Move), s.env.sched = m :: moves →
    m ≠ .block → m ≠ .retire → m ≠ .reset →
    ∃ e : Env, step s = .next { s with env := e } ∧ e.txlog = s.env.txlog ∧ e.taken = s.env.taken ∧
      e.sched = moves)

/-- R23: time never decreases, whoever moves. -/
def Obligations.TimeNeverDecreases : Prop :=
  ∀ s t : State, step s = .next t → s.env.now ≤ t.env.now

/-- R130: the block does nothing while `IDLE` with no command presented, and nothing in `DONE`: the
result registers stay until the host takes them (R127). -/
def Obligations.BlockIsStillWhenNotBusy : Prop :=
  ∀ s : State, s.blockTurn → (s.seq = .idle ∧ s.env.port = none) ∨ s.seq = .done →
    step s = .next s.atTurn

/-- R121: ACCEPT. In `IDLE` each host operation is accepted: the five latches hold its tuple, the block
goes to `(SEND, 0)`, and no transport call is made. That the port is then empty is the model's
(log 7). -/
def Obligations.HostOperationIsAcceptedWhenIdle : Prop :=
  ∀ (s : State) (addr : Half) (wdata : Pattern) (tmoEn : Bool) (tmo : Nat), s.seq = .idle →
    exec (.writeReg addr wdata tmoEn tmo) s = .next { s with
      cmd := ⟨0, addr, wdata, tmoEn, tmo⟩, seq := .send .zero, env := { s.env with port := none } } ∧
    exec (.readReg addr wdata tmoEn tmo) s = .next { s with
      cmd := ⟨1, addr, wdata, tmoEn, tmo⟩, seq := .send .zero, env := { s.env with port := none } } ∧
    exec (.writeFloat addr wdata tmoEn tmo) s = .next { s with
      cmd := ⟨2, addr, wdata, tmoEn, tmo⟩, seq := .send .zero, env := { s.env with port := none } } ∧
    exec (.readFloat addr wdata tmoEn tmo) s = .next { s with
      cmd := ⟨3, addr, wdata, tmoEn, tmo⟩, seq := .send .zero, env := { s.env with port := none } }

/-- R121, V-SEQ-10: a command presented while another is in progress, or before the host has taken the
last result, waits at the port, unseen: whatever is presented, the block's step makes the same change,
and leaves the port and the latches as they are. As an instruction (the model's own reading, log 13, log
14) such a command changes nothing. -/
def Obligations.HostOperationWaitsItsTurn : Prop :=
  ∀ s : State, s.seq ≠ .idle →
    (s.blockTurn → ∀ port : Option HostCmd,
      (∀ t, step s = .next t → t.env.port = s.env.port ∧ t.cmd = s.cmd ∧
        step (s.withPort port) = .next (t.withPort port)) ∧
      (∀ f, step s = .fault f → step (s.withPort port) = .fault f) ∧
      (∀ r, step s = .refused r → step (s.withPort port) = .refused r)) ∧
    (∀ c : HostCmd, s.seq = .done ∨ s.cmd ≠ c → exec (decodeCommand c) s = .next s)

/-- R90, R122: the SEND of a `WRITE_REG` hands over `ENC_WRITE(addr, wdata[15:0])` whole, sets the
deadline from the time of the hand-over and the override or the default, and asks the reader for 6. -/
def Obligations.WriteRegHandsOverItsRequest : Prop :=
  ∀ (s : State) (addr : Half) (wdata : Pattern) (tmoEn : Bool) (tmo : Nat),
    s.running ⟨0, addr, wdata, tmoEn, tmo⟩ (.send .zero) → s.env.txFault = none →
    exec (.writeReg addr wdata tmoEn tmo) s = .next { s with
      seq := .recv .zero, acc := [], need := .six
      deadline := s.env.now + (if tmoEn then tmo else s.env.tDefault)
      env := { s.env with
        txlog := s.env.txlog ++ [⟨encWrite addr.toNat (wdata.toNat &&& 0xFFFF), 8⟩] } }

/-- R98, R122: the SEND of a `READ_REG` hands over `ENC_READ(addr)` whole and asks the reader for 9. -/
def Obligations.ReadRegHandsOverItsRequest : Prop :=
  ∀ (s : State) (addr : Half) (wdata : Pattern) (tmoEn : Bool) (tmo : Nat),
    s.running ⟨1, addr, wdata, tmoEn, tmo⟩ (.send .zero) → s.env.txFault = none →
    exec (.readReg addr wdata tmoEn tmo) s = .next { s with
      seq := .recv .zero, acc := [], need := .nine
      deadline := s.env.now + (if tmoEn then tmo else s.env.tDefault)
      env := { s.env with txlog := s.env.txlog ++ [⟨encRead addr.toNat, 7⟩] } }

/-- R109, R122: a `WRITE_FLOAT` sends the MSW at `addr` in trip 0 and the LSW at `(addr + 1) & 0xFFFF`
in trip 1, each trip with a deadline of its own. -/
def Obligations.WriteFloatHandsOverBothWords : Prop :=
  ∀ (s : State) (addr : Half) (w : Pattern) (tmoEn : Bool) (tmo : Nat), s.env.txFault = none →
    (s.running ⟨2, addr, w, tmoEn, tmo⟩ (.send .zero) →
      exec (.writeFloat addr w tmoEn tmo) s = .next { s with
        seq := .recv .zero, acc := [], need := .six
        deadline := s.env.now + (if tmoEn then tmo else s.env.tDefault)
        env := { s.env with
          txlog := s.env.txlog ++ [⟨encWrite addr.toNat (w.toNat >>> 16), 8⟩] } }) ∧
    (s.running ⟨2, addr, w, tmoEn, tmo⟩ (.send .one) →
      exec (.writeFloat addr w tmoEn tmo) s = .next { s with
        seq := .recv .one, acc := [], need := .six
        deadline := s.env.now + (if tmoEn then tmo else s.env.tDefault)
        env := { s.env with
          txlog := s.env.txlog ++
            [⟨encWrite ((addr.toNat + 1) &&& 0xFFFF) (w.toNat &&& 0xFFFF), 8⟩] } })

/-- R110, R122: a `READ_FLOAT` asks for `addr` in trip 0 and for `(addr + 1) & 0xFFFF` in trip 1. -/
def Obligations.ReadFloatHandsOverBothRequests : Prop :=
  ∀ (s : State) (addr : Half) (w : Pattern) (tmoEn : Bool) (tmo : Nat), s.env.txFault = none →
    (s.running ⟨3, addr, w, tmoEn, tmo⟩ (.send .zero) →
      exec (.readFloat addr w tmoEn tmo) s = .next { s with
        seq := .recv .zero, acc := [], need := .nine
        deadline := s.env.now + (if tmoEn then tmo else s.env.tDefault)
        env := { s.env with txlog := s.env.txlog ++ [⟨encRead addr.toNat, 7⟩] } }) ∧
    (s.running ⟨3, addr, w, tmoEn, tmo⟩ (.send .one) →
      exec (.readFloat addr w tmoEn tmo) s = .next { s with
        seq := .recv .one, acc := [], need := .nine
        deadline := s.env.now + (if tmoEn then tmo else s.env.tDefault)
        env := { s.env with
          txlog := s.env.txlog ++ [⟨encRead ((addr.toNat + 1) &&& 0xFFFF), 7⟩] } })

/-- R122: the request frames as instructions. In the SEND phase of a command of their direction, in
either trip, the frame is handed to the transport whole and the reader is started. SEND of R122 takes no
operand: that a request frame is an instruction, and hands itself over also where it is not the frame of
the trip (R128), is the model's choice (log 13); a step of the block only runs the trip's own frame. -/
def Obligations.RequestFrameIsHandedOver : Prop :=
  ∀ (s : State) (addr val : Half) (k : Trip), s.seq = .send k → s.env.txFault = none →
    (isRead s.cmd.op = false →
      exec (.wrReq addr val) s = .next { s with
        seq := .recv k, acc := [], need := .six
        deadline := s.env.now + (if s.cmd.tmoEn then s.cmd.tmo else s.env.tDefault)
        env := { s.env with txlog := s.env.txlog ++ [⟨encWrite addr.toNat val.toNat, 8⟩] } }) ∧
    (isRead s.cmd.op = true →
      exec (.rdReq addr) s = .next { s with
        seq := .recv k, acc := [], need := .nine
        deadline := s.env.now + (if s.cmd.tmoEn then s.cmd.tmo else s.env.tDefault)
        env := { s.env with txlog := s.env.txlog ++ [⟨encRead addr.toNat, 7⟩] } })

/-- R144 at SEND: a fault of `TxWrite` ends the command there: `RES_STATUS = 2`, the fault unchanged, no
other value, no deadline, no reader run; any part of the frame may be out (U11). For the command in
progress, whichever of the four it is; and for the two request frames as instructions, also those that
are not the frame of the trip (R128), which is the model's choice (log 13). -/
def Obligations.TransmitFaultEndsTheCommand : Prop :=
  ∀ (s : State) (k : Trip) (f : TFault) (n : Nat), s.seq = .send k → s.env.txFault = some ⟨f, n⟩ →
    (∃ frame, exec (decodeCommand s.cmd) s = .next { s with
      seq := .done, res := ⟨2, none, none, some f⟩
      env := { s.env with txlog := s.env.txlog ++ [⟨frame, n⟩] } } ∧
      encode (frameInstr s.cmd k)
        = .frame (if isRead s.cmd.op then .rdReq else .wrReq) frame) ∧
    (∀ addr val : Half, isRead s.cmd.op = false →
      exec (.wrReq addr val) s = .next { s with
        seq := .done, res := ⟨2, none, none, some f⟩
        env := { s.env with txlog := s.env.txlog ++ [⟨encWrite addr.toNat val.toNat, n⟩] } }) ∧
    (∀ addr : Half, isRead s.cmd.op = true →
      exec (.rdReq addr) s = .next { s with
        seq := .done, res := ⟨2, none, none, some f⟩
        env := { s.env with txlog := s.env.txlog ++ [⟨encRead addr.toNat, n⟩] } })

/-- R123: one POLL of the command in progress, whichever of the four operations it is, case by case: the
run ends when the count is reached or the time is at the deadline; else a fault of `RxAvail` ends the
command; else nothing available changes nothing; else a fault of `RxReadOne` ends the command; else
the oldest byte moves from the queue to `ACC`. -/
def Obligations.PollTakesAtMostOneByte : Prop :=
  ∀ (s : State) (k : Trip), s.seq = .recv k →
    (s.need.count ≤ s.acc.length ∨ s.deadline ≤ s.env.now →
      exec (decodeCommand s.cmd) s = .next { s with seq := .check k }) ∧
    (s.acc.length < s.need.count → s.env.now < s.deadline →
      (∀ f, s.env.availFault = some f →
        exec (decodeCommand s.cmd) s = .next { s with seq := .done, res := ⟨2, none, none, some f⟩ }) ∧
      (s.env.availFault = none → s.env.rxq = [] → s.env.overcount = 0 →
        exec (decodeCommand s.cmd) s = .next s) ∧
      (∀ f lost, s.env.availFault = none → s.env.rxq.length + s.env.overcount ≠ 0 →
        s.env.readFault = some ⟨f, lost⟩ →
        exec (decodeCommand s.cmd) s = .next { s with
          seq := .done, res := ⟨2, none, none, some f⟩
          env := { s.env with rxq := if lost then s.env.rxq.tail else s.env.rxq } }) ∧
      (∀ b rest, s.env.availFault = none → s.env.readFault = none → s.env.rxq = b :: rest →
        exec (decodeCommand s.cmd) s = .next { s with
          acc := s.acc ++ [b], env := { s.env with rxq := rest } }))

/-- R91, R124: at CHECK after a write request what was returned is not looked at. The write command ends
`OK` after the last trip, with the registers of R18, and starts trip 1 after trip 0 of a float. The
acknowledgement as an instruction does the same (log 13), whatever bytes it carries and however many
(log 17). -/
def Obligations.AcknowledgementIsDiscarded : Prop :=
  ∀ (s : State) (addr : Half) (wdata : Pattern) (tmoEn : Bool) (tmo : Nat) (bytes : Bytes),
    (s.running ⟨0, addr, wdata, tmoEn, tmo⟩ (.check .zero) →
      exec (.wrAck bytes) s = .next { s with seq := .done, res := ⟨0, none, none, none⟩ } ∧
      exec (.writeReg addr wdata tmoEn tmo) s
        = .next { s with seq := .done, res := ⟨0, none, none, none⟩ }) ∧
    (s.running ⟨2, addr, wdata, tmoEn, tmo⟩ (.check .zero) →
      exec (.wrAck bytes) s = .next { s with seq := .send .one } ∧
      exec (.writeFloat addr wdata tmoEn tmo) s = .next { s with seq := .send .one }) ∧
    (s.running ⟨2, addr, wdata, tmoEn, tmo⟩ (.check .one) →
      exec (.wrAck bytes) s = .next { s with seq := .done, res := ⟨0, none, none, none⟩ } ∧
      exec (.writeFloat addr wdata tmoEn tmo) s
        = .next { s with seq := .done, res := ⟨0, none, none, none⟩ })

/-- R125, a valid response: `READ_REG` ends with its value; trip 0 of a `READ_FLOAT` keeps it in
`HIWORD`; trip 1 ends with the two joined. Said of the response frame and of the command with that
response in `ACC`. -/
def Obligations.ValidResponseGivesItsValue : Prop :=
  ∀ (s : State) (addr : Half) (wdata : Pattern) (tmoEn : Bool) (tmo : Nat)
    (len ah al cnt vh vl : Byte), s.acc = [0x5A, 0xA5, len, 0x83, ah, al, cnt, vh, vl] →
    (s.running ⟨1, addr, wdata, tmoEn, tmo⟩ (.check .zero) →
      exec (.rdRsp len ah al cnt vh vl) s = .next { s with
        seq := .done, res := ⟨0, some ((join16 vh vl).setWidth 32), none, none⟩ } ∧
      exec (.readReg addr wdata tmoEn tmo) s = .next { s with
        seq := .done, res := ⟨0, some ((join16 vh vl).setWidth 32), none, none⟩ }) ∧
    (s.running ⟨3, addr, wdata, tmoEn, tmo⟩ (.check .zero) →
      exec (.rdRsp len ah al cnt vh vl) s = .next { s with
        seq := .send .one, hiword := join16 vh vl } ∧
      exec (.readFloat addr wdata tmoEn tmo) s = .next { s with
        seq := .send .one, hiword := join16 vh vl }) ∧
    (s.running ⟨3, addr, wdata, tmoEn, tmo⟩ (.check .one) →
      exec (.rdRsp len ah al cnt vh vl) s = .next { s with
        seq := .done, res := ⟨0, some (fjoin s.hiword (join16 vh vl)), none, none⟩ } ∧
      exec (.readFloat addr wdata tmoEn tmo) s = .next { s with
        seq := .done, res := ⟨0, some (fjoin s.hiword (join16 vh vl)), none, none⟩ })

/-- R143: at CHECK of a read trip a response that is not nine bytes with `5A A5` and `83` in their
places raises `InvalidResponse`: `RES_STATUS = 1`, all the bytes in `RES_DIAG`, no other value, and the
receive queue and everything else as it was. In either trip of a `READ_FLOAT`, and in `READ_REG`. -/
def Obligations.InvalidResponseIsRaised : Prop :=
  ∀ (s : State) (addr : Half) (wdata : Pattern) (tmoEn : Bool) (tmo : Nat) (k : Trip),
    ¬ (s.acc.length = 9 ∧ s.acc[0]? = some 0x5A ∧ s.acc[1]? = some 0xA5 ∧ s.acc[3]? = some 0x83) →
    (s.running ⟨1, addr, wdata, tmoEn, tmo⟩ (.check k) →
      exec (.readReg addr wdata tmoEn tmo) s
        = .next { s with seq := .done, res := ⟨1, none, some s.acc, none⟩ }) ∧
    (s.running ⟨3, addr, wdata, tmoEn, tmo⟩ (.check k) →
      exec (.readFloat addr wdata tmoEn tmo) s
        = .next { s with seq := .done, res := ⟨1, none, some s.acc, none⟩ })

/-- R127, R147: RETIRE in `DONE`, after a success and after an error alike: the host has the four
registers, the block is `IDLE`, and nothing else happens; outside `DONE` it is not enabled. -/
def Obligations.RetireReturnsToIdle : Prop :=
  ∀ (s : State) (moves : List Move), s.env.sched = .retire :: moves →
    (s.seq = .done → step s = .next { s with
      seq := .idle, env := { s.env with taken := s.env.taken ++ [s.res], sched := moves } }) ∧
    (s.seq ≠ .done → step s = .next { s with env := { s.env with sched := moves } })

/-- R130 and the model's own reading of it (log 14): a frame whose step is not enabled changes
nothing. -/
def Obligations.FrameOutsideItsStepDoesNothing : Prop :=
  ∀ s : State,
    ((∀ k, s.seq ≠ .send k) ∨ isRead s.cmd.op = true → ∀ addr val, exec (.wrReq addr val) s = .next s) ∧
    ((∀ k, s.seq ≠ .send k) ∨ isRead s.cmd.op = false → ∀ addr, exec (.rdReq addr) s = .next s) ∧
    ((∀ k, s.seq ≠ .check k) ∨ isRead s.cmd.op = true → ∀ bytes, exec (.wrAck bytes) s = .next s) ∧
    ((∀ k, s.seq ≠ .check k) ∨ isRead s.cmd.op = false →
      ∀ len ah al cnt vh vl, exec (.rdRsp len ah al cnt vh vl) s = .next s)

/-- The two descriptions of a step agree (R122 to R125): in every busy phase the step of the command in
progress is the step of the instruction the block fetches, the frame it sends or has received. -/
def Obligations.CommandStepIsItsFramesStep : Prop :=
  ∀ s : State, s.busy = true → exec (decodeCommand s.cmd) s = blockStep s

/-! ## The whole machine -/

/-- R134: every change of `SEQ` the block makes is a row of the table. -/
def Obligations.SequencerFollowsTheTable : Prop :=
  ∀ s t : State, s.blockTurn → step s = .next t → SeqEdge s t

/-- R11: the latches are written together, by ACCEPT alone, with the tuple of the command accepted; a
step of any other agent but reset leaves them as they are. -/
def Obligations.LatchesAreWrittenOnlyByAccept : Prop :=
  (∀ (i : Instr) (s t : State), exec i s = .next t → t.cmd ≠ s.cmd →
    s.seq = .idle ∧ t.seq = .send .zero ∧ encode i = .command t.cmd) ∧
  (∀ (s t : State), step s = .next t → t.cmd ≠ s.cmd →
    (∃ moves, s.env.sched = .reset :: moves) ∨
      (s.blockTurn ∧ s.seq = .idle ∧ s.env.port = some t.cmd))

/-- R14, R82, R122, R123: `NEED` and `DEADLINE` are written by SEND alone; `ACC` is emptied by SEND and
grows by POLL alone, by the byte that leaves the receive queue. -/
def Obligations.ReaderRegistersAreWrittenBySendAndPoll : Prop :=
  ∀ (i : Instr) (s t : State), exec i s = .next t →
    ((∃ k, s.seq = .send k ∧ t.seq = .recv k ∧ t.acc = [] ∧ t.need = needOf s.cmd.op ∧
        t.deadline = s.env.now + tmoEff s.cmd s.env.tDefault) ∨
      (t.need = s.need ∧ t.deadline = s.deadline ∧
        (t.acc = s.acc ∨ ∃ k b, s.seq = .recv k ∧ t.seq = .recv k ∧ t.acc = s.acc ++ [b] ∧
          s.env.rxq = b :: t.env.rxq)))

/-- R15: `HIWORD` is written only at CHECK of trip 0 of a `READ_FLOAT`. -/
def Obligations.HighWordIsWrittenByTheFirstReadTrip : Prop :=
  ∀ (i : Instr) (s t : State), exec i s = .next t → t.hiword ≠ s.hiword →
    s.seq = .check .zero ∧ s.cmd.op = 3 ∧ t.seq = .send .one

/-- R17, R127: the result registers are written only by a step that ends a command, so they are stable
from FINISH to RETIRE; only reset also changes them. -/
def Obligations.ResultRegistersAreWrittenAtTheEnd : Prop :=
  (∀ (i : Instr) (s t : State), exec i s = .next t → t.res ≠ s.res →
    s.busy = true ∧ t.seq = .done ∧ ∃ r : Result, t.res = r.regs) ∧
  (∀ s t : State, step s = .next t → t.res ≠ s.res →
    (∃ moves, s.env.sched = .reset :: moves) ∨ (s.blockTurn ∧ s.busy = true ∧ t.seq = .done))

/-- R32, R33, R130: the transmit stream grows by one whole request, and only in SEND; the receive stream
loses at most its head, and only in POLL. -/
def Obligations.StreamsAreTouchedOnlyBySendAndPoll : Prop :=
  ∀ (i : Instr) (s t : State), exec i s = .next t →
    (t.env.txlog = s.env.txlog ∨ ∃ k call, s.seq = .send k ∧ t.env.txlog = s.env.txlog ++ [call] ∧
      LegalRequest call.frame) ∧
    (t.env.rxq = s.env.rxq ∨ ∃ k, s.seq = .recv k ∧ t.env.rxq = s.env.rxq.tail)

/-- The frame of every instruction: no instruction stores to the device register space (R31), every
register of it reads as before; time, the default timeout, the transport's answers, what the host has
taken and the schedule are as before (R162 aside, nothing of the block reaches them); the port
changes only at ACCEPT. -/
def Obligations.InstructionsLeaveTheEnvironmentAlone : Prop :=
  ∀ (i : Instr) (s t : State), exec i s = .next t →
    (∀ a : Nat, t.env.dev.read a = s.env.dev.read a) ∧ t.env.dev = s.env.dev ∧
    t.env.now = s.env.now ∧ t.env.tDefault = s.env.tDefault ∧ t.env.txFault = s.env.txFault ∧
    t.env.availFault = s.env.availFault ∧ t.env.readFault = s.env.readFault ∧
    t.env.overcount = s.env.overcount ∧ t.env.served = s.env.served ∧
    t.env.taken = s.env.taken ∧ t.env.sched = s.env.sched ∧
    (t.env.port = s.env.port ∨ (s.seq = .idle ∧ t.env.port = none))

/-- R82: no byte is removed from the receive queue by the block at an instant at or after the deadline,
nor outside a reader's run, nor more than one at a time. -/
def Obligations.NoByteIsRemovedAtOrAfterTheDeadline : Prop :=
  ∀ s t : State, s.blockTurn → step s = .next t → t.env.rxq ≠ s.env.rxq →
    (∃ k, s.seq = .recv k) ∧ s.env.now < s.deadline ∧ s.acc.length < s.need.count ∧
      ∃ b, s.env.rxq = b :: t.env.rxq

/-- R92: no step ends a `WRITE_REG` or a `WRITE_FLOAT` with `INVALID_RESPONSE`. -/
def Obligations.WritesNeverEndInvalid : Prop :=
  ∀ s t : State, step s = .next t → s.busy = true → t.seq = .done → isRead s.cmd.op = false →
    t.res.status = Config.statusOk ∨ ∃ f, t.res = (Result.transportError f).regs

/-- D13, U5: the machine stops in one situation only: a poll that is due, a transport that reports bytes
it does not hold, and no fault answered. In every other state the step answers a next state. -/
def Obligations.StopsOnlyAtABrokenTransport : Prop :=
  ∀ s : State,
    (step s = .fault .readOneUnavailable ∧ s.blockTurn ∧ (∃ k, s.seq = .recv k) ∧
      s.acc.length < s.need.count ∧ s.env.now < s.deadline ∧ s.env.availFault = none ∧
      s.env.readFault = none ∧ s.env.rxq = [] ∧ s.env.overcount ≠ 0) ∨
    ((∃ t, step s = .next t) ∧
      ¬ (s.blockTurn ∧ (∃ k, s.seq = .recv k) ∧ s.acc.length < s.need.count ∧
        s.env.now < s.deadline ∧ s.env.availFault = none ∧ s.env.readFault = none ∧
        s.env.rxq = [] ∧ s.env.overcount ≠ 0))

/-- Every step, of every agent, keeps the invariant. -/
def Obligations.EveryStepKeepsTheInvariant : Prop :=
  ∀ s t : State, Inv s → step s = .next t → Inv t

/-- R27: nothing carries over. Two states that differ only in dead registers take the same steps, for
any number of them and whatever the agents do, and stay so. -/
def Obligations.DeadRegistersAreNeverObserved : Prop :=
  ∀ (n : Nat) (s t : State), LiveEq s t → SameOutcome (runSteps n s) (runSteps n t)

/-- R133: for every command and every behaviour of the environment short of reset, and at every point of
the run: the transport calls the steps have made so far, with their arguments and in their order, are
those the operation's function makes on the same answers. When the run has reached `DONE` the function
has ended, and the result written is the one it ended with; before that it has not ended, unless only
the CHECK is still to come. -/
def Obligations.StepsAgreeWithTheFunctions : Prop :=
  ∀ (n : Nat) (s : State) (r : Trace),
    s.seq = .send .zero → Move.reset ∉ s.env.sched → traceRun n s = some r →
    (commandFn s.cmd r.answers).calls = r.calls ∧
    (commandFn s.cmd r.answers).rest = [] ∧
    (r.state.seq = .done → ∃ result : Result,
      (commandFn s.cmd r.answers).ended.result = some result ∧ r.state.res = result.regs) ∧
    ((commandFn s.cmd r.answers).ended.result = none ∨ r.state.seq = .done ∨
      ∃ k, r.state.seq = .check k) ∧
    r.state.env.txlog.map TxCall.frame = s.env.txlog.map TxCall.frame ++ sentFrames r.calls

/-- R85: a timeout of zero, in either trip of any command: however much time passes before the first poll,
that poll ends the run, no byte is removed, and no answer of `RxAvail` or `RxReadOne` matters; a read
ends with the empty sequence as its diagnostic, a write goes on as ever. -/
def Obligations.ZeroTimeoutRemovesNothing : Prop :=
  ∀ (s : State) (k : Trip) (d : Nat) (moves : List Move),
    s.seq = .send k → s.env.txFault = none → tmoEff s.cmd s.env.tDefault = 0 →
    s.env.sched = [.block, .clock d, .block, .block] ++ moves →
    ∃ t : State, runSteps 4 s = .next t ∧ t.env.rxq = s.env.rxq ∧ t.acc = [] ∧ t.cmd = s.cmd ∧
      (isRead s.cmd.op = true → t.seq = .done ∧ t.res = ⟨1, none, some [], none⟩) ∧
      (isRead s.cmd.op = false → lastTrip s.cmd.op k = true →
        t.seq = .done ∧ t.res = ⟨0, none, none, none⟩) ∧
      (isRead s.cmd.op = false → lastTrip s.cmd.op k = false → t.seq = .send .one)

/-- R91: a `WRITE_REG` from its acceptance to its end, on the schedule `tripMoves 6`: what arrives arrives
between SEND and the first poll, six polls are taken before time moves, and then the timeout passes.
Whatever is in the receive queue and whatever arrives, it has ended `OK`, has sent its one frame, and
has removed the first six bytes or as many as there were. The port ends empty by the model's choice (log
7). Every other schedule is in `WritesEndOkOnEverySchedule`. -/
def Obligations.WriteRegEndsOkWhateverComesBack : Prop :=
  ∀ (s : State) (addr : Half) (wdata : Pattern) (tmoEn : Bool) (tmo T : Nat) (bs : Bytes)
    (moves : List Move),
    s.seq = .idle → s.env.port = some ⟨0, addr, wdata, tmoEn, tmo⟩ → s.env.wellBehaved →
    0 < (if tmoEn then tmo else s.env.tDefault) → (if tmoEn then tmo else s.env.tDefault) ≤ T →
    s.env.sched = .block :: (tripMoves 6 T bs ++ moves) →
    ∃ t : State, runSteps (1 + (tripMoves 6 T bs).length) s = .next t ∧ t.seq = .done ∧
      t.res = ⟨0, none, none, none⟩ ∧
      t.env = { s.env with port := none }.afterTrip
        (encWrite addr.toNat (wdata.toNat &&& 0xFFFF)) 6 T bs moves

/-- R99: a `READ_REG` from its acceptance to its end, on the schedule `tripMoves 9`: what arrives arrives
between SEND and the first poll, nine polls are taken before time moves (R86), and then the timeout
passes. The first nine bytes queued or arriving are the response, whoever they were meant for (R167):
valid, the command ends with their value; not valid or too few, with `InvalidResponse` and the bytes.
The port ends empty by the model's choice (log 7). Every other schedule is in
`ReadsEndWithTheBytesRemovedOnEverySchedule`. -/
def Obligations.ReadRegEndsWithTheValueOrTheBytes : Prop :=
  ∀ (s : State) (addr : Half) (wdata : Pattern) (tmoEn : Bool) (tmo T : Nat) (bs : Bytes)
    (moves : List Move),
    s.seq = .idle → s.env.port = some ⟨1, addr, wdata, tmoEn, tmo⟩ → s.env.wellBehaved →
    0 < (if tmoEn then tmo else s.env.tDefault) → (if tmoEn then tmo else s.env.tDefault) ≤ T →
    s.env.sched = .block :: (tripMoves 9 T bs ++ moves) →
    ∃ t : State, runSteps (1 + (tripMoves 9 T bs).length) s = .next t ∧ t.seq = .done ∧
      t.res = (if validate ((s.env.rxq ++ bs).take 9) = true
        then ⟨0, some ((extract ((s.env.rxq ++ bs).take 9)).setWidth 32), none, none⟩
        else ⟨1, none, some ((s.env.rxq ++ bs).take 9), none⟩) ∧
      t.env = { s.env with port := none }.afterTrip (encRead addr.toNat) 9 T bs moves

/-- R109: a `WRITE_FLOAT` from its acceptance to its end, on the schedule `tripMoves 6` in each trip: two
frames, MSW first, the second after the first trip is over, each trip with a timeout of its own, and
`OK` whatever came back. The port ends empty by the model's choice (log 7). Every other schedule is in
`WritesEndOkOnEverySchedule`. -/
def Obligations.WriteFloatSendsBothWordsAndEndsOk : Prop :=
  ∀ (s : State) (addr : Half) (w : Pattern) (tmoEn : Bool) (tmo T : Nat) (bs bs' : Bytes)
    (moves : List Move),
    s.seq = .idle → s.env.port = some ⟨2, addr, w, tmoEn, tmo⟩ → s.env.wellBehaved →
    0 < (if tmoEn then tmo else s.env.tDefault) → (if tmoEn then tmo else s.env.tDefault) ≤ T →
    s.env.sched = .block :: (tripMoves 6 T bs ++ (tripMoves 6 T bs' ++ moves)) →
    ∃ t : State, runSteps (1 + (tripMoves 6 T bs).length + (tripMoves 6 T bs').length) s = .next t ∧
      t.seq = .done ∧ t.res = ⟨0, none, none, none⟩ ∧
      t.env = ({ s.env with port := none }.afterTrip
        (encWrite addr.toNat (w.toNat >>> 16)) 6 T bs (tripMoves 6 T bs' ++ moves)).afterTrip
        (encWrite ((addr.toNat + 1) &&& 0xFFFF) (w.toNat &&& 0xFFFF)) 6 T bs' moves

/-- R110, R111: a `READ_FLOAT` from its acceptance to its end, on the schedule `tripMoves 9` in each trip.
A response that fails in trip 0 ends it there with that response, and the second request is not sent;
else trip 1's response decides, and when it is valid too the two values are joined, whether or not they
belonged together (R112). The port ends empty by the model's choice (log 7). Every other schedule is in
`ReadsEndWithTheBytesRemovedOnEverySchedule`. -/
def Obligations.ReadFloatJoinsBothWordsOrStops : Prop :=
  ∀ (s : State) (addr : Half) (w : Pattern) (tmoEn : Bool) (tmo T : Nat) (bs bs' : Bytes)
    (moves : List Move),
    s.seq = .idle → s.env.port = some ⟨3, addr, w, tmoEn, tmo⟩ → s.env.wellBehaved →
    0 < (if tmoEn then tmo else s.env.tDefault) → (if tmoEn then tmo else s.env.tDefault) ≤ T →
    s.env.sched = .block :: (tripMoves 9 T bs ++ (tripMoves 9 T bs' ++ moves)) →
    (validate ((s.env.rxq ++ bs).take 9) = false →
      ∃ t : State, runSteps (1 + (tripMoves 9 T bs).length) s = .next t ∧ t.seq = .done ∧
        t.res = ⟨1, none, some ((s.env.rxq ++ bs).take 9), none⟩ ∧
        t.env = { s.env with port := none }.afterTrip
          (encRead addr.toNat) 9 T bs (tripMoves 9 T bs' ++ moves)) ∧
    (validate ((s.env.rxq ++ bs).take 9) = true →
      ∃ t : State, runSteps (1 + (tripMoves 9 T bs).length + (tripMoves 9 T bs').length) s = .next t ∧
        t.seq = .done ∧
        t.res = (if validate (((s.env.rxq ++ bs).drop 9 ++ bs').take 9) = true
          then ⟨0, some (fjoin (extract ((s.env.rxq ++ bs).take 9))
            (extract (((s.env.rxq ++ bs).drop 9 ++ bs').take 9))), none, none⟩
          else ⟨1, none, some (((s.env.rxq ++ bs).drop 9 ++ bs').take 9), none⟩) ∧
        t.env = ({ s.env with port := none }.afterTrip
          (encRead addr.toNat) 9 T bs (tripMoves 9 T bs' ++ moves)).afterTrip
          (encRead ((addr.toNat + 1) &&& 0xFFFF)) 9 T bs' moves)

/-- R113: with the ideal device (log 18; a premise, not the block), nothing stale in the queue, every
earlier request acted on, and time enough, a float written and read back at any address is the float
written, for every pattern. -/
def Obligations.FloatRoundTripOnTheIdealDevice : Prop :=
  ∀ (s : State) (addr : Half) (w junk : Pattern) (tmoEn : Bool) (tmo : Nat) (moves : List Move),
    s.seq = .idle → s.env.wellBehaved → s.env.rxq = [] → s.env.served = s.env.txlog.length →
    s.env.dev.wf → 0 < (if tmoEn then tmo else s.env.tDefault) →
    s.env.sched = floatRoundTrip addr w junk tmoEn tmo ++ moves →
    ∃ t : State, runSteps (floatRoundTrip addr w junk tmoEn tmo).length s = .next t ∧ t.seq = .idle ∧
      t.env.taken = s.env.taken ++ [Result.ok.regs, (Result.okFloat w).regs] ∧
      t.env.rxq = [] ∧ t.env.sched = moves ∧
      t.env.dev.read addr.toNat = (fsplit w).1 ∧
      t.env.dev.read ((addr.toNat + 1) &&& 0xFFFF) = (fsplit w).2

/-- R132: progress. Whatever the device did, once the block gets its steps and time passes by the
timeout and past the deadline of a running reader in each of three rounds, a command in any busy phase has ended;
a transport that reports only bytes it holds may fault as it likes. -/
def Obligations.EveryCommandEndsWhenTimePasses : Prop :=
  ∀ (s : State) (T : Nat) (moves : List Move), s.busy = true → s.env.overcount = 0 →
    tmoEff s.cmd s.env.tDefault ≤ T → (∀ k, s.seq = .recv k → s.deadline ≤ s.env.now + T) →
    s.env.sched = fairMoves T ++ moves →
    ∃ t : State, runSteps (fairMoves T).length s = .next t ∧ t.seq = .done

/-- The device register space: a stored register reads back, every other reads as before, and two
canonical spaces that read the same are the same list (log 18). -/
def Obligations.StoredRegisterReadsBack : Prop :=
  (∀ (m : Memory) (a b : Nat) (v : Half), m.wf →
    (m.write a v).read b = if b = a then v else m.read b) ∧
  (∀ m m' : Memory, m.wf → m'.wf → (∀ a, m.read a = m'.read a) → m = m')

/-! ## Whole commands on every schedule -/

/-- R91, R92, R90, R109: a `WRITE_REG` or a `WRITE_FLOAT`, from its presentation on, on every schedule
without reset over a transport that answers normally: whatever arrives and when, however slow the polls,
whatever the host presents meanwhile and whoever else uses the transport. The machine does not stop; the
frames sent so far are the first of the command's; in each trip at most six bytes are removed. When it
has ended, it has ended `OK` with no value, all its frames are sent, and the last trip's reader returned
`ACC`, the last bytes removed: six of them, or fewer because its deadline has come. With time enough it
has ended. Where the receive queue is the block's alone, what it removed came from its head. -/
def Obligations.WritesEndOkOnEverySchedule : Prop :=
  ∀ (s : State) (c : HostCmd) (frames : List TxCall) (moves : List Move) (n : Nat),
    (c.op = 0 ∧ frames = [⟨encWrite c.addr.toNat (c.wdata.toNat &&& 0xFFFF), 8⟩] ∨
      c.op = 2 ∧ frames = [⟨encWrite c.addr.toNat (c.wdata.toNat >>> 16), 8⟩,
        ⟨encWrite ((c.addr.toNat + 1) &&& 0xFFFF) (c.wdata.toNat &&& 0xFFFF), 8⟩]) →
    s.seq = .idle → s.env.port = some c → s.env.wellBehaved → s.env.sched = .block :: moves →
    (∀ m ∈ moves, m.quiet = true) →
    ∃ r : Trace, traceRun n s = some r ∧
      r.removed.length ≤ 6 * frames.length ∧
      (∃ sent, r.state.env.txlog = s.env.txlog ++ frames.take sent) ∧
      (r.state.seq = .done →
        r.state.res = ⟨0, none, none, none⟩ ∧ r.state.env.txlog = s.env.txlog ++ frames ∧
        ∃ first, r.removed = first ++ r.state.acc ∧ first.length ≤ 6 * (frames.length - 1) ∧
          r.state.acc.length ≤ 6 ∧
          (r.state.acc.length = 6 ∨ r.state.deadline ≤ r.state.env.now)) ∧
      (timeEnough c s.env.tDefault moves n → r.state.seq = .done) ∧
      ((∀ m ∈ moves, m.exclusive = true) → r.accountsFor s)

/-- R98, R99, R110, R111, R86: a `READ_REG` or a `READ_FLOAT`, from its presentation on, on every schedule
without reset over a transport that answers normally. The machine does not stop; the requests sent so
far are the first of the command's. When a `READ_REG` has ended, the bytes it removed are the response,
nine of them or fewer because its deadline has come: valid, it has ended with their value, not valid,
with `InvalidResponse` and those bytes. A `READ_FLOAT` has ended there likewise when the first response
is not valid, the second request not sent; else the bytes removed after the first nine are the second
response and decide. With time enough the command has ended. Where the receive queue is the block's
alone, what it removed came from its head. -/
def Obligations.ReadsEndWithTheBytesRemovedOnEverySchedule : Prop :=
  ∀ (s : State) (c : HostCmd) (moves : List Move) (n : Nat),
    s.seq = .idle → s.env.port = some c → s.env.wellBehaved → s.env.sched = .block :: moves →
    (∀ m ∈ moves, m.quiet = true) → isRead c.op = true →
    ∃ r : Trace, traceRun n s = some r ∧
      (c.op = 1 →
        r.removed.length ≤ 9 ∧
        (∃ sent, r.state.env.txlog = s.env.txlog ++ [⟨encRead c.addr.toNat, 7⟩].take sent) ∧
        (r.state.seq = .done →
          r.state.env.txlog = s.env.txlog ++ [⟨encRead c.addr.toNat, 7⟩] ∧
          (r.removed.length = 9 ∨ r.state.deadline ≤ r.state.env.now) ∧
          r.state.res = (if validate r.removed = true
            then ⟨0, some ((extract r.removed).setWidth 32), none, none⟩
            else ⟨1, none, some r.removed, none⟩))) ∧
      (c.op = 3 →
        r.removed.length ≤ 18 ∧
        (∃ sent, r.state.env.txlog = s.env.txlog ++
          [⟨encRead c.addr.toNat, 7⟩, ⟨encRead ((c.addr.toNat + 1) &&& 0xFFFF), 7⟩].take sent) ∧
        (r.state.seq = .done → validate (r.removed.take 9) = false →
          r.state.env.txlog = s.env.txlog ++ [⟨encRead c.addr.toNat, 7⟩] ∧
          r.removed.length ≤ 9 ∧
          (r.removed.length = 9 ∨ r.state.deadline ≤ r.state.env.now) ∧
          r.state.res = ⟨1, none, some r.removed, none⟩) ∧
        (r.state.seq = .done → validate (r.removed.take 9) = true →
          r.state.env.txlog = s.env.txlog ++
            [⟨encRead c.addr.toNat, 7⟩, ⟨encRead ((c.addr.toNat + 1) &&& 0xFFFF), 7⟩] ∧
          (r.removed.length = 18 ∨ r.state.deadline ≤ r.state.env.now) ∧
          r.state.res = (if validate (r.removed.drop 9) = true
            then ⟨0, some (fjoin (extract (r.removed.take 9)) (extract (r.removed.drop 9))), none, none⟩
            else ⟨1, none, some (r.removed.drop 9), none⟩))) ∧
      (timeEnough c s.env.tDefault moves n → r.state.seq = .done) ∧
      ((∀ m ∈ moves, m.exclusive = true) → r.accountsFor s)
end

