-- ==== Sys2Proof/Laws/State.lean ====
section
/-! SUPPORT. One lemma for each field of State under each named update, so that no later proof unfolds a
record update. -/

namespace Sys2Proof.Machine

section withSched
variable (s : State) (ms : List Move)
@[simp] theorem withSched_seq : (s.withSched ms).seq = s.seq := rfl
@[simp] theorem withSched_cmd : (s.withSched ms).cmd = s.cmd := rfl
@[simp] theorem withSched_acc : (s.withSched ms).acc = s.acc := rfl
@[simp] theorem withSched_need : (s.withSched ms).need = s.need := rfl
@[simp] theorem withSched_deadline : (s.withSched ms).deadline = s.deadline := rfl
@[simp] theorem withSched_hiword : (s.withSched ms).hiword = s.hiword := rfl
@[simp] theorem withSched_res : (s.withSched ms).res = s.res := rfl
@[simp] theorem withSched_env : (s.withSched ms).env = { s.env with sched := ms } := rfl
end withSched

section atTurn
variable (s : State)
@[simp] theorem atTurn_seq : s.atTurn.seq = s.seq := rfl
@[simp] theorem atTurn_cmd : s.atTurn.cmd = s.cmd := rfl
@[simp] theorem atTurn_acc : s.atTurn.acc = s.acc := rfl
@[simp] theorem atTurn_need : s.atTurn.need = s.need := rfl
@[simp] theorem atTurn_deadline : s.atTurn.deadline = s.deadline := rfl
@[simp] theorem atTurn_hiword : s.atTurn.hiword = s.hiword := rfl
@[simp] theorem atTurn_res : s.atTurn.res = s.res := rfl
@[simp] theorem atTurn_env : s.atTurn.env = { s.env with sched := s.env.sched.tail } := rfl
end atTurn

section withPort
variable (s : State) (p : Option HostCmd)
@[simp] theorem withPort_seq : (s.withPort p).seq = s.seq := rfl
@[simp] theorem withPort_cmd : (s.withPort p).cmd = s.cmd := rfl
@[simp] theorem withPort_acc : (s.withPort p).acc = s.acc := rfl
@[simp] theorem withPort_need : (s.withPort p).need = s.need := rfl
@[simp] theorem withPort_deadline : (s.withPort p).deadline = s.deadline := rfl
@[simp] theorem withPort_hiword : (s.withPort p).hiword = s.hiword := rfl
@[simp] theorem withPort_res : (s.withPort p).res = s.res := rfl
@[simp] theorem withPort_env : (s.withPort p).env = { s.env with port := p } := rfl
end withPort

section finish
variable (r : Result) (s : State)
@[simp] theorem finish_seq : (s.finish r).seq = .done := rfl
@[simp] theorem finish_cmd : (s.finish r).cmd = s.cmd := rfl
@[simp] theorem finish_acc : (s.finish r).acc = s.acc := rfl
@[simp] theorem finish_need : (s.finish r).need = s.need := rfl
@[simp] theorem finish_deadline : (s.finish r).deadline = s.deadline := rfl
@[simp] theorem finish_hiword : (s.finish r).hiword = s.hiword := rfl
@[simp] theorem finish_res : (s.finish r).res = r.regs := rfl
@[simp] theorem finish_env : (s.finish r).env = s.env := rfl
end finish

/-- The two errors are FINISH with their result (R143, R144). -/
@[simp] theorem raiseInvalidResponse_eq (bytes : Bytes) (s : State) :
    s.raiseInvalidResponse bytes = s.finish (.invalidResponse bytes) := rfl
@[simp] theorem raiseTransportError_eq (f : TFault) (s : State) :
    s.raiseTransportError f = s.finish (.transportError f) := rfl

section accept
variable (c : HostCmd) (s : State)
@[simp] theorem accept_seq : (s.accept c).seq = .send .zero := rfl
@[simp] theorem accept_cmd : (s.accept c).cmd = c := rfl
@[simp] theorem accept_acc : (s.accept c).acc = s.acc := rfl
@[simp] theorem accept_need : (s.accept c).need = s.need := rfl
@[simp] theorem accept_deadline : (s.accept c).deadline = s.deadline := rfl
@[simp] theorem accept_hiword : (s.accept c).hiword = s.hiword := rfl
@[simp] theorem accept_res : (s.accept c).res = s.res := rfl
@[simp] theorem accept_env : (s.accept c).env = { s.env with port := none } := rfl
end accept

section pullReset
variable (s : State)
@[simp] theorem pullReset_seq : s.pullReset.seq = .idle := rfl
@[simp] theorem pullReset_env : s.pullReset.env = s.env := rfl
@[simp] theorem pullReset_status : s.pullReset.res.status = 0 := rfl
@[simp] theorem pullReset_rdata : s.pullReset.res.rdata = none := rfl
@[simp] theorem pullReset_diag : s.pullReset.res.diag = none := rfl
@[simp] theorem pullReset_tfault : s.pullReset.res.tfault = none := rfl
end pullReset

section retire
variable (s : State)
@[simp] theorem retire_cmd : s.retire.cmd = s.cmd := by unfold State.retire; split <;> rfl
@[simp] theorem retire_acc : s.retire.acc = s.acc := by unfold State.retire; split <;> rfl
@[simp] theorem retire_need : s.retire.need = s.need := by unfold State.retire; split <;> rfl
@[simp] theorem retire_deadline : s.retire.deadline = s.deadline := by
  unfold State.retire; split <;> rfl
@[simp] theorem retire_hiword : s.retire.hiword = s.hiword := by unfold State.retire; split <;> rfl
@[simp] theorem retire_res : s.retire.res = s.res := by unfold State.retire; split <;> rfl
variable {s}
/-- RETIRE in `DONE` (R127). -/
theorem retire_of_done (h : s.seq = .done) :
    s.retire = { s with seq := .idle, env := { s.env with taken := s.env.taken ++ [s.res] } } := by
  unfold State.retire; simp [h]
/-- RETIRE is not enabled outside `DONE` (R127). -/
theorem retire_of_not_done (h : s.seq ≠ .done) : s.retire = s := by
  unfold State.retire; split <;> simp_all
end retire

/-! ## The flags (R16) -/

@[simp] theorem cmdReady_iff (s : State) : s.cmdReady = true ↔ s.seq = .idle := by
  unfold State.cmdReady; split <;> simp_all
@[simp] theorem rspValid_iff (s : State) : s.rspValid = true ↔ s.seq = .done := by
  unfold State.rspValid; split <;> simp_all
theorem busy_iff (s : State) :
    s.busy = true ↔ ∃ k, s.seq = .send k ∨ s.seq = .recv k ∨ s.seq = .check k := by
  unfold State.busy; split <;> simp_all

end Sys2Proof.Machine
end

