-- ==== Sys2Proof/Laws/Codec.lean ====
section
/-! SUPPORT. One lemma for each function of the codec: the byte halves, the join, the validator, and what
each frame decoder accepts. -/

namespace Sys2Proof

theorem hi8_toNat (x : Nat) : (hi8 x).toNat = x / 256 % 256 := by
  have h : x >>> 8 &&& 0xFF = x / 256 % 256 := by
    rw [show (0xFF : Nat) = 2 ^ 8 - 1 from rfl, Nat.and_two_pow_sub_one_eq_mod,
      Nat.shiftRight_eq_div_pow]
  simp [hi8, h]

theorem lo8_toNat (x : Nat) : (lo8 x).toNat = x % 256 := by
  have h : x &&& 0xFF = x % 256 := by
    rw [show (0xFF : Nat) = 2 ^ 8 - 1 from rfl, Nat.and_two_pow_sub_one_eq_mod]
  simp [lo8, h]

theorem shift_or_bytes (h l : Byte) : (h.toNat <<< 8) ||| l.toNat = h.toNat * 256 + l.toNat := by
  rw [← Nat.shiftLeft_add_eq_or_of_lt l.isLt, Nat.shiftLeft_eq]

theorem join16_toNat (h l : Byte) : (join16 h l).toNat = h.toNat * 256 + l.toNat := by
  have hh := h.isLt
  have hl := l.isLt
  have : (h.toNat <<< 8) % 65536 = h.toNat <<< 8 := by
    apply Nat.mod_eq_of_lt
    rw [Nat.shiftLeft_eq]
    omega
  simp only [join16, BitVec.toNat_or, BitVec.toNat_shiftLeft, BitVec.toNat_setWidth]
  rw [Nat.mod_eq_of_lt (a := h.toNat) (by omega), Nat.mod_eq_of_lt (a := l.toNat) (by omega), this,
    shift_or_bytes]

@[simp] theorem hi8_join16 (h l : Byte) : hi8 (join16 h l).toNat = h := by
  apply BitVec.eq_of_toNat_eq
  have := h.isLt
  have := l.isLt
  rw [hi8_toNat, join16_toNat]
  omega

@[simp] theorem lo8_join16 (h l : Byte) : lo8 (join16 h l).toNat = l := by
  apply BitVec.eq_of_toNat_eq
  have := h.isLt
  have := l.isLt
  rw [lo8_toNat, join16_toNat]
  omega

/-- The big-endian split and join of a number keep its low 16 bits (R74). -/
theorem join16_hi8_lo8 (x : Nat) : join16 (hi8 x) (lo8 x) = BitVec.ofNat 16 x := by
  apply BitVec.eq_of_toNat_eq
  rw [join16_toNat, hi8_toNat, lo8_toNat, BitVec.toNat_ofNat]
  omega

@[simp] theorem join16_of_half (v : Half) : join16 (hi8 v.toNat) (lo8 v.toNat) = v := by
  rw [join16_hi8_lo8]; simp

@[simp] theorem encWrite_length (a v : Nat) : (encWrite a v).length = 8 := rfl
@[simp] theorem encRead_length (a : Nat) : (encRead a).length = 7 := rfl

/-- What the write-request decoder accepts (R51). -/
theorem decodeWrReq_instr {bytes : Bytes} {i : Instr} (h : decodeWrReq bytes = .instr i) :
    ∃ ah al vh vl, bytes = [0x5A, 0xA5, 0x05, 0x82, ah, al, vh, vl] ∧
      i = .wrReq (join16 ah al) (join16 vh vl) := by
  unfold decodeWrReq at h
  split at h
  · split_ifs at h with h1 h2 h3
    simp only [Decoded.instr.injEq] at h
    simp only [not_or, not_not] at h1 h2 h3
    obtain ⟨rfl, rfl⟩ := h1
    subst h2 h3
    exact ⟨_, _, _, _, rfl, h.symm⟩
  · cases h

/-- What the read-request decoder accepts (R52). -/
theorem decodeRdReq_instr {bytes : Bytes} {i : Instr} (h : decodeRdReq bytes = .instr i) :
    ∃ ah al, bytes = [0x5A, 0xA5, 0x04, 0x83, ah, al, 0x01] ∧ i = .rdReq (join16 ah al) := by
  unfold decodeRdReq at h
  split at h
  · split_ifs at h with h1 h2 h3 h4
    simp only [Decoded.instr.injEq] at h
    simp only [not_or, not_not] at h1 h2 h3 h4
    obtain ⟨rfl, rfl⟩ := h1
    subst h2 h3 h4
    exact ⟨_, _, rfl, h.symm⟩
  · cases h

/-- What the read-response decoder accepts (R53, R59). -/
theorem decodeRdRsp_instr {bytes : Bytes} {i : Instr} (h : decodeRdRsp bytes = .instr i) :
    ∃ len ah al cnt vh vl, bytes = [0x5A, 0xA5, len, 0x83, ah, al, cnt, vh, vl] ∧
      i = .rdRsp len ah al cnt vh vl := by
  unfold decodeRdRsp at h
  split at h
  · split_ifs at h with h1 h2
    simp only [Decoded.instr.injEq] at h
    simp only [not_or, not_not] at h1 h2
    obtain ⟨rfl, rfl⟩ := h1
    subst h2
    exact ⟨_, _, _, _, _, _, rfl, h.symm⟩
  · cases h

/-- The four host codes are all there are (R60). -/
theorem op_cases (op : BitVec 2) : op = 0 ∨ op = 1 ∨ op = 2 ∨ op = 3 := by
  revert op; decide

end Sys2Proof

namespace Sys2Proof.Machine

/-- What the validator accepts (R95). -/
theorem validate_iff (s : Bytes) :
    validate s = true ↔ ∃ len ah al cnt vh vl, s = [0x5A, 0xA5, len, 0x83, ah, al, cnt, vh, vl] := by
  constructor
  · intro h
    match s with
    | [b0, b1, b2, b3, b4, b5, b6, b7, b8] =>
      simp [validate, Config.hdr0, Config.hdr1, Config.cmdRd, Config.rspLen] at h
      obtain ⟨⟨rfl, rfl⟩, rfl⟩ := h
      exact ⟨_, _, _, _, _, _, rfl⟩
    | [] => simp [validate, Config.rspLen] at h
    | [_] => simp [validate, Config.rspLen] at h
    | [_, _] => simp [validate, Config.rspLen] at h
    | [_, _, _] => simp [validate, Config.rspLen] at h
    | [_, _, _, _] => simp [validate, Config.rspLen] at h
    | [_, _, _, _, _] => simp [validate, Config.rspLen] at h
    | [_, _, _, _, _, _] => simp [validate, Config.rspLen] at h
    | [_, _, _, _, _, _, _] => simp [validate, Config.rspLen] at h
    | [_, _, _, _, _, _, _, _] => simp [validate, Config.rspLen] at h
    | _ :: _ :: _ :: _ :: _ :: _ :: _ :: _ :: _ :: _ :: _ => simp [validate, Config.rspLen] at h
  · rintro ⟨len, ah, al, cnt, vh, vl, rfl⟩
    simp [validate, Config.hdr0, Config.hdr1, Config.cmdRd, Config.rspLen]

/-- A response that fails the validator is rejected by the decoder (R59). -/
theorem decodeRdRsp_of_invalid {s : Bytes} (h : validate s = false) :
    ∃ r, decodeRdRsp s = .rejected r := by
  cases hd : decodeRdRsp s with
  | rejected r => exact ⟨r, rfl⟩
  | instr i =>
    obtain ⟨len, ah, al, cnt, vh, vl, hs, -⟩ := decodeRdRsp_instr hd
    rw [(validate_iff s).mpr ⟨len, ah, al, cnt, vh, vl, hs⟩] at h
    cases h

/-- A response with its three marks is accepted; the marks in the form `simp` leaves them in. -/
@[simp] theorem decodeRdRsp_response (len ah al cnt vh vl : Byte) :
    decodeRdRsp [90#8, 165#8, len, 131#8, ah, al, cnt, vh, vl] = .instr (.rdRsp len ah al cnt vh vl) :=
  rfl

@[simp] theorem extract_response (b0 b1 b2 b3 b4 b5 b6 vh vl : Byte) :
    extract [b0, b1, b2, b3, b4, b5, b6, vh, vl] = join16 vh vl := rfl

/-- Only a short or an ill-marked sequence fails, so a failing one has at most the bytes it has. -/
theorem validate_length {s : Bytes} (h : validate s = true) : s.length = 9 := by
  obtain ⟨_, _, _, _, _, _, rfl⟩ := (validate_iff s).mp h
  rfl

/-! ## Operands -/

@[simp] theorem isRead_opWriteReg : isRead Config.opWriteReg = false := by decide
@[simp] theorem isRead_opReadReg : isRead Config.opReadReg = true := by decide
@[simp] theorem isRead_opWriteFloat : isRead Config.opWriteFloat = false := by decide
@[simp] theorem isRead_opReadFloat : isRead Config.opReadFloat = true := by decide
@[simp] theorem isFloat_opWriteReg : isFloat Config.opWriteReg = false := by decide
@[simp] theorem isFloat_opReadReg : isFloat Config.opReadReg = false := by decide
@[simp] theorem isFloat_opWriteFloat : isFloat Config.opWriteFloat = true := by decide
@[simp] theorem isFloat_opReadFloat : isFloat Config.opReadFloat = true := by decide
@[simp] theorem isRead_zero : isRead 0#2 = false := by decide
@[simp] theorem isRead_one : isRead 1#2 = true := by decide
@[simp] theorem isRead_two : isRead 2#2 = false := by decide
@[simp] theorem isRead_three : isRead 3#2 = true := by decide
@[simp] theorem isFloat_zero : isFloat 0#2 = false := by decide
@[simp] theorem isFloat_one : isFloat 1#2 = false := by decide
@[simp] theorem isFloat_two : isFloat 2#2 = true := by decide
@[simp] theorem isFloat_three : isFloat 3#2 = true := by decide

@[simp] theorem tripAddr_zero (a : Half) : tripAddr a .zero = a := by
  simp [tripAddr, Trip.toNat]

theorem tripAddr_one_toNat (a : Half) : (tripAddr a .one).toNat = (a.toNat + 1) % 65536 := by
  simp [tripAddr, Trip.toNat, BitVec.toNat_add]

theorem lowHalf_toNat (w : Pattern) : (lowHalf w).toNat = w.toNat % 65536 := by
  simp [lowHalf, BitVec.extractLsb'_toNat]

theorem fsplit_fst_toNat (w : Pattern) : (fsplit w).1.toNat = w.toNat / 65536 := by
  have := w.isLt
  simp only [fsplit, BitVec.extractLsb'_toNat, Nat.shiftRight_eq_div_pow]
  omega

theorem fsplit_snd_toNat (w : Pattern) : (fsplit w).2.toNat = w.toNat % 65536 := by
  simp [fsplit, BitVec.extractLsb'_toNat]

theorem fjoin_toNat (h l : Half) : (fjoin h l).toNat = h.toNat * 65536 + l.toNat := by
  have hh := h.isLt
  have hl := l.isLt
  have e : (h.toNat <<< 16) % 4294967296 = h.toNat <<< 16 := by
    apply Nat.mod_eq_of_lt
    rw [Nat.shiftLeft_eq]
    omega
  simp only [fjoin, BitVec.toNat_or, BitVec.toNat_shiftLeft, BitVec.toNat_setWidth]
  rw [Nat.mod_eq_of_lt (a := h.toNat) (by omega), Nat.mod_eq_of_lt (a := l.toNat) (by omega), e,
    ← Nat.shiftLeft_add_eq_or_of_lt hl, Nat.shiftLeft_eq]

@[simp] theorem lastTrip_one (op : BitVec 2) : lastTrip op .one = true := by simp [lastTrip]
@[simp] theorem lastTrip_zero (op : BitVec 2) : lastTrip op .zero = !isFloat op := by
  simp [lastTrip]

end Sys2Proof.Machine
end

