-- ==== Sys2Proof/Laws/Memory.lean ====
section
/-! SUPPORT. The device register space keeps its canonical form under every operation on it (log 18). -/

namespace Sys2Proof.Machine

/-- Where a store can put an address: at the one stored, or where there was one. -/
theorem Memory.mem_write {m : Memory} {a : Nat} {v : Half} {c : Nat × Half}
    (h : c ∈ m.write a v) : (c = (a, v) ∧ v ≠ Config.unwrittenRegister) ∨ c ∈ m := by
  induction m with
  | nil =>
    simp only [Memory.write] at h
    split_ifs at h with hv
    · simp at h
    · exact .inl ⟨by simpa using h, hv⟩
  | cons d m ih =>
    obtain ⟨b, u⟩ := d
    simp only [Memory.write] at h
    split_ifs at h with h1 h2 h3 h4
    · exact .inr h
    · rcases List.mem_cons.mp h with rfl | h
      · exact .inl ⟨rfl, h2⟩
      · exact .inr h
    · exact .inr (List.mem_cons_of_mem _ h)
    · rcases List.mem_cons.mp h with rfl | h
      · exact .inl ⟨rfl, h4⟩
      · exact .inr (List.mem_cons_of_mem _ h)
    · rcases List.mem_cons.mp h with rfl | h
      · exact .inr List.mem_cons_self
      · exact (ih h).imp_right (List.mem_cons_of_mem _)

/-- A store keeps the canonical form. -/
theorem Memory.write_wf {m : Memory} {a : Nat} {v : Half} (hm : m.wf) (ha : a < 65536) :
    (m.write a v).wf := by
  induction m with
  | nil =>
    simp only [Memory.write]
    split_ifs with hv
    · exact hm
    · exact ⟨List.pairwise_singleton _ _, by simpa using ⟨ha, hv⟩⟩
  | cons d m ih =>
    obtain ⟨b, u⟩ := d
    obtain ⟨hp0, hv⟩ := hm
    obtain ⟨hlt, hp⟩ := List.pairwise_cons.mp hp0
    have hb := hv (b, u) List.mem_cons_self
    have hrest : ∀ c ∈ m, c.1 < 65536 ∧ c.2 ≠ Config.unwrittenRegister :=
      fun c hc => hv c (List.mem_cons_of_mem _ hc)
    simp only [Memory.write]
    split_ifs with h1 h2 h3 h4
    · exact ⟨List.pairwise_cons.mpr ⟨hlt, hp⟩, hv⟩
    · refine ⟨List.pairwise_cons.mpr ⟨?_, List.pairwise_cons.mpr ⟨hlt, hp⟩⟩, ?_⟩
      · intro c hc
        rcases List.mem_cons.mp hc with rfl | hc
        · exact h1
        · exact Nat.lt_trans h1 (hlt c hc)
      · intro c hc
        rcases List.mem_cons.mp hc with rfl | hc
        · exact ⟨ha, h2⟩
        · exact hv c hc
    · exact ⟨hp, hrest⟩
    · subst h3
      refine ⟨List.pairwise_cons.mpr ⟨hlt, hp⟩, ?_⟩
      intro c hc
      rcases List.mem_cons.mp hc with rfl | hc
      · exact ⟨ha, h4⟩
      · exact hrest c hc
    · obtain ⟨ihp, ihv⟩ := ih ⟨hp, hrest⟩
      refine ⟨List.pairwise_cons.mpr ⟨?_, ihp⟩, ?_⟩
      · intro c hc
        rcases Memory.mem_write hc with ⟨rfl, -⟩ | hc
        · exact Nat.lt_of_le_of_ne (Nat.le_of_not_lt h1) (Ne.symm h3)
        · exact hlt c hc
      · intro c hc
        rcases List.mem_cons.mp hc with rfl | hc
        · exact hb
        · exact ihv c hc

/-- The ideal device keeps the canonical form (D26). -/
theorem idealDevice_wf {m : Memory} (bytes : Bytes) (hm : m.wf) : (idealDevice bytes m).1.wf := by
  unfold idealDevice
  split
  · exact Memory.write_wf hm (BitVec.isLt _)
  · split <;> exact hm

/-- So does its move. -/
theorem serve_wf {e : Env} (h : e.dev.wf) : e.serve.dev.wf := by
  unfold Env.serve
  split
  · exact h
  · exact idealDevice_wf _ h

/-- The register space after reset is canonical. -/
theorem reset_dev_wf : State.reset.env.dev.wf := by decide

end Sys2Proof.Machine
end

