-- ==== Sys2Proof/Laws/Ops.lean ====
section
/-! SUPPORT. One lemma for each shared operation that says once everything it can do. -/

namespace Sys2Proof.Machine

/-! ## SEND (R122) -/

/-- SEND when the transport takes the frame. -/
theorem sendRequest_of_ok {s : State} (frame : Bytes) (k : Trip) (h : s.env.txFault = none) :
    s.sendRequest frame k = { s with
      seq := .recv k, acc := [], need := needOf s.cmd.op
      deadline := s.env.now + tmoEff s.cmd s.env.tDefault
      env := { s.env with txlog := s.env.txlog ++ [⟨frame, frame.length⟩] } } := by
  simp [State.sendRequest, State.txWrite, h]

/-- SEND when the transport faults (R144, U11). -/
theorem sendRequest_of_fault {s : State} (frame : Bytes) (k : Trip) {e : TxFault}
    (h : s.env.txFault = some e) :
    s.sendRequest frame k = { s with
      seq := .done, res := (Result.transportError e.fault).regs
      env := { s.env with txlog := s.env.txlog ++ [⟨frame, e.reached⟩] } } := by
  simp [State.sendRequest, State.txWrite, h, State.finish]

/-! ## POLL (R123) -/

theorem rxAvail_of_ok {s : State} (h : s.env.availFault = none) :
    s.rxAvail = .ok (s.env.rxq.length + s.env.overcount) := by simp [State.rxAvail, h]

theorem rxAvail_of_fault {s : State} {f : TFault} (h : s.env.availFault = some f) :
    s.rxAvail = .fault f := by simp [State.rxAvail, h]

theorem rxReadOne_of_fault {s : State} {e : ReadFault} (h : s.env.readFault = some e) :
    s.rxReadOne = some
      ({ s with env := { s.env with rxq := if e.lost then s.env.rxq.tail else s.env.rxq } },
        .fault e.fault) := by
  unfold State.rxReadOne
  cases hl : e.lost <;> simp only [h, hl] <;> simp [← h]

theorem rxReadOne_of_byte {s : State} (h : s.env.readFault = none) {b : Byte} {rest : Bytes}
    (hq : s.env.rxq = b :: rest) :
    s.rxReadOne = some ({ s with env := { s.env with rxq := rest } }, .ok b) := by
  unfold State.rxReadOne
  simp [h, hq]

theorem rxReadOne_of_empty {s : State} (h : s.env.readFault = none) (hq : s.env.rxq = []) :
    s.rxReadOne = none := by
  unfold State.rxReadOne
  simp [h, hq]

/-- POLL when the count is reached or the deadline has come (R83). -/
theorem poll_of_over {s : State} (k : Trip)
    (h : ¬ (s.acc.length < s.need.count ∧ s.env.now < s.deadline)) :
    s.poll k = .next { s with seq := .check k } := by
  simp only [State.poll, if_neg h]

/-- POLL when `RxAvail` faults. -/
theorem poll_of_availFault {s : State} (k : Trip)
    (h : s.acc.length < s.need.count ∧ s.env.now < s.deadline) {f : TFault}
    (hf : s.env.availFault = some f) :
    s.poll k = .next (s.finish (.transportError f)) := by
  simp only [State.poll, if_pos h, rxAvail_of_fault hf, raiseTransportError_eq]

/-- POLL when nothing is available (R82). -/
theorem poll_of_none {s : State} (k : Trip)
    (h : s.acc.length < s.need.count ∧ s.env.now < s.deadline)
    (hf : s.env.availFault = none) (h0 : s.env.rxq.length + s.env.overcount = 0) :
    s.poll k = .next s := by
  simp only [State.poll, if_pos h, rxAvail_of_ok hf, h0]

/-- POLL when bytes are reported and `RxReadOne` faults. -/
theorem poll_of_readFault {s : State} (k : Trip)
    (h : s.acc.length < s.need.count ∧ s.env.now < s.deadline)
    (hf : s.env.availFault = none) (h0 : s.env.rxq.length + s.env.overcount ≠ 0) {f : TFault}
    {lost : Bool} (hr : s.env.readFault = some ⟨f, lost⟩) :
    s.poll k = .next { s with
      seq := .done, res := (Result.transportError f).regs
      env := { s.env with rxq := if lost then s.env.rxq.tail else s.env.rxq } } := by
  obtain ⟨n, hn⟩ := Nat.exists_eq_succ_of_ne_zero h0
  simp only [State.poll, if_pos h, rxAvail_of_ok hf, hn, rxReadOne_of_fault hr,
    raiseTransportError_eq, State.finish]

/-- POLL when the oldest byte is taken. -/
theorem poll_of_byte {s : State} (k : Trip)
    (h : s.acc.length < s.need.count ∧ s.env.now < s.deadline)
    (hf : s.env.availFault = none) (hr : s.env.readFault = none) {b : Byte} {rest : Bytes}
    (hq : s.env.rxq = b :: rest) :
    s.poll k = .next { s with acc := s.acc ++ [b], env := { s.env with rxq := rest } } := by
  have hn : s.env.rxq.length + s.env.overcount = rest.length + s.env.overcount + 1 := by
    rw [hq, List.length_cons]; omega
  simp only [State.poll, if_pos h, rxAvail_of_ok hf, hn, rxReadOne_of_byte hr hq]

/-- POLL when bytes are reported and there are none (U5, D13). -/
theorem poll_of_broken {s : State} (k : Trip)
    (h : s.acc.length < s.need.count ∧ s.env.now < s.deadline)
    (hf : s.env.availFault = none) (hr : s.env.readFault = none) (hq : s.env.rxq = [])
    (ho : s.env.overcount ≠ 0) :
    s.poll k = .fault .readOneUnavailable := by
  obtain ⟨n, hn⟩ := Nat.exists_eq_succ_of_ne_zero ho
  have hn' : s.env.rxq.length + s.env.overcount = n + 1 := by rw [hq, hn]; simp
  simp only [State.poll, if_pos h, rxAvail_of_ok hf, hn', rxReadOne_of_empty hr hq]

/-- Everything one POLL can do (R123). -/
theorem poll_cases (s : State) (k : Trip) :
    (¬ (s.acc.length < s.need.count ∧ s.env.now < s.deadline) ∧
      s.poll k = .next { s with seq := .check k }) ∨
    (s.acc.length < s.need.count ∧ s.env.now < s.deadline ∧
      ((∃ f, s.env.availFault = some f ∧ s.poll k = .next (s.finish (.transportError f))) ∨
       (s.env.availFault = none ∧ s.env.rxq = [] ∧ s.env.overcount = 0 ∧ s.poll k = .next s) ∨
       (∃ f lost, s.env.availFault = none ∧ s.env.readFault = some ⟨f, lost⟩ ∧
          s.env.rxq.length + s.env.overcount ≠ 0 ∧
          s.poll k = .next { s with
            seq := .done, res := (Result.transportError f).regs
            env := { s.env with rxq := if lost then s.env.rxq.tail else s.env.rxq } }) ∨
       (∃ b rest, s.env.availFault = none ∧ s.env.readFault = none ∧ s.env.rxq = b :: rest ∧
          s.poll k = .next { s with acc := s.acc ++ [b], env := { s.env with rxq := rest } }) ∨
       (s.env.availFault = none ∧ s.env.readFault = none ∧ s.env.rxq = [] ∧ s.env.overcount ≠ 0 ∧
          s.poll k = .fault .readOneUnavailable))) := by
  by_cases h : s.acc.length < s.need.count ∧ s.env.now < s.deadline
  · refine .inr ⟨h.1, h.2, ?_⟩
    cases hf : s.env.availFault with
    | some f => exact .inl ⟨f, rfl, poll_of_availFault k h hf⟩
    | none =>
      refine .inr ?_
      by_cases h0 : s.env.rxq.length + s.env.overcount = 0
      · have := poll_of_none k h hf h0
        simp only [Nat.add_eq_zero_iff, List.length_eq_zero_iff] at h0
        exact .inl ⟨rfl, h0.1, h0.2, this⟩
      · refine .inr ?_
        cases hr : s.env.readFault with
        | some e => exact .inl ⟨e.fault, e.lost, rfl, rfl, h0, poll_of_readFault k h hf h0 hr⟩
        | none =>
          refine .inr ?_
          cases hq : s.env.rxq with
          | cons b rest => exact .inl ⟨b, rest, rfl, rfl, rfl, poll_of_byte k h hf hr hq⟩
          | nil =>
            have ho : s.env.overcount ≠ 0 := by simpa [hq] using h0
            exact .inr ⟨rfl, rfl, rfl, ho, poll_of_broken k h hf hr hq ho⟩
  · exact .inl ⟨h, poll_of_over k h⟩

/-! ## CHECK (R124, R125) -/

/-- CHECK after the last write trip. -/
theorem discardAck_of_last {s : State} {k : Trip} (h : lastTrip s.cmd.op k = true) :
    s.discardAck k = s.finish .ok := by simp [State.discardAck, h]

/-- CHECK after trip 0 of a float write. -/
theorem discardAck_of_first {s : State} {k : Trip} (h : lastTrip s.cmd.op k = false) :
    s.discardAck k = { s with seq := .send .one } := by simp [State.discardAck, h]

/-! ## A command (R121 to R125) -/

section runCommand
variable {c : HostCmd} {send check : Trip → State → State} {s : State}

theorem runCommand_idle (h : s.seq = .idle) : runCommand c send check s = .next (s.accept c) := by
  simp [runCommand, h]
theorem runCommand_send {k : Trip} (h : s.running c (.send k)) :
    runCommand c send check s = .next (send k s) := by
  simp [runCommand, h.1, h.2]
theorem runCommand_recv {k : Trip} (h : s.running c (.recv k)) :
    runCommand c send check s = s.poll k := by
  simp [runCommand, h.1, h.2]
theorem runCommand_check {k : Trip} (h : s.running c (.check k)) :
    runCommand c send check s = .next (check k s) := by
  simp [runCommand, h.1, h.2]
theorem runCommand_done (h : s.seq = .done) : runCommand c send check s = .next s := by
  simp [runCommand, h]
theorem runCommand_waits (hi : s.seq ≠ .idle) (h : s.seq = .done ∨ s.cmd ≠ c) :
    runCommand c send check s = .next s := by
  unfold runCommand
  split <;> simp_all

end runCommand

end Sys2Proof.Machine
end

