-- ==== Sys2Proof/Laws/Step.lean ====
section
/-! SUPPORT. What one instruction and one step can do, said once: the effect of an instruction is one of
the block's four steps (45_sequencer.md R121 to R125) or nothing. -/

namespace Sys2Proof.Machine

/-- The block's possible effects in a state (R121 to R125): the outcomes an instruction can have. -/
inductive Effect (s : State) : Outcome → Prop where
  /-- The step is not enabled: nothing happens (R130). -/
  | still : Effect s (.next s)
  /-- ACCEPT (R121). -/
  | accept (c : HostCmd) : s.seq = .idle → Effect s (.next (s.accept c))
  /-- SEND (R122) of one of the block's two frames (R64). -/
  | send (k : Trip) (frame : Bytes) : s.seq = .send k → LegalRequest frame →
      Effect s (.next (s.sendRequest frame k))
  /-- POLL (R123). -/
  | poll (k : Trip) : s.seq = .recv k → Effect s (s.poll k)
  /-- CHECK after a write request (R124). -/
  | discard (k : Trip) : s.seq = .check k → isRead s.cmd.op = false →
      Effect s (.next (s.discardAck k))
  /-- CHECK after a valid response (R125). -/
  | value (k : Trip) (v : Half) : s.seq = .check k → isRead s.cmd.op = true →
      Effect s (.next (s.acceptValue v k))
  /-- CHECK after an invalid response (R125, R143). -/
  | invalid (k : Trip) : s.seq = .check k → isRead s.cmd.op = true → validate s.acc = false →
      Effect s (.next (s.finish (.invalidResponse s.acc)))

/-! ## The arms of `exec` -/

section arms
variable (s : State)
@[simp] theorem exec_writeReg (addr : Half) (wdata : Pattern) (tmoEn : Bool) (tmo : Nat) :
    exec (.writeReg addr wdata tmoEn tmo) s = execWriteReg addr wdata tmoEn tmo s := rfl
@[simp] theorem exec_readReg (addr : Half) (wdata : Pattern) (tmoEn : Bool) (tmo : Nat) :
    exec (.readReg addr wdata tmoEn tmo) s = execReadReg addr wdata tmoEn tmo s := rfl
@[simp] theorem exec_writeFloat (addr : Half) (wdata : Pattern) (tmoEn : Bool) (tmo : Nat) :
    exec (.writeFloat addr wdata tmoEn tmo) s = execWriteFloat addr wdata tmoEn tmo s := rfl
@[simp] theorem exec_readFloat (addr : Half) (wdata : Pattern) (tmoEn : Bool) (tmo : Nat) :
    exec (.readFloat addr wdata tmoEn tmo) s = execReadFloat addr wdata tmoEn tmo s := rfl
@[simp] theorem exec_wrReq (addr val : Half) : exec (.wrReq addr val) s = execWrReq addr val s := rfl
@[simp] theorem exec_rdReq (addr : Half) : exec (.rdReq addr) s = execRdReq addr s := rfl
@[simp] theorem exec_rdRsp (len ah al cnt vh vl : Byte) :
    exec (.rdRsp len ah al cnt vh vl) s = execRdRsp len ah al cnt vh vl s := rfl
@[simp] theorem exec_wrAck (bytes : Bytes) : exec (.wrAck bytes) s = execWrAck bytes s := rfl
end arms

theorem legalRequest_encWrite (a v : Nat) : LegalRequest (encWrite a v) := .inl ⟨rfl, rfl⟩
theorem legalRequest_encRead (a : Nat) : LegalRequest (encRead a) := .inr ⟨rfl, rfl, rfl⟩

/-- A host operation has one of the block's effects, if its own SEND and CHECK do. -/
theorem runCommand_effect {c : HostCmd} {send check : Trip → State → State} {s : State}
    (hsend : ∀ k, s.running c (.send k) → Effect s (.next (send k s)))
    (hcheck : ∀ k, s.running c (.check k) → Effect s (.next (check k s))) :
    Effect s (runCommand c send check s) := by
  unfold runCommand
  split
  · exact .accept c ‹_›
  · split
    · exact hsend _ ⟨‹_›, ‹_›⟩
    · exact .still
  · split
    · exact .poll _ ‹_›
    · exact .still
  · split
    · exact hcheck _ ⟨‹_›, ‹_›⟩
    · exact .still
  · exact .still

theorem execWriteReg_effect (addr : Half) (wdata : Pattern) (tmoEn : Bool) (tmo : Nat) (s : State) :
    Effect s (execWriteReg addr wdata tmoEn tmo s) :=
  runCommand_effect (fun k h => .send k _ h.1 (legalRequest_encWrite _ _)) fun k h => by
    have hl : lastTrip s.cmd.op k = true := by
      rw [h.2]; cases k <;> simp
    rw [← discardAck_of_last hl]
    exact .discard k h.1 (by rw [h.2]; simp)

theorem execReadReg_effect (addr : Half) (wdata : Pattern) (tmoEn : Bool) (tmo : Nat) (s : State) :
    Effect s (execReadReg addr wdata tmoEn tmo s) :=
  runCommand_effect (fun k h => .send k _ h.1 (legalRequest_encRead _)) fun k h => by
    have hr : isRead s.cmd.op = true := by rw [h.2]; simp
    have hf : isFloat s.cmd.op = false := by rw [h.2]; simp
    cases hv : validate s.acc with
    | true =>
      have := Effect.value (s := s) k (extract s.acc) h.1 hr
      simpa [State.acceptValue, hf, hv] using this
    | false => simpa [hv] using Effect.invalid k h.1 hr hv

theorem execWriteFloat_effect (addr : Half) (wdata : Pattern) (tmoEn : Bool) (tmo : Nat) (s : State) :
    Effect s (execWriteFloat addr wdata tmoEn tmo s) :=
  runCommand_effect (fun k h => .send k _ h.1 (legalRequest_encWrite _ _)) fun k h => by
    have hr : isRead s.cmd.op = false := by rw [h.2]; simp
    have hf : isFloat s.cmd.op = true := by rw [h.2]; simp
    have := Effect.discard k h.1 hr
    cases k <;> simpa [State.discardAck, lastTrip, hf] using this

theorem execReadFloat_effect (addr : Half) (wdata : Pattern) (tmoEn : Bool) (tmo : Nat) (s : State) :
    Effect s (execReadFloat addr wdata tmoEn tmo s) :=
  runCommand_effect (fun k h => .send k _ h.1 (legalRequest_encRead _)) fun k h => by
    have hr : isRead s.cmd.op = true := by rw [h.2]; simp
    have hf : isFloat s.cmd.op = true := by rw [h.2]; simp
    cases hv : validate s.acc with
    | true =>
      have := Effect.value (s := s) k (extract s.acc) h.1 hr
      cases k <;> simpa [State.acceptValue, hf, hv] using this
    | false => simpa [hv] using Effect.invalid k h.1 hr hv

theorem execWrReq_effect (addr val : Half) (s : State) : Effect s (execWrReq addr val s) := by
  unfold execWrReq
  split
  · split_ifs
    · exact .still
    · exact .send _ _ ‹_› (legalRequest_encWrite _ _)
  all_goals exact .still

theorem execRdReq_effect (addr : Half) (s : State) : Effect s (execRdReq addr s) := by
  unfold execRdReq
  split
  · split_ifs
    · exact .send _ _ ‹_› (legalRequest_encRead _)
    · exact .still
  all_goals exact .still

theorem execRdRsp_effect (len ah al cnt vh vl : Byte) (s : State) :
    Effect s (execRdRsp len ah al cnt vh vl s) := by
  unfold execRdRsp
  split
  case h_1 => split_ifs with h
              · exact .value _ _ ‹_› h
              · exact .still
  all_goals exact .still

theorem execWrAck_effect (bytes : Bytes) (s : State) : Effect s (execWrAck bytes s) := by
  unfold execWrAck
  split
  case h_1 => split_ifs with h
              · exact .still
              · exact .discard _ ‹_› (by simpa using h)
  all_goals exact .still

/-- Every instruction has one of the block's effects, in every state. -/
theorem exec_effect (i : Instr) (s : State) : Effect s (exec i s) := by
  cases i with
  | writeReg addr wdata tmoEn tmo => exact execWriteReg_effect addr wdata tmoEn tmo s
  | readReg addr wdata tmoEn tmo => exact execReadReg_effect addr wdata tmoEn tmo s
  | writeFloat addr wdata tmoEn tmo => exact execWriteFloat_effect addr wdata tmoEn tmo s
  | readFloat addr wdata tmoEn tmo => exact execReadFloat_effect addr wdata tmoEn tmo s
  | wrReq addr val => exact execWrReq_effect addr val s
  | rdReq addr => exact execRdReq_effect addr s
  | rdRsp len ah al cnt vh vl => exact execRdRsp_effect len ah al cnt vh vl s
  | wrAck bytes => exact execWrAck_effect bytes s

/-- So has every step of the block. -/
theorem blockStep_effect (s : State) : Effect s (blockStep s) := by
  unfold blockStep
  split
  · exact exec_effect _ s
  · exact .still

/-- The next states an instruction can lead to, field by field: the cases of `Effect` with SEND, POLL and
CHECK taken apart (R121 to R125). -/
inductive Successor (s : State) : State → Prop where
  | still : Successor s s
  | accepted (c : HostCmd) : s.seq = .idle → Successor s (s.accept c)
  | sent (k : Trip) (frame : Bytes) : s.seq = .send k → LegalRequest frame → s.env.txFault = none →
      Successor s { s with
        seq := .recv k, acc := [], need := needOf s.cmd.op
        deadline := s.env.now + tmoEff s.cmd s.env.tDefault
        env := { s.env with txlog := s.env.txlog ++ [⟨frame, frame.length⟩] } }
  | sendFaulted (k : Trip) (frame : Bytes) (e : TxFault) : s.seq = .send k → LegalRequest frame →
      s.env.txFault = some e →
      Successor s { s with
        seq := .done, res := (Result.transportError e.fault).regs
        env := { s.env with txlog := s.env.txlog ++ [⟨frame, e.reached⟩] } }
  | readerEnded (k : Trip) : s.seq = .recv k →
      ¬ (s.acc.length < s.need.count ∧ s.env.now < s.deadline) →
      Successor s { s with seq := .check k }
  | nothingRead (k : Trip) : s.seq = .recv k → s.acc.length < s.need.count →
      s.env.now < s.deadline → s.env.availFault = none → Successor s s
  | byteRead (k : Trip) (b : Byte) (rest : Bytes) : s.seq = .recv k →
      s.acc.length < s.need.count → s.env.now < s.deadline → s.env.availFault = none →
      s.env.readFault = none → s.env.rxq = b :: rest →
      Successor s { s with acc := s.acc ++ [b], env := { s.env with rxq := rest } }
  | availFaulted (k : Trip) (f : TFault) : s.seq = .recv k → s.acc.length < s.need.count →
      s.env.now < s.deadline → s.env.availFault = some f →
      Successor s (s.finish (.transportError f))
  | readFaulted (k : Trip) (f : TFault) (lost : Bool) : s.seq = .recv k →
      s.acc.length < s.need.count → s.env.now < s.deadline → s.env.availFault = none →
      s.env.readFault = some ⟨f, lost⟩ →
      Successor s { s with
        seq := .done, res := (Result.transportError f).regs
        env := { s.env with rxq := if lost then s.env.rxq.tail else s.env.rxq } }
  | writeEnded (k : Trip) : s.seq = .check k → isRead s.cmd.op = false →
      lastTrip s.cmd.op k = true → Successor s (s.finish .ok)
  | secondWrite (k : Trip) : s.seq = .check k → isRead s.cmd.op = false →
      lastTrip s.cmd.op k = false → Successor s { s with seq := .send .one }
  | secondRead (v : Half) : s.seq = .check .zero → isRead s.cmd.op = true →
      isFloat s.cmd.op = true → Successor s { s with hiword := v, seq := .send .one }
  | floatEnded (v : Half) : s.seq = .check .one → isRead s.cmd.op = true →
      isFloat s.cmd.op = true → Successor s (s.finish (.okFloat (fjoin s.hiword v)))
  | readEnded (k : Trip) (v : Half) : s.seq = .check k → isRead s.cmd.op = true →
      isFloat s.cmd.op = false → Successor s (s.finish (.okReg v))
  | readInvalid (k : Trip) : s.seq = .check k → isRead s.cmd.op = true → validate s.acc = false →
      Successor s (s.finish (.invalidResponse s.acc))

/-- Where an effect is a next state, it is one of the successors. -/
theorem Effect.successor {s t : State} {o : Outcome} (h : Effect s o) (ho : o = .next t) :
    Successor s t := by
  cases h with
  | still => cases ho; exact .still
  | accept c h => cases ho; exact .accepted c h
  | send k frame h hl =>
    cases ho
    cases hf : s.env.txFault with
    | none => rw [sendRequest_of_ok _ _ hf]; exact .sent k frame h hl hf
    | some e => rw [sendRequest_of_fault _ _ hf]; exact .sendFaulted k frame e h hl hf
  | poll k h =>
    rcases poll_cases s k with ⟨h1, h2⟩ | ⟨h1, h2, ⟨f, h3, h4⟩ | ⟨h3, h4, h5, h6⟩ |
      ⟨f, l, h3, h4, h5, h6⟩ | ⟨b, r, h3, h4, h5, h6⟩ | ⟨h3, h4, h5, h6, h7⟩⟩
    · rw [h2] at ho; cases ho; exact .readerEnded k h h1
    · rw [h4] at ho; cases ho; exact .availFaulted k f h h1 h2 h3
    · rw [h6] at ho; cases ho; exact .nothingRead k h h1 h2 h3
    · rw [h6] at ho; cases ho; exact .readFaulted k f l h h1 h2 h3 h4
    · rw [h6] at ho; cases ho; exact .byteRead k b r h h1 h2 h3 h4 h5
    · rw [h7] at ho; cases ho
  | discard k h hr =>
    cases ho
    cases hl : lastTrip s.cmd.op k with
    | true => rw [discardAck_of_last hl]; exact .writeEnded k h hr hl
    | false => rw [discardAck_of_first hl]; exact .secondWrite k h hr hl
  | value k v h hr =>
    cases ho
    cases hf : isFloat s.cmd.op with
    | true =>
      cases k with
      | zero => simpa [State.acceptValue, hf] using Successor.secondRead v h hr hf
      | one => simpa [State.acceptValue, hf] using Successor.floatEnded v h hr hf
    | false => simpa [State.acceptValue, hf] using Successor.readEnded k v h hr hf
  | invalid k h hr hv => cases ho; exact .readInvalid k h hr hv

/-- What an instruction that goes on has done. -/
theorem exec_successor {i : Instr} {s t : State} (h : exec i s = .next t) : Successor s t :=
  (exec_effect i s).successor h

/-- What a step of the block that goes on has done. -/
theorem blockStep_successor {s t : State} (h : blockStep s = .next t) : Successor s t :=
  (blockStep_effect s).successor h

/-! ## Whose turn it is -/

/-- A step on the block's turn is the block's step, its turn taken off the schedule. -/
theorem step_of_blockTurn {s : State} (h : s.blockTurn) : step s = blockStep s.atTurn := by
  rcases h with h | ⟨moves, h⟩
  · have ht : s.env.sched.tail = s.env.sched := by simp [h]
    have : s.atTurn = s := by simp only [State.atTurn, State.withSched, ht]
    rw [this]
    simp [step, h]
  · simp [step, h, State.atTurn]

/-- A step of another agent is its move. -/
theorem step_of_move {s : State} {m : Move} {moves : List Move} (h : s.env.sched = m :: moves)
    (hm : m ≠ .block) : step s = .next ((s.withSched moves).applyMove m) := by
  unfold step
  split <;> simp_all

/-- Every step is the block's, or the move of another agent. -/
theorem step_cases (s : State) :
    (s.blockTurn ∧ step s = blockStep s.atTurn) ∨
      ∃ m moves, s.env.sched = m :: moves ∧ m ≠ .block ∧
        step s = .next ((s.withSched moves).applyMove m) := by
  cases h : s.env.sched with
  | nil => exact .inl ⟨.inl h, step_of_blockTurn (.inl h)⟩
  | cons m moves =>
    by_cases hm : m = .block
    · subst hm
      exact .inl ⟨.inr ⟨moves, h⟩, step_of_blockTurn (.inr ⟨moves, h⟩)⟩
    · exact .inr ⟨m, moves, rfl, hm, step_of_move h hm⟩

/-! ## Runs -/

/-- The model's run is the host's. -/
theorem run_core (n : Nat) (s : State) : core.run n s = runSteps n s := by
  induction n generalizing s with
  | zero => rfl
  | succ n ih =>
    cases h : step s with
    | next t =>
      have hs : core.step s = .next t := h
      simp only [Host.Core.run, runSteps, h, hs]
      exact ih t
    | fault r =>
      have hs : core.step s = .fault r := h
      simp only [Host.Core.run, runSteps, h, hs]
      rfl
    | refused r =>
      have hs : core.step s = .refused r := h
      simp only [Host.Core.run, runSteps, h, hs]
      rfl

/-- A run of `a + b` steps is one of `a` and then one of `b`. -/
theorem runSteps_add {a : Nat} {s t : State} (b : Nat) (h : runSteps a s = .next t) :
    runSteps (a + b) s = runSteps b t := by
  induction a generalizing s with
  | zero => simp only [runSteps] at h; cases h; simp
  | succ a ih =>
    rw [Nat.succ_add_eq_add_succ, Nat.add_succ]
    simp only [runSteps] at h ⊢
    cases h1 : step s <;> rw [h1] at h <;> simp only at h ⊢
    · exact ih h
    · cases h
    · cases h

/-- The traced run of a command has ended where the machine is in `DONE`. -/
theorem traceRun_done (n : Nat) {s : State} (h : s.seq = .done) :
    traceRun n s = some ⟨[], [], [], s⟩ := by
  cases n <;> simp [traceRun, h]

/-- The traced run with a step of the block first. -/
theorem traceRun_block (n : Nat) {s t : State} (hd : s.seq ≠ .done) (hb : s.blockTurn)
    (h : step s = .next t) : traceRun (n + 1) s = (traceRun n t).map (·.afterBlock s t) := by
  rcases hb with hs | ⟨moves, hs⟩ <;> simp [traceRun, hd, h, hs]

/-- The traced run with a move of another agent first. -/
theorem traceRun_move (n : Nat) {s : State} {m : Move} {moves : List Move} (hd : s.seq ≠ .done)
    (hs : s.env.sched = m :: moves) (hm : m ≠ .block) :
    traceRun (n + 1) s = traceRun n ((s.withSched moves).applyMove m) := by
  simp only [traceRun, if_neg hd, step_of_move hs hm]
  split <;> simp_all

/-- A traced run of `a + b` steps goes on from where one of `a` has come to. -/
theorem traceRun_add (a b : Nat) {s : State} {r : Trace} (h : traceRun a s = some r) :
    (traceRun (a + b) s).map Trace.state = (traceRun b r.state).map Trace.state := by
  induction a generalizing s r with
  | zero => simp only [traceRun, Option.some.injEq] at h; subst h; simp
  | succ a ih =>
    by_cases hd : s.seq = .done
    · rw [traceRun_done _ hd] at h; cases h
      rw [traceRun_done _ hd, traceRun_done _ hd]
    · rw [Nat.succ_add_eq_add_succ, Nat.add_succ]
      rcases step_cases s with ⟨hb, -⟩ | ⟨m, moves, hs, hm, -⟩
      · cases hstep : step s with
        | next t =>
          rw [traceRun_block _ hd hb hstep] at h ⊢
          cases hr : traceRun a t with
          | none => rw [hr] at h; cases h
          | some r' =>
            rw [hr] at h; cases h
            rw [Option.map_map]
            have := ih hr
            exact this
        | fault f => simp [traceRun, hd, hstep] at h
        | refused f => simp [traceRun, hd, hstep] at h
      · rw [traceRun_move _ hd hs hm] at h ⊢
        exact ih h

/-- A run of one step. -/
theorem runSteps_one {s t : State} (h : step s = .next t) : runSteps 1 s = .next t := by
  simp only [runSteps, h]

end Sys2Proof.Machine
end

