-- ==== Sys2Proof/Laws/PerInstr.lean ====
section
/-! SUPPORT. The per-instruction family `EncodedLength`: how long each row's encoding is, a tuple for the
host operations and a frame of the row's fixed count of bytes for the frames (30_encoding.md R51 to
R54, R58). -/

namespace Sys2Proof

/-- How many bytes an encoding has on the wire; a command tuple is not on the wire. -/
def Encoded.wireLength : Encoded → Option Nat
  | .command _ => none
  | .frame _ bytes => some bytes.length

namespace Laws.EncodedLength

/-- What the row of the opcode table says of the length of the instruction's encoding. -/
def Statement (i : Instr) : Prop :=
  i.wf = true →
    match i with
    | .writeReg _ _ _ _ => (encode i).wireLength = none
    | .readReg _ _ _ _ => (encode i).wireLength = none
    | .writeFloat _ _ _ _ => (encode i).wireLength = none
    | .readFloat _ _ _ _ => (encode i).wireLength = none
    | .wrReq _ _ => (encode i).wireLength = some 8
    | .rdReq _ => (encode i).wireLength = some 7
    | .rdRsp _ _ _ _ _ _ => (encode i).wireLength = some Config.rspLen
    | .wrAck _ => ∃ n, (encode i).wireLength = some n ∧ n ≤ Config.ackLen

theorem writeReg (addr : Half) (wdata : Pattern) (tmoEn : Bool) (tmo : Nat) :
    Statement (.writeReg addr wdata tmoEn tmo) := fun _ => rfl
theorem readReg (addr : Half) (wdata : Pattern) (tmoEn : Bool) (tmo : Nat) :
    Statement (.readReg addr wdata tmoEn tmo) := fun _ => rfl
theorem writeFloat (addr : Half) (wdata : Pattern) (tmoEn : Bool) (tmo : Nat) :
    Statement (.writeFloat addr wdata tmoEn tmo) := fun _ => rfl
theorem readFloat (addr : Half) (wdata : Pattern) (tmoEn : Bool) (tmo : Nat) :
    Statement (.readFloat addr wdata tmoEn tmo) := fun _ => rfl
theorem wrReq (addr val : Half) : Statement (.wrReq addr val) := fun _ => rfl
theorem rdReq (addr : Half) : Statement (.rdReq addr) := fun _ => rfl
theorem rdRsp (len ahEcho alEcho cnt vh vl : Byte) :
    Statement (.rdRsp len ahEcho alEcho cnt vh vl) := fun _ => rfl
theorem wrAck (bytes : Bytes) : Statement (.wrAck bytes) := fun h =>
  ⟨bytes.length, rfl, by simpa [Instr.wf] using h⟩

end Laws.EncodedLength

end Sys2Proof
end

