-- ==== Sys2Proof/Tests/Slice0.lean ====
section
/-! SUPPORT. Tests on single steps, their expected results taken from spec/95_test_vectors.md and the rules
named; the smoke test of WellFormed; and one witness for every obligation that has hypotheses. -/

open Sys2Proof Sys2Proof.Machine

namespace Sys2Proof.Tests

/-- The next state, where there is one. -/
def after : Outcome → Option State
  | .next s => some s
  | .fault _ => none
  | .refused _ => none

/-- A block in the phase `q` with the command `c` in its latches. -/
def running (q : Seq) (c : HostCmd) : State := { State.reset with seq := q, cmd := c }

/-- The same with `acc` read so far, `need` to read, and the deadline at 101 (95 2.3). -/
def reading (q : Seq) (c : HostCmd) (acc : Bytes) (need : Need) : State :=
  { running q c with acc := acc, need := need, deadline := 101 }

/-- The bytes that have arrived. -/
def received (s : State) (bytes : Bytes) : State := { s with env := { s.env with rxq := bytes } }

/-- The moves to come. -/
def scheduled (s : State) (moves : List Move) : State := s.withSched moves

/-- `writeRegister(0x07D0, 0x1234)`. -/
def writeCmd : HostCmd := ⟨0, 0x07D0, 0x1234, false, 0⟩
/-- `readRegister(0x07D0)`. -/
def readCmd : HostCmd := ⟨1, 0x07D0, 0, false, 0⟩
/-- `writeFloat(0xFFFF, 0xBF800000)` (V-FL-21). -/
def writeFloatCmd : HostCmd := ⟨2, 0xFFFF, 0xBF800000, false, 0⟩
/-- `readFloat(0x1000)` (V-FL-20). -/
def readFloatCmd : HostCmd := ⟨3, 0x1000, 0, false, 0⟩
/-- The response of S2. -/
def goodResponse : Bytes := [0x5A, 0xA5, 0x04, 0x83, 0x07, 0xD0, 0x01, 0x04, 0xD2]

/-- The run not over, by one byte and one tick; nothing there. -/
def waiting : State := { reading (.recv .zero) readCmd (goodResponse.take 8) .nine with deadline := 1 }

/-! ## WellFormed -/

theorem test_wf_refuses_seven_byte_ack : (Instr.wrAck [0, 0, 0, 0, 0, 0, 0]).wf = false := by decide
theorem test_wf_admits_six_byte_ack : (Instr.wrAck [0, 0, 0, 0, 0, 0]).wf = true := by decide
theorem test_wf_admits_empty_ack : (Instr.wrAck []).wf = true := by decide

/-! ## Decoding: words written out from R51 to R54 and R60 -/

theorem test_decode_wrReq_s1 :
    decode (.frame .wrReq [0x5A, 0xA5, 0x05, 0x82, 0x07, 0xD0, 0x12, 0x34])
      = .instr (.wrReq 0x07D0 0x1234) := by decide
theorem test_decode_rdReq_v_enc_23 :
    decode (.frame .rdReq [0x5A, 0xA5, 0x04, 0x83, 0x00, 0xFF, 0x01])
      = .instr (.rdReq 0x00FF) := by decide
theorem test_decode_rdRsp_v_rd_4 :
    decode (.frame .rdRsp [0x5A, 0xA5, 0xFF, 0x83, 0x00, 0x10, 0x01, 0xAB, 0xCD])
      = .instr (.rdRsp 0xFF 0x00 0x10 0x01 0xAB 0xCD) := by decide
theorem test_decode_wrAck_g1 :
    decode (.frame .wrAck [0x5A, 0xA5, 0x03, 0x82, 0x4F, 0x4B])
      = .instr (.wrAck [0x5A, 0xA5, 0x03, 0x82, 0x4F, 0x4B]) := by decide
theorem test_decode_writeReg_r60 :
    decode (.command ⟨0b00, 0x07D0, 0x1234, false, 0⟩) = .instr (.writeReg 0x07D0 0x1234 false 0) := by
  decide
theorem test_decode_readReg_r60 :
    decode (.command ⟨0b01, 0x07D0, 0, true, 5⟩) = .instr (.readReg 0x07D0 0 true 5) := by decide
theorem test_decode_writeFloat_r60 :
    decode (.command ⟨0b10, 0x1000, 0x40490E56, false, 0⟩)
      = .instr (.writeFloat 0x1000 0x40490E56 false 0) := by decide
theorem test_decode_readFloat_r60 :
    decode (.command ⟨0b11, 0x1000, 0, false, 0⟩) = .instr (.readFloat 0x1000 0 false 0) := by decide

theorem test_decode_short_request :
    decode (.frame .wrReq [0x5A, 0xA5, 0x05, 0x82, 0x07, 0xD0, 0x12]) = .rejected .wrongLength := by
  decide
theorem test_decode_swapped_header_v_rd_14 :
    decode (.frame .rdRsp [0xA5, 0x5A, 0x04, 0x83, 0x07, 0xD0, 0x01, 0x04, 0xD2])
      = .rejected .wrongHeader := by decide
theorem test_decode_request_length_byte :
    decode (.frame .wrReq [0x5A, 0xA5, 0x04, 0x82, 0x07, 0xD0, 0x12, 0x34])
      = .rejected .wrongLengthByte := by decide
theorem test_decode_response_command_v_rd_7 :
    decode (.frame .rdRsp [0x5A, 0xA5, 0x04, 0x82, 0x07, 0xD0, 0x01, 0x04, 0xD2])
      = .rejected .wrongCommand := by decide
theorem test_decode_request_count :
    decode (.frame .rdReq [0x5A, 0xA5, 0x04, 0x83, 0x07, 0xD0, 0x02]) = .rejected .wrongCount := by
  decide

/-! ## Encoding (95 2.1) and the float words (95 2.5) -/

theorem test_encode_v_enc_11 :
    encWrite 0x12345678 0x9ABCDEF0 = [0x5A, 0xA5, 0x05, 0x82, 0x56, 0x78, 0xDE, 0xF0] := by decide
theorem test_encode_v_enc_27 :
    encRead 0x107D0 = [0x5A, 0xA5, 0x04, 0x83, 0x07, 0xD0, 0x01] := by decide
theorem test_fsplit_v_fl_2 : fsplit 0x40490E56 = (0x4049, 0x0E56) := by decide
theorem test_fjoin_v_fl_2 : fjoin 0x4049 0x0E56 = 0x40490E56 := by decide

/-! ## The host's table word (log 15, log 16) -/

theorem test_table_word_first_byte_low :
    decodeTableWord 64 0x3412D007_8205A55A = some (.wrReq 0x07D0 0x1234) := by decide
theorem test_table_word_first_byte_leftmost :
    decodeTableWord 56 0x5AA50483_07D001 = some (.rdReq 0x07D0) := by decide
theorem test_table_word_host_code : decodeTableWord 8 2 = some (.writeFloat 0 0 false 0) := by decide
theorem test_table_word_ack :
    decodeTableWord 48 0x4B4F_8203A55A = some (.wrAck [0x5A, 0xA5, 0x03, 0x82, 0x4F, 0x4B]) := by decide
theorem test_fetched_word_runs :
    (after (step (State.reset.withFetchWord 64 0x3412D007_8205A55A))).map (·.env.txlog)
      = some [⟨[0x5A, 0xA5, 0x05, 0x82, 0x07, 0xD0, 0x12, 0x34], 8⟩] := by decide

/-! ## One step of each instruction -/

/-- V-WR-5: bits 31:16 of the operand are ignored. -/
theorem test_writeReg_sends_v_wr_5 :
    (after (exec (.writeReg 0x07D0 0xDEAD1234 false 0)
      (running (.send .zero) ⟨0, 0x07D0, 0xDEAD1234, false, 0⟩))).map (·.env.txlog)
      = some [⟨[0x5A, 0xA5, 0x05, 0x82, 0x07, 0xD0, 0x12, 0x34], 8⟩] := by decide
/-- V-WR-3: no acknowledgement at all, and `OK`. -/
theorem test_writeReg_ends_v_wr_3 :
    (after (exec (.writeReg 0x07D0 0x1234 false 0)
      (reading (.check .zero) writeCmd [] .six))).map (·.res) = some ⟨0, none, none, none⟩ := by decide

/-- S2, V-RD-1. -/
theorem test_readReg_value_s2 :
    (after (exec (.readReg 0x07D0 0 false 0)
      (reading (.check .zero) readCmd goodResponse .nine))).map (·.res)
      = some ⟨0, some 0x04D2, none, none⟩ := by decide
/-- V-RD-8: eight good bytes are no response. -/
theorem test_readReg_short_v_rd_8 :
    (after (exec (.readReg 0x07D0 0 false 0)
      (reading (.check .zero) readCmd (goodResponse.take 8) .nine))).map (·.res)
      = some ⟨1, none, some [0x5A, 0xA5, 0x04, 0x83, 0x07, 0xD0, 0x01, 0x04], none⟩ := by decide

/-- V-FL-21: the low word of a float at 0xFFFF goes to 0. -/
theorem test_writeFloat_wraps_v_fl_21 :
    (after (exec (.writeFloat 0xFFFF 0xBF800000 false 0)
      (running (.send .one) writeFloatCmd))).map (·.env.txlog)
      = some [⟨[0x5A, 0xA5, 0x05, 0x82, 0x00, 0x00, 0x00, 0x00], 8⟩] := by decide
theorem test_writeFloat_goes_on_to_trip_1 :
    (after (exec (.writeFloat 0xFFFF 0xBF800000 false 0)
      (reading (.check .zero) writeFloatCmd [0] .six))).map (·.seq) = some (.send .one) := by decide

/-- V-FL-20: the two words joined. -/
theorem test_readFloat_joins_v_fl_20 :
    (after (exec (.readFloat 0x1000 0 false 0)
      { reading (.check .one) readFloatCmd [0x5A, 0xA5, 0x04, 0x83, 0x10, 0x01, 0x01, 0x0E, 0x56] .nine
        with hiword := 0x4049 })).map (·.res) = some ⟨0, some 0x40490E56, none, none⟩ := by decide
theorem test_readFloat_keeps_the_high_word_v_fl_20 :
    (after (exec (.readFloat 0x1000 0 false 0)
      (reading (.check .zero) readFloatCmd [0x5A, 0xA5, 0x04, 0x83, 0x10, 0x00, 0x01, 0x40, 0x49]
        .nine))).map (fun s => (s.seq, s.hiword)) = some (.send .one, 0x4049) := by decide

theorem test_wrReq_starts_the_reader :
    (after (exec (.wrReq 0x07D0 0x1234) (running (.send .zero) writeCmd))).map
      (fun s => (s.seq, s.need, s.deadline)) = some (.recv .zero, .six, 100) := by decide
theorem test_wrReq_is_not_a_read :
    (after (exec (.wrReq 0x07D0 0x1234) (running (.send .zero) readCmd))).map (·.env.txlog)
      = some [] := by decide
theorem test_rdReq_is_sent_s2 :
    (after (exec (.rdReq 0x07D0) (running (.send .zero) readCmd))).map (·.env.txlog)
      = some [⟨[0x5A, 0xA5, 0x04, 0x83, 0x07, 0xD0, 0x01], 7⟩] := by decide
/-- V-RD-30: a fault of `TxWrite`; no reader run. -/
theorem test_rdReq_fault_v_rd_30 :
    (after (exec (.rdReq 0x07D0)
      { running (.send .zero) readCmd with
        env := { State.reset.env with txFault := some ⟨⟨7⟩, 3⟩ } })).map (fun s => (s.seq, s.res))
      = some (.done, ⟨2, none, none, some ⟨7⟩⟩) := by decide
/-- V-RD-3: the length byte 06 is as good as 04. -/
theorem test_rdRsp_v_rd_3 :
    (after (exec (.rdRsp 0x06 0x00 0x10 0x01 0xAB 0xCD)
      (reading (.check .zero) readCmd [0x5A, 0xA5, 0x06, 0x83, 0x00, 0x10, 0x01, 0xAB, 0xCD]
        .nine))).map (·.res) = some ⟨0, some 0x0000ABCD, none, none⟩ := by decide
/-- V-WR-2: six zero bytes are an acknowledgement. -/
theorem test_wrAck_v_wr_2 :
    (after (exec (.wrAck [0, 0, 0, 0, 0, 0])
      (reading (.check .zero) writeCmd [0, 0, 0, 0, 0, 0] .six))).map (fun s => (s.seq, s.res))
      = some (.done, ⟨0, none, none, none⟩) := by decide

/-! ## The reader, the other agents, the one stop -/

/-- V-RX-9: five bytes are there and one is taken. -/
theorem test_poll_takes_one_v_rx_9 :
    (after (step (received (reading (.recv .zero) readCmd [] .nine) [0x11, 0x22, 0x33, 0x44, 0x55]))).map
      (fun s => (s.acc, s.env.rxq)) = some ([0x11], [0x22, 0x33, 0x44, 0x55]) := by decide
/-- V-RX-7: a byte that is there at the deadline stays. -/
theorem test_poll_at_the_deadline_v_rx_7 :
    (after (step { received (reading (.recv .zero) writeCmd [] .six) [0x4B] with deadline := 0 })).map
      (fun s => (s.seq, s.acc, s.env.rxq)) = some (.check .zero, [], [0x4B]) := by decide
/-- V-RX-11: a fault of `RxReadOne` that removes nothing; what was read is not reported. -/
theorem test_poll_read_fault_v_rx_11 :
    (after (step { reading (.recv .zero) readCmd [0x5A, 0xA5] .nine with
      env := { State.reset.env with rxq := [0x04, 0x83], readFault := some ⟨⟨1⟩, false⟩ } })).map
      (fun s => (s.res, s.env.rxq)) = some (⟨2, none, none, some ⟨1⟩⟩, [0x04, 0x83]) := by decide
/-- R162: reset leaves the receive queue. -/
theorem test_reset_keeps_the_queue :
    (after (step (scheduled (received (running (.recv .one) readFloatCmd) [0x99]) [.reset]))).map
      (fun s => (s.seq, s.env.rxq)) = some (.idle, [0x99]) := by decide
/-- D26: the ideal device answers a read with what it holds. -/
theorem test_ideal_device_answers_d26 :
    idealDevice [0x5A, 0xA5, 0x04, 0x83, 0x07, 0xD0, 0x01] [(0x07D0, 0x04D2)]
      = ([(0x07D0, 0x04D2)], goodResponse) := by decide

/-! ## Witnesses: for every obligation with hypotheses, a state and operands that meet all of them -/

theorem witness_DecodeOfEncodeIsTheInstruction :
    (Instr.wrAck [1, 2, 3, 4, 5, 6]).wf = true ∧ (Instr.rdRsp 4 0 0 1 0xFF 0xFF).wf = true ∧
      (Instr.writeFloat 0xFFFF 0xFFFFFFFF true 0).wf = true := by decide
theorem witness_EncodeOfDecodeIsTheInput :
    decode (.frame .wrAck [1, 2, 3, 4, 5, 6]) = .instr (.wrAck [1, 2, 3, 4, 5, 6]) ∧
      decode (.command ⟨3, 0xFFFF, 0, true, 9⟩) = .instr (.readFloat 0xFFFF 0 true 9) := by decide
theorem witness_AcceptedResponsesAreExactlyThese :
    validate goodResponse = true ∧ validate [0x5A, 0xA5, 0xFF, 0x83, 0, 0, 0, 0xFF, 0xFF] = true := by
  decide
theorem witness_UncheckedResponseBytesDoNotMatter :
    (running (.check .one) readFloatCmd).seq = .check .one ∧
      isRead (running (.check .one) readFloatCmd).cmd.op = true ∧
      (running (.check .zero) readCmd).seq = .check .zero ∧
      isRead (running (.check .zero) readCmd).cmd.op = true := by decide
theorem witness_FloatPatternSplitsAndJoins :
    (0xFF800001 : Pattern).toNat = (0x01 : Byte).toNat + 256 * (0x00 : Byte).toNat
      + 65536 * (0x80 : Byte).toNat + 16777216 * (0xFF : Byte).toNat := by decide
theorem witness_HostCodesNameTheOperations :
    (writeCmd.op = 0 ∨ writeCmd.op = 2) ∧ (readCmd.op = 1 ∨ readCmd.op = 3) := by decide
theorem witness_ResetAbandonsTheCommand :
    (scheduled (running (.recv .one) readFloatCmd) [.reset, .block]).env.sched = .reset :: [.block] :=
  rfl
theorem witness_ResultRegistersEncodeTheResult :
    (Result.ok).possible 2 ∧ (Result.okReg 0xFFFF).possible 1 ∧ (Result.okFloat 0xFFFFFFFF).possible 3 ∧
      (Result.invalidResponse [0x5B, 0xA5, 4, 0x83, 7, 0xD0, 1, 4, 0xD2]).possible 1 ∧
      (Result.invalidResponse []).possible 3 ∧ (Result.transportError ⟨0⟩).possible 0 ∧
      ([0x5B, 0xA5, 4, 0x83, 7, 0xD0, 1, 4, 0xD2] : Bytes).length ≤ 9 := by
  simp only [Result.possible]
  decide

/-- A request, a reply that decodes, and a command at the port. -/
theorem witness_StepRunsTheDecodedInstruction_runs :
    (running (.send .one) writeFloatCmd).blockTurn ∧
      (∃ e, (running (.send .one) writeFloatCmd).encodedAt = some e ∧ decode e = .instr (.wrReq 0 0)) ∧
      (∃ e, (reading (.check .zero) readCmd goodResponse .nine).encodedAt = some e ∧
        decode e = .instr (.rdRsp 4 7 0xD0 1 4 0xD2)) ∧
      (∃ e, (State.reset.placeCommand readCmd).encodedAt = some e ∧
        decode e = .instr (.readReg 0x07D0 0 false 0)) :=
  ⟨.inl rfl, ⟨_, rfl, by decide⟩, ⟨_, rfl, by decide⟩, ⟨_, rfl, by decide⟩⟩
/-- A response one byte short. -/
theorem witness_StepRunsTheDecodedInstruction_rejected :
    (scheduled (reading (.check .zero) readCmd (goodResponse.take 8) .nine) [.block]).blockTurn ∧
      ∃ e, (scheduled (reading (.check .zero) readCmd (goodResponse.take 8) .nine) [.block]).encodedAt
        = some e ∧ decode e = .rejected .wrongLength :=
  ⟨.inr ⟨[], rfl⟩, _, rfl, by decide⟩
theorem witness_StepRunsTheDecodedInstruction_nothing :
    State.reset.blockTurn ∧ State.reset.encodedAt = none := ⟨.inl rfl, rfl⟩
theorem witness_PlacedInstructionRunsNext :
    (Instr.wrReq 0xFFFF 0xFFFF).wf = true ∧ (Instr.wrAck []).wf = true := by decide
theorem witness_EnvironmentMovesLeaveTheBlockAlone :
    (scheduled State.reset [.device 0xFF]).env.sched = .device 0xFF :: [] ∧
      (scheduled State.reset [.clock 1]).env.sched = .clock 1 :: [] ∧
      (scheduled State.reset [.serve]).env.sched = .serve :: [] ∧
      Move.serve ≠ .block ∧ Move.serve ≠ .retire ∧ Move.serve ≠ .reset := by decide
theorem witness_TimeNeverDecreases : ∃ t, step (scheduled State.reset [.clock 5]) = .next t := ⟨_, rfl⟩
theorem witness_BlockIsStillWhenNotBusy :
    State.reset.blockTurn ∧ (State.reset.seq = .idle ∧ State.reset.env.port = none) ∧
      (running .done readCmd).blockTurn ∧ (running .done readCmd).seq = .done :=
  ⟨.inl rfl, ⟨rfl, rfl⟩, .inl rfl, rfl⟩
theorem witness_HostOperationIsAcceptedWhenIdle : State.reset.seq = .idle := rfl
/-- A poll with another command at the port, one that stops, and `DONE`. -/
theorem witness_HostOperationWaitsItsTurn :
    (waiting.withPort (some readFloatCmd)).seq ≠ .idle ∧
      (waiting.withPort (some readFloatCmd)).blockTurn ∧
      (∃ t, step (waiting.withPort (some readFloatCmd)) = .next t) ∧
      { waiting with env := { waiting.env with overcount := 1 } }.blockTurn ∧
      step { waiting with env := { waiting.env with overcount := 1 } } = .fault .readOneUnavailable ∧
      (waiting.withPort (some readFloatCmd)).cmd ≠ readFloatCmd ∧
      (running .done readCmd).seq ≠ .idle ∧ (running .done readCmd).seq = .done :=
  ⟨by decide, .inl rfl, ⟨_, rfl⟩, .inl rfl, rfl, by decide, by decide, rfl⟩
theorem witness_WriteRegHandsOverItsRequest :
    (running (.send .zero) ⟨0, 0xFFFF, 0xFFFFFFFF, true, 0⟩).running
      ⟨0, 0xFFFF, 0xFFFFFFFF, true, 0⟩ (.send .zero) ∧
      (running (.send .zero) ⟨0, 0xFFFF, 0xFFFFFFFF, true, 0⟩).env.txFault = none := ⟨⟨rfl, rfl⟩, rfl⟩
theorem witness_ReadRegHandsOverItsRequest :
    (running (.send .zero) readCmd).running ⟨1, 0x07D0, 0, false, 0⟩ (.send .zero) ∧
      (running (.send .zero) readCmd).env.txFault = none := ⟨⟨rfl, rfl⟩, rfl⟩
theorem witness_WriteFloatHandsOverBothWords :
    (running (.send .zero) writeFloatCmd).env.txFault = none ∧
      (running (.send .zero) writeFloatCmd).running ⟨2, 0xFFFF, 0xBF800000, false, 0⟩ (.send .zero) ∧
      (running (.send .one) writeFloatCmd).env.txFault = none ∧
      (running (.send .one) writeFloatCmd).running ⟨2, 0xFFFF, 0xBF800000, false, 0⟩ (.send .one) :=
  ⟨rfl, ⟨rfl, rfl⟩, rfl, ⟨rfl, rfl⟩⟩
theorem witness_ReadFloatHandsOverBothRequests :
    (running (.send .zero) readFloatCmd).env.txFault = none ∧
      (running (.send .zero) readFloatCmd).running ⟨3, 0x1000, 0, false, 0⟩ (.send .zero) ∧
      (running (.send .one) readFloatCmd).env.txFault = none ∧
      (running (.send .one) readFloatCmd).running ⟨3, 0x1000, 0, false, 0⟩ (.send .one) :=
  ⟨rfl, ⟨rfl, rfl⟩, rfl, ⟨rfl, rfl⟩⟩
theorem witness_RequestFrameIsHandedOver :
    (running (.send .one) writeFloatCmd).seq = .send .one ∧
      (running (.send .one) writeFloatCmd).env.txFault = none ∧
      isRead (running (.send .one) writeFloatCmd).cmd.op = false ∧
      (running (.send .zero) readCmd).seq = .send .zero ∧
      (running (.send .zero) readCmd).env.txFault = none ∧
      isRead (running (.send .zero) readCmd).cmd.op = true := by decide

/-- A transport whose `TxWrite` faults after one byte. -/
def faulting (s : State) : State := { s with env := { s.env with txFault := some ⟨⟨9⟩, 1⟩ } }

theorem witness_TransmitFaultEndsTheCommand :
    (faulting (running (.send .one) writeFloatCmd)).seq = .send .one ∧
      (faulting (running (.send .one) writeFloatCmd)).env.txFault = some ⟨⟨9⟩, 1⟩ ∧
      isRead (faulting (running (.send .one) writeFloatCmd)).cmd.op = false ∧
      (faulting (running (.send .zero) readCmd)).seq = .send .zero ∧
      (faulting (running (.send .zero) readCmd)).env.txFault = some ⟨⟨9⟩, 1⟩ ∧
      isRead (faulting (running (.send .zero) readCmd)).cmd.op = true := by decide

/-- The run over by count (at the boundary), and by time (at the boundary). -/
theorem witness_PollTakesAtMostOneByte_over :
    (reading (.recv .zero) readCmd goodResponse .nine).seq = .recv .zero ∧
      (reading (.recv .zero) readCmd goodResponse .nine).need.count
        ≤ (reading (.recv .zero) readCmd goodResponse .nine).acc.length ∧
      (running (.recv .one) readFloatCmd).seq = .recv .one ∧
      (running (.recv .one) readFloatCmd).deadline ≤ (running (.recv .one) readFloatCmd).env.now := by
  decide

theorem witness_PollTakesAtMostOneByte_nothing :
    waiting.seq = .recv .zero ∧ waiting.acc.length < waiting.need.count ∧
      waiting.env.now < waiting.deadline ∧ waiting.env.availFault = none ∧ waiting.env.rxq = [] ∧
      waiting.env.overcount = 0 := by decide
theorem witness_PollTakesAtMostOneByte_availFault :
    ∃ s : State, s.seq = .recv .zero ∧ s.acc.length < s.need.count ∧ s.env.now < s.deadline ∧
      s.env.availFault = some ⟨3⟩ :=
  ⟨{ waiting with env := { waiting.env with availFault := some ⟨3⟩ } }, by decide⟩
theorem witness_PollTakesAtMostOneByte_readFault :
    ∃ s : State, s.seq = .recv .zero ∧ s.acc.length < s.need.count ∧ s.env.now < s.deadline ∧
      s.env.availFault = none ∧ s.env.rxq.length + s.env.overcount ≠ 0 ∧
      s.env.readFault = some ⟨⟨3⟩, true⟩ :=
  ⟨{ waiting with env := { waiting.env with overcount := 1, readFault := some ⟨⟨3⟩, true⟩ } },
    by decide⟩
theorem witness_PollTakesAtMostOneByte_byte :
    (received waiting [0xD2]).seq = .recv .zero ∧
      (received waiting [0xD2]).acc.length < (received waiting [0xD2]).need.count ∧
      (received waiting [0xD2]).env.now < (received waiting [0xD2]).deadline ∧
      (received waiting [0xD2]).env.availFault = none ∧
      (received waiting [0xD2]).env.readFault = none ∧
      (received waiting [0xD2]).env.rxq = 0xD2 :: [] := by decide
theorem witness_AcknowledgementIsDiscarded :
    (running (.check .zero) writeCmd).running ⟨0, 0x07D0, 0x1234, false, 0⟩ (.check .zero) ∧
      (running (.check .zero) writeFloatCmd).running ⟨2, 0xFFFF, 0xBF800000, false, 0⟩ (.check .zero) ∧
      (running (.check .one) writeFloatCmd).running ⟨2, 0xFFFF, 0xBF800000, false, 0⟩ (.check .one) :=
  ⟨⟨rfl, rfl⟩, ⟨rfl, rfl⟩, rfl, rfl⟩
theorem witness_ValidResponseGivesItsValue :
    (reading (.check .zero) readCmd goodResponse .nine).acc
        = [0x5A, 0xA5, 0x04, 0x83, 0x07, 0xD0, 0x01, 0x04, 0xD2] ∧
      (reading (.check .zero) readCmd goodResponse .nine).running ⟨1, 0x07D0, 0, false, 0⟩
        (.check .zero) ∧
      (reading (.check .zero) readFloatCmd goodResponse .nine).running ⟨3, 0x1000, 0, false, 0⟩
        (.check .zero) ∧
      (reading (.check .one) readFloatCmd goodResponse .nine).running ⟨3, 0x1000, 0, false, 0⟩
        (.check .one) := ⟨rfl, ⟨rfl, rfl⟩, ⟨rfl, rfl⟩, rfl, rfl⟩
theorem witness_InvalidResponseIsRaised :
    (¬ ((goodResponse.take 8).length = 9 ∧ (goodResponse.take 8)[0]? = some 0x5A ∧
      (goodResponse.take 8)[1]? = some 0xA5 ∧ (goodResponse.take 8)[3]? = some 0x83)) ∧
      (reading (.check .zero) readCmd (goodResponse.take 8) .nine).running ⟨1, 0x07D0, 0, false, 0⟩
        (.check .zero) ∧
      (reading (.check .one) readFloatCmd (goodResponse.take 8) .nine).running
        ⟨3, 0x1000, 0, false, 0⟩ (.check .one) := ⟨by decide, ⟨rfl, rfl⟩, rfl, rfl⟩
theorem witness_RetireReturnsToIdle :
    (scheduled (running .done readCmd) [.retire]).env.sched = .retire :: [] ∧
      (scheduled (running .done readCmd) [.retire]).seq = .done ∧
      (scheduled State.reset [.retire]).env.sched = .retire :: [] ∧
      (scheduled State.reset [.retire]).seq ≠ .done := by decide
theorem witness_FrameOutsideItsStepDoesNothing :
    (∀ k, State.reset.seq ≠ .send k) ∧ (∀ k, State.reset.seq ≠ .check k) ∧
      isRead (running (.send .zero) readCmd).cmd.op = true ∧
      isRead (running (.send .zero) writeCmd).cmd.op = false :=
  ⟨nofun, nofun, by decide, by decide⟩
theorem witness_CommandStepIsItsFramesStep : (running (.check .one) readFloatCmd).busy = true := by decide
theorem witness_SequencerFollowsTheTable :
    (received waiting [0xD2]).blockTurn ∧ ∃ t, step (received waiting [0xD2]) = .next t :=
  ⟨.inl rfl, _, rfl⟩
theorem witness_LatchesAreWrittenOnlyByAccept :
    (∃ t, exec (.readReg 0x07D0 0 false 0) State.reset = .next t ∧ t.cmd ≠ State.reset.cmd) ∧
      (∃ t, step (State.reset.placeCommand readCmd) = .next t ∧ t.cmd ≠ State.reset.cmd) ∧
      (∃ t, step (scheduled (running (.recv .zero) readCmd) [.reset]) = .next t ∧ t.cmd ≠ readCmd) :=
  ⟨⟨_, rfl, by decide⟩, ⟨_, rfl, by decide⟩, ⟨_, rfl, by decide⟩⟩
theorem witness_ReaderRegistersAreWrittenBySendAndPoll :
    (∃ t, exec (.rdReq 0x07D0) (running (.send .zero) readCmd) = .next t) ∧
      ∃ t, exec (.readReg 0x07D0 0 false 0) (received waiting [0xD2]) = .next t := ⟨⟨_, rfl⟩, _, rfl⟩
theorem witness_HighWordIsWrittenByTheFirstReadTrip :
    ∃ t, exec (.rdRsp 4 0x10 0 1 0x40 0x49) (running (.check .zero) readFloatCmd) = .next t ∧
      t.hiword ≠ (running (.check .zero) readFloatCmd).hiword := ⟨_, rfl, by decide⟩
theorem witness_ResultRegistersAreWrittenAtTheEnd :
    (∃ t, exec (.readReg 0x07D0 0 false 0) (reading (.check .zero) readCmd goodResponse .nine)
        = .next t ∧ t.res ≠ State.reset.res) ∧
      (∃ t, step (reading (.check .zero) readCmd goodResponse .nine) = .next t ∧
        t.res ≠ State.reset.res) :=
  ⟨⟨_, rfl, by decide⟩, ⟨_, rfl, by decide⟩⟩
theorem witness_StreamsAreTouchedOnlyBySendAndPoll :
    (∃ t, exec (.wrReq 0 0) (running (.send .zero) writeCmd) = .next t) ∧
      ∃ t, exec (.readReg 0x07D0 0 false 0) (received waiting [0xD2]) = .next t := ⟨⟨_, rfl⟩, _, rfl⟩
theorem witness_InstructionsLeaveTheEnvironmentAlone :
    (∃ t, exec (.wrAck []) (running (.check .zero) writeCmd) = .next t) ∧
      (∃ t, exec (.writeFloat 0 0 false 0) (State.reset.placeCommand ⟨2, 0, 0, false, 0⟩) = .next t) ∧
      ∃ t, exec (.rdRsp 4 0 0 1 0 0) (running (.check .one) readFloatCmd) = .next t :=
  ⟨⟨_, rfl⟩, ⟨_, rfl⟩, _, rfl⟩
theorem witness_NoByteIsRemovedAtOrAfterTheDeadline :
    (received waiting [0xD2]).blockTurn ∧
      ∃ t, step (received waiting [0xD2]) = .next t ∧ t.env.rxq ≠ [0xD2] :=
  ⟨.inl rfl, _, rfl, by decide⟩
theorem witness_WritesNeverEndInvalid :
    (running (.check .zero) writeCmd).busy = true ∧ isRead (running (.check .zero) writeCmd).cmd.op = false ∧
      (∃ t, step (running (.check .zero) writeCmd) = .next t ∧ t.seq = .done) ∧
      ∃ t, step (faulting (running (.send .one) writeFloatCmd)) = .next t ∧ t.seq = .done :=
  ⟨by decide, by decide, ⟨_, rfl, by decide⟩, _, rfl, by decide⟩
/-- Both sides of the statement are met: the one stop, and a state just beside it. -/
theorem witness_StopsOnlyAtABrokenTransport :
    step { waiting with env := { waiting.env with overcount := 1 } } = .fault .readOneUnavailable ∧
      ∃ t, step waiting = .next t := ⟨rfl, _, rfl⟩
theorem witness_EveryStepKeepsTheInvariant :
    Inv State.reset ∧ ∃ t, step (scheduled State.reset [.poke 0xFFFF 1]) = .next t :=
  ⟨⟨nofun, nofun, nofun, nofun, nofun, by decide, nofun, reset_dev_wf⟩, _, rfl⟩
/-- Two states that differ in dead registers alone, idle and in the middle of a command. -/
theorem witness_DeadRegistersAreNeverObserved :
    LiveEq State.reset { State.reset with hiword := 0xFFFF, deadline := 7, acc := [1] } ∧
      LiveEq (running (.recv .zero) readFloatCmd)
        { running (.recv .zero) readFloatCmd with hiword := 0xFFFF, res := ⟨2, none, none, some ⟨1⟩⟩ } := by
  constructor
  · exact ⟨rfl, rfl, nofun, nofun, nofun, nofun⟩
  · exact ⟨rfl, rfl, fun _ => rfl, fun _ _ => ⟨rfl, rfl, rfl⟩, nofun, nofun⟩
/-- A `WRITE_REG` with a zero timeout: from SEND to its end in three steps, and on the way. -/
theorem witness_StepsAgreeWithTheFunctions :
    (running (.send .zero) ⟨0, 0x07D0, 0x1234, true, 0⟩).seq = .send .zero ∧
      Move.reset ∉ (running (.send .zero) ⟨0, 0x07D0, 0x1234, true, 0⟩).env.sched ∧
      (∃ r, traceRun 3 (running (.send .zero) ⟨0, 0x07D0, 0x1234, true, 0⟩) = some r ∧
        r.state.seq = .done) ∧
      ∃ r, traceRun 1 (running (.send .zero) ⟨0, 0x07D0, 0x1234, true, 0⟩) = some r ∧
        r.state.seq = .recv .zero := ⟨rfl, nofun, ⟨_, rfl, rfl⟩, _, rfl, rfl⟩
theorem witness_ZeroTimeoutRemovesNothing :
    ∃ s : State, s.seq = .send .one ∧ s.env.txFault = none ∧ tmoEff s.cmd s.env.tDefault = 0 ∧
      s.env.sched = [.block, .clock 3, .block, .block] ++ [] :=
  ⟨scheduled (running (.send .one) ⟨2, 0, 0, true, 0⟩) [.block, .clock 3, .block, .block], by decide⟩

/-- An idle block with a command at its port and the whole of its run to come. -/
def whole (c : HostCmd) (moves : List Move) : State :=
  { State.reset with env := { State.reset.env with port := some c, sched := .block :: moves } }

theorem witness_WriteRegEndsOkWhateverComesBack :
    ∃ s : State, s.seq = .idle ∧ s.env.port = some ⟨0, 0xFFFF, 0xFFFFFFFF, true, 1⟩ ∧
      s.env.wellBehaved ∧ 0 < 1 ∧ 1 ≤ 1 ∧
      s.env.sched = .block :: (tripMoves 6 1 [1, 2, 3, 4, 5, 6, 7] ++ []) :=
  ⟨whole ⟨0, 0xFFFF, 0xFFFFFFFF, true, 1⟩ (tripMoves 6 1 [1, 2, 3, 4, 5, 6, 7] ++ []),
    rfl, rfl, ⟨rfl, rfl, rfl, rfl⟩, by decide, by decide, rfl⟩
/-- A run that ends with a value, and one that ends with the bytes. -/
theorem witness_ReadRegEndsWithTheValueOrTheBytes :
    ∃ s s' : State,
      (s.seq = .idle ∧ s.env.port = some ⟨1, 0x07D0, 0, true, 5⟩ ∧ s.env.wellBehaved ∧ 0 < 5 ∧ 5 ≤ 5 ∧
        s.env.sched = .block :: (tripMoves 9 5 goodResponse ++ []) ∧
        validate ((s.env.rxq ++ goodResponse).take 9) = true) ∧
      (s'.seq = .idle ∧ s'.env.port = some ⟨1, 0x07D0, 0, true, 5⟩ ∧ s'.env.wellBehaved ∧
        s'.env.sched = .block :: (tripMoves 9 5 [] ++ []) ∧
        validate ((s'.env.rxq ++ []).take 9) = false) :=
  ⟨whole ⟨1, 0x07D0, 0, true, 5⟩ (tripMoves 9 5 goodResponse ++ []),
    whole ⟨1, 0x07D0, 0, true, 5⟩ (tripMoves 9 5 [] ++ []),
    ⟨rfl, rfl, ⟨rfl, rfl, rfl, rfl⟩, by decide, by decide, rfl, by decide⟩,
    ⟨rfl, rfl, ⟨rfl, rfl, rfl, rfl⟩, rfl, by decide⟩⟩
theorem witness_WriteFloatSendsBothWordsAndEndsOk :
    ∃ s : State, s.seq = .idle ∧ s.env.port = some ⟨2, 0xFFFF, 0xBF800000, true, 1⟩ ∧
      s.env.wellBehaved ∧ 0 < 1 ∧ 1 ≤ 2 ∧
      s.env.sched = .block :: (tripMoves 6 2 [1] ++ (tripMoves 6 2 [] ++ [.retire])) :=
  ⟨whole ⟨2, 0xFFFF, 0xBF800000, true, 1⟩ (tripMoves 6 2 [1] ++ (tripMoves 6 2 [] ++ [.retire])),
    rfl, rfl, ⟨rfl, rfl, rfl, rfl⟩, by decide, by decide, rfl⟩
/-- The two branches: trip 0 fails; trip 0 is valid. -/
theorem witness_ReadFloatJoinsBothWordsOrStops :
    ∃ s s' : State,
      (s.seq = .idle ∧ s.env.port = some ⟨3, 0x1000, 0, true, 5⟩ ∧ s.env.wellBehaved ∧ 0 < 5 ∧ 5 ≤ 5 ∧
        s.env.sched = .block :: (tripMoves 9 5 [] ++ (tripMoves 9 5 [] ++ [])) ∧
        validate ((s.env.rxq ++ []).take 9) = false) ∧
      (s'.seq = .idle ∧ s'.env.port = some ⟨3, 0x1000, 0, true, 5⟩ ∧ s'.env.wellBehaved ∧
        s'.env.sched = .block :: (tripMoves 9 5 goodResponse ++ (tripMoves 9 5 goodResponse ++ [])) ∧
        validate ((s'.env.rxq ++ goodResponse).take 9) = true) :=
  ⟨whole ⟨3, 0x1000, 0, true, 5⟩ (tripMoves 9 5 [] ++ (tripMoves 9 5 [] ++ [])),
    whole ⟨3, 0x1000, 0, true, 5⟩ (tripMoves 9 5 goodResponse ++ (tripMoves 9 5 goodResponse ++ [])),
    ⟨rfl, rfl, ⟨rfl, rfl, rfl, rfl⟩, by decide, by decide, rfl, by decide⟩,
    ⟨rfl, rfl, ⟨rfl, rfl, rfl, rfl⟩, rfl, by decide⟩⟩
theorem witness_FloatRoundTripOnTheIdealDevice :
    ∃ s : State, s.seq = .idle ∧ s.env.wellBehaved ∧ s.env.rxq = [] ∧
      s.env.served = s.env.txlog.length ∧ s.env.dev.wf ∧ 0 < s.env.tDefault ∧
      s.env.sched = floatRoundTrip 0xFFFF 0x7FC00001 0 false 0 ++ [.block] :=
  ⟨scheduled State.reset (floatRoundTrip 0xFFFF 0x7FC00001 0 false 0 ++ [.block]),
    rfl, ⟨rfl, rfl, rfl, rfl⟩, rfl, rfl, reset_dev_wf, by decide, rfl⟩
theorem witness_EveryCommandEndsWhenTimePasses :
    ∃ s : State, s.busy = true ∧ s.env.overcount = 0 ∧ tmoEff s.cmd s.env.tDefault ≤ 101 ∧
      (∀ k, s.seq = .recv k → s.deadline ≤ s.env.now + 101) ∧ s.seq = .recv .zero ∧
      s.env.sched = fairMoves 101 ++ [.retire] :=
  ⟨scheduled (reading (.recv .zero) readFloatCmd [] .nine) (fairMoves 101 ++ [.retire]),
    by decide, by decide, by decide, fun _ _ => by decide, rfl, rfl⟩
theorem witness_StoredRegisterReadsBack :
    Memory.wf [(0, 1), (65535, 0xFFFF)] ∧ Memory.wf [] := by decide

/-- A schedule that is not `tripMoves`: a byte before SEND, polls before anything arrives, a byte between
two polls, the default changed in mid-run, and then time enough. -/
def uneven : List Move :=
  [.device 1, .block, .block, .device 2, .block, .setDefault 3, .present none, .clock 1, .block]
    ++ (fairMoves 101 ++ [.retire])

theorem witness_uneven :
    (∀ m ∈ uneven, m.quiet = true) ∧ (∀ m ∈ uneven, m.exclusive = true) ∧
      timeEnough writeCmd 100 uneven 22 ∧ timeEnough readFloatCmd 100 uneven 22 := by
  refine ⟨by decide, by decide, ⟨_, _, 101, rfl, by decide, ?_, by decide⟩,
    ⟨_, _, 101, rfl, by decide, ?_, by decide⟩⟩ <;>
  · intro d h
    simp only [List.mem_cons, Move.setDefault.injEq, reduceCtorEq, false_or, or_false,
      List.not_mem_nil] at h
    subst h
    decide
/-- Both operations, on the schedule above, and the end that the statement speaks of. -/
theorem witness_WritesEndOkOnEverySchedule :
    (whole writeCmd uneven).seq = .idle ∧ (whole writeCmd uneven).env.port = some writeCmd ∧
      (whole writeCmd uneven).env.wellBehaved ∧
      (whole writeCmd uneven).env.sched = .block :: uneven ∧
      writeCmd.op = 0 ∧ writeFloatCmd.op = 2 ∧
      (∃ r, traceRun 22 (whole writeCmd uneven) = some r ∧ r.state.seq = .done) ∧
      ∃ r, traceRun 22 (whole writeFloatCmd uneven) = some r ∧ r.state.seq = .done :=
  ⟨rfl, rfl, ⟨rfl, rfl, rfl, rfl⟩, rfl, rfl, rfl, ⟨_, rfl, rfl⟩, _, rfl, rfl⟩
/-- Both operations; each clause about `DONE` is met: a first response that is not valid, and one that is. -/
theorem witness_ReadsEndWithTheBytesRemovedOnEverySchedule :
    (whole readCmd uneven).seq = .idle ∧ (whole readCmd uneven).env.port = some readCmd ∧
      (whole readCmd uneven).env.wellBehaved ∧ isRead readCmd.op = true ∧ readCmd.op = 1 ∧
      isRead readFloatCmd.op = true ∧ readFloatCmd.op = 3 ∧
      (∃ r, traceRun 22 (whole readCmd uneven) = some r ∧ r.state.seq = .done) ∧
      (∃ r, traceRun 22 (whole readFloatCmd uneven) = some r ∧ r.state.seq = .done ∧
        validate (r.removed.take 9) = false) ∧
      ∃ r, traceRun 40 (whole readFloatCmd (tripMoves 9 100 goodResponse ++ fairMoves 100)) = some r ∧
        r.state.seq = .done ∧ validate (r.removed.take 9) = true :=
  ⟨rfl, rfl, ⟨rfl, rfl, rfl, rfl⟩, rfl, rfl, rfl, rfl, ⟨_, rfl, rfl⟩, ⟨_, rfl, rfl, rfl⟩,
    _, rfl, rfl, rfl⟩

end Sys2Proof.Tests
end

section
/-! PROOFS. The statements on the state, its ports and reset (10_state.md), and the lemmas they rest on:
the block's step phase by phase, the frame of the other agents' moves, and `LiveEq` for each operation. -/

namespace Sys2Proof.Machine

/-! ## The block's step, phase by phase (R121 to R125) -/

/-- An instruction that is encoded as a tuple is a step of that command, and its CHECK of a read raises
`InvalidResponse` where `ACC` holds no valid response (R125). -/
theorem exec_of_command {i : Instr} {c : HostCmd} (h : encode i = .command c) (s : State) :
    ∃ send check, exec i s = runCommand c send check s ∧
      ∀ k u, isRead c.op = true → validate u.acc = false →
        check k u = u.finish (.invalidResponse u.acc) := by
  cases i with
  | writeReg =>
    cases h
    rw [exec_writeReg, execWriteReg]
    exact ⟨_, _, rfl, fun _ _ hr => absurd hr (by simp)⟩
  | readReg =>
    cases h
    rw [exec_readReg, execReadReg]
    exact ⟨_, _, rfl, fun _ _ _ hv => by simp [hv]⟩
  | writeFloat =>
    cases h
    rw [exec_writeFloat, execWriteFloat]
    exact ⟨_, _, rfl, fun _ _ hr => absurd hr (by simp)⟩
  | readFloat =>
    cases h
    rw [exec_readFloat, execReadFloat]
    exact ⟨_, _, rfl, fun _ _ _ hv => by simp [hv]⟩
  | _ => cases h

/-- The tuple of the operation a tuple names is that tuple (R60, R61). -/
theorem encode_decodeCommand (c : HostCmd) : encode (decodeCommand c) = .command c := by
  obtain ⟨op, addr, wdata, tmoEn, tmo⟩ := c
  rcases op_cases op with rfl | rfl | rfl | rfl <;> rfl

theorem blockStep_done {s : State} (h : s.seq = .done) : blockStep s = .next s := by
  simp [blockStep, fetch, h]

theorem blockStep_idle_none {s : State} (h : s.seq = .idle) (hp : s.env.port = none) :
    blockStep s = .next s := by
  simp [blockStep, fetch, h, hp]

theorem blockStep_idle_some {s : State} {c : HostCmd} (h : s.seq = .idle)
    (hp : s.env.port = some c) : blockStep s = .next (s.accept c) := by
  obtain ⟨send, check, he, -⟩ := exec_of_command (encode_decodeCommand c) s
  simp [blockStep, fetch, h, hp, he, runCommand_idle h]

/-- The request frame of a trip of a command (R128). -/
def tripFrame (c : HostCmd) (k : Trip) : Bytes :=
  if isRead c.op then encRead (tripAddr c.addr k).toNat
  else encWrite (tripAddr c.addr k).toNat (tripVal c k).toNat

theorem blockStep_send {s : State} {k : Trip} (h : s.seq = .send k) :
    blockStep s = .next (s.sendRequest (tripFrame s.cmd k) k) := by
  cases hr : isRead s.cmd.op <;>
    simp [blockStep, fetch, h, frameInstr, tripFrame, hr, execRdReq, execWrReq]

theorem blockStep_recv {s : State} {k : Trip} (h : s.seq = .recv k) : blockStep s = s.poll k := by
  obtain ⟨send, check, he, -⟩ := exec_of_command (encode_decodeCommand s.cmd) s
  simp [blockStep, fetch, h, he, runCommand_recv ⟨h, rfl⟩]

theorem blockStep_check_write {s : State} {k : Trip} (h : s.seq = .check k)
    (hr : isRead s.cmd.op = false) : blockStep s = .next (s.discardAck k) := by
  simp [blockStep, fetch, h, replyInstr, hr, execWrAck]

theorem blockStep_check_valid {s : State} {k : Trip} (h : s.seq = .check k)
    (hr : isRead s.cmd.op = true) (hv : validate s.acc = true) :
    blockStep s = .next (s.acceptValue (extract s.acc) k) := by
  obtain ⟨len, ah, al, cnt, vh, vl, hs⟩ := (validate_iff s.acc).mp hv
  simp [blockStep, fetch, h, replyInstr, hr, hs, decode, decodeFrame, execRdRsp]

theorem blockStep_check_invalid {s : State} {k : Trip} (h : s.seq = .check k)
    (hr : isRead s.cmd.op = true) (hv : validate s.acc = false) :
    blockStep s = .next (s.finish (.invalidResponse s.acc)) := by
  obtain ⟨send, check, he, hcheck⟩ := exec_of_command (encode_decodeCommand s.cmd) s
  obtain ⟨r, hd⟩ := decodeRdRsp_of_invalid hv
  simp [blockStep, fetch, h, replyInstr, hr, hd, decode, decodeFrame, he,
    runCommand_check ⟨h, rfl⟩, hcheck k s hr hv]

/-! ## What the other agents' moves leave alone (R129) -/

theorem applyMove_cmd (s : State) {m : Move} (hm : m ≠ .reset) : (s.applyMove m).cmd = s.cmd := by
  cases m with
  | reset => exact absurd rfl hm
  | retire => exact retire_cmd s
  | _ => rfl

theorem applyMove_res (s : State) {m : Move} (hm : m ≠ .reset) : (s.applyMove m).res = s.res := by
  cases m with
  | reset => exact absurd rfl hm
  | retire => exact retire_res s
  | _ => rfl

@[simp] theorem retire_now (s : State) : s.retire.env.now = s.env.now := by
  unfold State.retire; split <;> rfl

@[simp] theorem serve_now (e : Env) : e.serve.now = e.now := by
  unfold Env.serve; split <;> rfl

theorem now_le_applyMove (s : State) (m : Move) : s.env.now ≤ (s.applyMove m).env.now := by
  cases m with
  | clock d => exact Nat.le_add_right _ d
  | retire => exact (retire_now s).ge
  | serve => exact (serve_now s.env).ge
  | _ => exact Nat.le_refl s.env.now

/-! ## The busy phases (R16) and the tails of CHECK (R125) -/

section phases
variable {s : State} {k : Trip}

theorem busy_of_send (h : s.seq = .send k) : s.busy = true := (busy_iff s).mpr ⟨k, .inl h⟩
theorem busy_of_recv (h : s.seq = .recv k) : s.busy = true := (busy_iff s).mpr ⟨k, .inr (.inl h)⟩
theorem busy_of_check (h : s.seq = .check k) : s.busy = true := (busy_iff s).mpr ⟨k, .inr (.inr h)⟩

theorem acceptValue_of_reg (v : Half) (h : isFloat s.cmd.op = false) :
    s.acceptValue v k = s.finish (.okReg v) := by simp [State.acceptValue, h]
theorem acceptValue_of_float_zero (v : Half) (h : isFloat s.cmd.op = true) :
    s.acceptValue v .zero = { s with hiword := v, seq := .send .one } := by
  simp [State.acceptValue, h]
theorem acceptValue_of_float_one (v : Half) (h : isFloat s.cmd.op = true) :
    s.acceptValue v .one = s.finish (.okFloat (fjoin s.hiword v)) := by simp [State.acceptValue, h]

end phases

/-! ## Who writes the block's registers (R11 to R17) -/

/-- No instruction moves the clock (R129). -/
theorem Successor.now_eq {s t : State} (h : Successor s t) : t.env.now = s.env.now := by
  cases h <;> rfl

/-- An instruction in `IDLE` is an ACCEPT of the tuple that encodes it, or does nothing (R121, R130). -/
theorem exec_idle (i : Instr) {s : State} (h : s.seq = .idle) :
    exec i s = .next s ∨ ∃ c, encode i = .command c ∧ exec i s = .next (s.accept c) := by
  cases henc : encode i with
  | command c =>
    obtain ⟨send, check, he, -⟩ := exec_of_command henc s
    exact .inr ⟨c, rfl, he.trans (runCommand_idle h)⟩
  | frame kind bytes =>
    refine .inl ?_
    cases i with
    | wrReq => simp [execWrReq, h]
    | rdReq => simp [execRdReq, h]
    | rdRsp => simp [execRdRsp, h]
    | wrAck => simp [execWrAck, h]
    | _ => cases henc

/-- The latches change only in `IDLE`, and the block is then in SEND of trip 0 (R11, R121). -/
theorem Successor.cmd_changed {s t : State} (h : Successor s t) (hc : t.cmd ≠ s.cmd) :
    s.seq = .idle ∧ t.seq = .send .zero := by
  cases h with
  | accepted c hs => exact ⟨hs, rfl⟩
  | _ => exact absurd rfl hc

/-- The result registers change only by a FINISH from a busy phase (R17, R126). -/
theorem Successor.res_changed {s t : State} (h : Successor s t) (hr : t.res ≠ s.res) :
    s.busy = true ∧ t.seq = .done ∧ ∃ r : Result, t.res = r.regs := by
  cases h with
  | sendFaulted _ _ _ hs => exact ⟨busy_of_send hs, rfl, .transportError _, rfl⟩
  | availFaulted _ _ hs => exact ⟨busy_of_recv hs, rfl, .transportError _, rfl⟩
  | readFaulted _ _ _ hs => exact ⟨busy_of_recv hs, rfl, .transportError _, rfl⟩
  | writeEnded _ hs => exact ⟨busy_of_check hs, rfl, .ok, rfl⟩
  | floatEnded _ hs => exact ⟨busy_of_check hs, rfl, .okFloat _, rfl⟩
  | readEnded _ _ hs => exact ⟨busy_of_check hs, rfl, .okReg _, rfl⟩
  | readInvalid _ hs => exact ⟨busy_of_check hs, rfl, .invalidResponse _, rfl⟩
  | _ => exact absurd rfl hr

/-- Code 3 is the one code that is a read and a float (R60, R128). -/
theorem op_eq_three_of_read_float {op : BitVec 2} (hr : isRead op = true) (hf : isFloat op = true) :
    op = 3 := by
  rcases op_cases op with rfl | rfl | rfl | rfl
  · simp at hr
  · simp at hf
  · simp at hr
  · rfl

/-! ## The one stop (D13, U5) -/

/-- A poll that is due while the transport reports bytes it does not hold and answers no fault. -/
def State.PollBroken (s : State) : Prop :=
  (∃ k, s.seq = .recv k) ∧ s.acc.length < s.need.count ∧ s.env.now < s.deadline ∧
    s.env.availFault = none ∧ s.env.readFault = none ∧ s.env.rxq = [] ∧ s.env.overcount ≠ 0

theorem blockStep_of_pollBroken {s : State} (h : s.PollBroken) :
    blockStep s = .fault .readOneUnavailable := by
  obtain ⟨⟨k, hk⟩, hlen, hnow, ha, hr, hq, ho⟩ := h
  rw [blockStep_recv hk, poll_of_broken k ⟨hlen, hnow⟩ ha hr hq ho]

/-- Only a broken poll has no next state. -/
theorem Effect.next_of_not_pollBroken {s : State} {o : Outcome} (h : Effect s o)
    (hb : ¬ s.PollBroken) : ∃ t, o = .next t := by
  cases h with
  | poll k hk =>
    rcases poll_cases s k with ⟨-, h⟩ | ⟨hlen, hnow, ⟨_, -, h⟩ | ⟨-, -, -, h⟩ | ⟨_, _, -, -, -, h⟩ |
      ⟨_, _, -, -, -, h⟩ | ⟨ha, hr, hq, ho, -⟩⟩
    · exact ⟨_, h⟩
    · exact ⟨_, h⟩
    · exact ⟨_, h⟩
    · exact ⟨_, h⟩
    · exact ⟨_, h⟩
    · exact absurd ⟨⟨k, hk⟩, hlen, hnow, ha, hr, hq, ho⟩ hb
  | _ => exact ⟨_, rfl⟩

/-- A move of another agent is not the block's turn. -/
theorem not_blockTurn_of_move {s : State} {m : Move} {moves : List Move}
    (h : s.env.sched = m :: moves) (hm : m ≠ .block) : ¬ s.blockTurn := by
  simp [State.blockTurn, h, hm]

/-! ## The result registers and the abstract result (R17 to R19) -/

/-- The registers of a possible result, read back, give it (R18, R19). -/
theorem result_regs {op : BitVec 2} {r : Result} (h : r.possible op) :
    ResultRegs.result op r.regs = some r := by
  cases r with
  | ok =>
    have hr : isRead op = false := h
    simp [Result.regs, ResultRegs.result, hr]
  | okReg v =>
    obtain ⟨hr, hf⟩ := h
    have hhi : (v.setWidth 32).extractLsb' 16 16 = 0 := by
      ext i hi
      simp
    have hlo : lowHalf (v.setWidth 32) = v := by
      apply BitVec.eq_of_toNat_eq
      rw [lowHalf_toNat, BitVec.toNat_setWidth]
      omega
    simp [Result.regs, ResultRegs.result, hr, hf, hhi, hlo]
  | okFloat w =>
    obtain ⟨hr, hf⟩ := h
    simp [Result.regs, ResultRegs.result, hr, hf]
  | invalidResponse bytes =>
    obtain ⟨hr, -, -⟩ := h
    simp [Result.regs, ResultRegs.result, hr]
  | transportError f => rfl

/-- The count of the diagnostic bytes is their number, up to nine of them (R17). -/
theorem diagN_invalidResponse {bytes : Bytes} (h : bytes.length ≤ 9) :
    ∃ n, (Result.invalidResponse bytes).regs.diagN = some n ∧ n.toNat = bytes.length :=
  ⟨_, rfl, by rw [BitVec.toNat_ofNat]; omega⟩

/-! ## Live registers (R27): introduction by phase -/

section LiveEq
variable {s t : State}

theorem LiveEq.of_idle (hs : s.seq = .idle) (ht : t.seq = .idle) (he : s.env = t.env) :
    LiveEq s t where
  seq := hs.trans ht.symm
  env := he
  cmd h := by simp [State.busy, hs] at h
  reader k h := by simp [hs] at h
  hiword h := by simp [hs, Seq.trip] at h
  res h := by simp [hs] at h

theorem LiveEq.of_done (hs : s.seq = .done) (ht : t.seq = .done) (he : s.env = t.env)
    (hr : s.res = t.res) : LiveEq s t where
  seq := hs.trans ht.symm
  env := he
  cmd h := by simp [State.busy, hs] at h
  reader k h := by simp [hs] at h
  hiword h := by simp [hs, Seq.trip] at h
  res _ := hr

theorem LiveEq.of_send {k : Trip} (hs : s.seq = .send k) (ht : t.seq = .send k)
    (he : s.env = t.env) (hc : s.cmd = t.cmd)
    (hh : k = .one → isRead s.cmd.op = true → s.hiword = t.hiword) : LiveEq s t where
  seq := hs.trans ht.symm
  env := he
  cmd _ := hc
  reader k h := by simp [hs] at h
  hiword h := hh (by simpa [hs, Seq.trip] using h)
  res h := by simp [hs] at h

/-- In RECV and CHECK everything but the result registers is live. -/
theorem LiveEq.of_reader {k : Trip} (hs : s.seq = .recv k ∨ s.seq = .check k) (hst : s.seq = t.seq)
    (he : s.env = t.env) (hc : s.cmd = t.cmd)
    (hr : s.acc = t.acc ∧ s.need = t.need ∧ s.deadline = t.deadline)
    (hh : k = .one → isRead s.cmd.op = true → s.hiword = t.hiword) : LiveEq s t where
  seq := hst
  env := he
  cmd _ := hc
  reader _ _ := hr
  hiword h := hh (by rcases hs with hs | hs <;> simpa [hs, Seq.trip] using h)
  res h := by rcases hs with hs | hs <;> simp [hs] at h

/-! ## Live registers: each operation keeps the relation -/

theorem LiveEq.finish (h : LiveEq s t) (r : Result) : LiveEq (s.finish r) (t.finish r) :=
  .of_done rfl rfl h.env rfl

theorem LiveEq.accept (h : LiveEq s t) (c : HostCmd) : LiveEq (s.accept c) (t.accept c) :=
  .of_send rfl rfl (by simp [h.env]) rfl nofun

/-- What a busy phase of trip `k` shares: the latches, and `HIWORD` in trip 1 of a read. -/
theorem LiveEq.busy {k : Trip} (h : LiveEq s t)
    (hs : s.seq = .send k ∨ s.seq = .recv k ∨ s.seq = .check k) :
    s.cmd = t.cmd ∧ (k = .one → isRead s.cmd.op = true → s.hiword = t.hiword) := by
  refine ⟨h.cmd ((busy_iff s).mpr ⟨k, hs⟩), fun hk => h.hiword ?_⟩
  rcases hs with hs | hs | hs <;> simp [hs, Seq.trip, hk]

theorem LiveEq.sendRequest {k : Trip} (h : LiveEq s t) (hs : s.seq = .send k) (frame : Bytes) :
    LiveEq (s.sendRequest frame k) (t.sendRequest frame k) := by
  obtain ⟨hc, hh⟩ := h.busy (.inl hs)
  cases hf : s.env.txFault with
  | none =>
    rw [sendRequest_of_ok frame k hf, sendRequest_of_ok frame k (h.env ▸ hf)]
    exact .of_reader (.inl rfl) rfl (by simp [h.env]) hc (by simp [hc, h.env]) hh
  | some e =>
    rw [sendRequest_of_fault frame k hf, sendRequest_of_fault frame k (h.env ▸ hf)]
    exact .of_done rfl rfl (by simp [h.env]) rfl

theorem LiveEq.poll {k : Trip} (h : LiveEq s t) (hs : s.seq = .recv k) :
    SameOutcome (s.poll k) (t.poll k) := by
  obtain ⟨hc, hh⟩ := h.busy (.inr (.inl hs))
  obtain ⟨hacc, hneed, hdl⟩ := h.reader k (.inl hs)
  have he := h.env
  rcases poll_cases s k with ⟨hover, hp⟩ | ⟨hlen, hnow, hdue⟩
  · rw [hp, poll_of_over k (by rwa [← hacc, ← hneed, ← hdl, ← he])]
    exact .of_reader (.inr rfl) rfl he hc ⟨hacc, hneed, hdl⟩ hh
  · have hdue' : t.acc.length < t.need.count ∧ t.env.now < t.deadline := by
      rw [← hacc, ← hneed, ← hdl, ← he]
      exact ⟨hlen, hnow⟩
    rcases hdue with ⟨f, ha, hp⟩ | ⟨ha, hq, ho, hp⟩ | ⟨f, lost, ha, hr, h0, hp⟩ |
      ⟨b, rest, ha, hr, hq, hp⟩ | ⟨ha, hr, hq, ho, hp⟩
    · rw [hp, poll_of_availFault k hdue' (he ▸ ha)]
      exact h.finish _
    · rw [hp, poll_of_none k hdue' (he ▸ ha) (by simp [← he, hq, ho])]
      exact h
    · rw [hp, poll_of_readFault k hdue' (he ▸ ha) (he ▸ h0) (he ▸ hr)]
      exact .of_done rfl rfl (by simp [he]) rfl
    · rw [hp, poll_of_byte k hdue' (he ▸ ha) (he ▸ hr) (he ▸ hq)]
      exact .of_reader (.inl hs) h.seq (by simp [he]) hc ⟨by simp [hacc], hneed, hdl⟩ hh
    · rw [hp, poll_of_broken k hdue' (he ▸ ha) (he ▸ hr) (he ▸ hq) (he ▸ ho)]
      rfl

/-- After a write trip `HIWORD` is dead. -/
theorem LiveEq.discardAck {k : Trip} (h : LiveEq s t) (hs : s.seq = .check k)
    (hr : isRead s.cmd.op = false) : LiveEq (s.discardAck k) (t.discardAck k) := by
  obtain ⟨hc, -⟩ := h.busy (.inr (.inr hs))
  cases hl : lastTrip s.cmd.op k with
  | true =>
    rw [discardAck_of_last hl, discardAck_of_last (hc ▸ hl)]
    exact h.finish _
  | false =>
    rw [discardAck_of_first hl, discardAck_of_first (hc ▸ hl)]
    exact .of_send rfl rfl h.env hc fun _ hr' => absurd (hr.symm.trans hr') nofun

/-- Trip 0 of a float read writes `HIWORD` in both; trip 1 reads it, where it is live. -/
theorem LiveEq.acceptValue {k : Trip} (h : LiveEq s t) (hs : s.seq = .check k)
    (hr : isRead s.cmd.op = true) (v : Half) : LiveEq (s.acceptValue v k) (t.acceptValue v k) := by
  obtain ⟨hc, hh⟩ := h.busy (.inr (.inr hs))
  cases hf : isFloat s.cmd.op with
  | true =>
    cases k with
    | zero =>
      rw [acceptValue_of_float_zero v hf, acceptValue_of_float_zero v (hc ▸ hf)]
      exact .of_send rfl rfl h.env hc fun _ _ => rfl
    | one =>
      rw [acceptValue_of_float_one v hf, acceptValue_of_float_one v (hc ▸ hf), hh rfl hr]
      exact h.finish _
  | false =>
    rw [acceptValue_of_reg v hf, acceptValue_of_reg v (hc ▸ hf)]
    exact h.finish _

/-- Live-equal states take the same step of the block. -/
theorem LiveEq.blockStep (h : LiveEq s t) : SameOutcome (blockStep s) (blockStep t) := by
  have hst := h.seq
  cases hs : s.seq with
  | idle =>
    rw [hs] at hst
    cases hp : s.env.port with
    | none =>
      rw [blockStep_idle_none hs hp, blockStep_idle_none hst.symm (h.env ▸ hp)]
      exact h
    | some c =>
      rw [blockStep_idle_some hs hp, blockStep_idle_some hst.symm (h.env ▸ hp)]
      exact h.accept c
  | send k =>
    rw [blockStep_send hs, blockStep_send (hst ▸ hs), ← (h.busy (.inl hs)).1]
    exact h.sendRequest hs _
  | recv k =>
    rw [blockStep_recv hs, blockStep_recv (hst ▸ hs)]
    exact h.poll hs
  | check k =>
    have ht : t.seq = .check k := hst ▸ hs
    obtain ⟨hc, -⟩ := h.busy (.inr (.inr hs))
    obtain ⟨hacc, -, -⟩ := h.reader k (.inr hs)
    cases hr : isRead s.cmd.op with
    | false =>
      rw [blockStep_check_write hs hr, blockStep_check_write ht (hc ▸ hr)]
      exact h.discardAck hs hr
    | true =>
      cases hv : validate s.acc with
      | true =>
        rw [blockStep_check_valid hs hr hv, blockStep_check_valid ht (hc ▸ hr) (hacc ▸ hv), ← hacc]
        exact h.acceptValue hs hr _
      | false =>
        rw [blockStep_check_invalid hs hr hv, blockStep_check_invalid ht (hc ▸ hr) (hacc ▸ hv),
          ← hacc]
        exact h.finish _
  | done =>
    rw [blockStep_done hs, blockStep_done (hst ▸ hs)]
    exact h

/-! ## Live registers: the other agents -/

/-- A change of the environment alone, the same in both. -/
theorem LiveEq.withEnv (h : LiveEq s t) {e e' : Env} (he : e = e') :
    LiveEq { s with env := e } { t with env := e' } :=
  ⟨h.seq, he, h.cmd, h.reader, h.hiword, h.res⟩

theorem LiveEq.withSched (h : LiveEq s t) (moves : List Move) :
    LiveEq (s.withSched moves) (t.withSched moves) :=
  h.withEnv (by rw [h.env])

theorem LiveEq.atTurn (h : LiveEq s t) : LiveEq s.atTurn t.atTurn := by
  unfold State.atTurn
  rw [← h.env]
  exact h.withSched _

/-- RETIRE takes the result registers where they are live (R127). -/
theorem LiveEq.retire (h : LiveEq s t) : LiveEq s.retire t.retire := by
  by_cases hs : s.seq = .done
  · rw [retire_of_done hs, retire_of_done (h.seq ▸ hs)]
    exact .of_idle rfl rfl (by simp [h.env, h.res hs])
  · rw [retire_of_not_done hs, retire_of_not_done (h.seq ▸ hs)]
    exact h

theorem LiveEq.applyMove (h : LiveEq s t) (m : Move) : LiveEq (s.applyMove m) (t.applyMove m) := by
  cases m with
  | block => exact h
  | retire => exact h.retire
  | reset => exact .of_idle rfl rfl h.env
  | _ => exact h.withEnv (by rw [h.env])

theorem LiveEq.blockTurn (h : LiveEq s t) (hs : s.blockTurn) : t.blockTurn := by
  simpa only [State.blockTurn, h.env] using hs

/-- Live-equal states take the same step, whoever moves. -/
theorem LiveEq.step (h : LiveEq s t) : SameOutcome (step s) (step t) := by
  rcases step_cases s with ⟨hb, hs⟩ | ⟨m, moves, hm, hne, hs⟩
  · rw [hs, step_of_blockTurn (h.blockTurn hb)]
    exact h.atTurn.blockStep
  · rw [hs, step_of_move (h.env ▸ hm) hne]
    exact (h.withSched moves).applyMove m

end LiveEq

/-- The three ways in which two outcomes are the same. -/
theorem SameOutcome.cases {o o' : Outcome} (h : SameOutcome o o') :
    (∃ s t, o = .next s ∧ o' = .next t ∧ LiveEq s t) ∨ (∃ r, o = .fault r ∧ o' = .fault r) ∨
      ∃ r, o = .refused r ∧ o' = .refused r := by
  unfold SameOutcome at h
  split at h
  · exact .inl ⟨_, _, rfl, rfl, h⟩
  · exact .inr (.inl ⟨_, rfl, h ▸ rfl⟩)
  · exact .inr (.inr ⟨_, rfl, h ▸ rfl⟩)
  · exact h.elim

/-! ## The obligations -/

/-- Settles O49, by induction on the number of steps: live-equal states take the same step. -/
theorem deadRegistersAreNeverObserved : Obligations.DeadRegistersAreNeverObserved := by
  intro n
  induction n with
  | zero => exact fun _ _ h => h
  | succ n ih =>
    intro s t h
    simp only [runSteps]
    rcases h.step.cases with ⟨s', t', hs, ht, h'⟩ | ⟨r, hs, ht⟩ | ⟨r, hs, ht⟩
    · rw [hs, ht]
      exact ih s' t' h'
    · rw [hs, ht]
      rfl
    · rw [hs, ht]
      rfl

/-- Settles O39: in `IDLE` an instruction accepts the tuple that encodes it, and of the other agents
only reset touches the latches. -/
theorem latchesAreWrittenOnlyByAccept : Obligations.LatchesAreWrittenOnlyByAccept := by
  refine ⟨fun i s t h hc => ?_, fun s t h hc => ?_⟩
  · obtain ⟨hs, ht⟩ := (exec_successor h).cmd_changed hc
    refine ⟨hs, ht, ?_⟩
    rcases exec_idle i hs with he | ⟨c, henc, he⟩
    · cases he.symm.trans h
      exact absurd rfl hc
    · cases he.symm.trans h
      exact henc
  · rcases step_cases s with ⟨hb, hstep⟩ | ⟨m, moves, hm, -, hstep⟩
    · rw [hstep] at h
      obtain ⟨hs, -⟩ := (blockStep_successor h).cmd_changed hc
      refine .inr ⟨hb, hs, ?_⟩
      cases hp : s.env.port with
      | none =>
        cases (blockStep_idle_none hs hp).symm.trans h
        exact absurd rfl hc
      | some c =>
        cases (blockStep_idle_some hs hp).symm.trans h
        rfl
    · cases hstep.symm.trans h
      by_cases hr : m = .reset
      · exact .inl ⟨moves, hr ▸ hm⟩
      · exact absurd (applyMove_cmd _ hr) hc

/-- Settles O40: of the successors only a SEND that was taken and a POLL that read a byte write a reader
register. -/
theorem readerRegistersAreWrittenBySendAndPoll :
    Obligations.ReaderRegistersAreWrittenBySendAndPoll := by
  intro i s t h
  cases exec_successor h with
  | sent k _ hs => exact .inl ⟨k, hs, rfl, rfl, rfl, rfl⟩
  | byteRead k b _ hs _ _ _ _ hq => exact .inr ⟨rfl, rfl, .inr ⟨k, b, hs, hs, rfl, hq⟩⟩
  | _ => exact .inr ⟨rfl, rfl, .inl rfl⟩

/-- Settles O41: of the successors only that of the first valid response of a float read writes
`HIWORD`. -/
theorem highWordIsWrittenByTheFirstReadTrip : Obligations.HighWordIsWrittenByTheFirstReadTrip := by
  intro i s t h hh
  cases exec_successor h with
  | secondRead _ hs hr hf => exact ⟨hs, op_eq_three_of_read_float hr hf, rfl⟩
  | _ => exact absurd rfl hh

/-- Settles O42: only a FINISH changes the result registers, and of the other agents only reset. -/
theorem resultRegistersAreWrittenAtTheEnd : Obligations.ResultRegistersAreWrittenAtTheEnd := by
  refine ⟨fun i s t h hr => (exec_successor h).res_changed hr, fun s t h hr => ?_⟩
  rcases step_cases s with ⟨hb, hstep⟩ | ⟨m, moves, hm, -, hstep⟩
  · obtain ⟨hbusy, hdone, -⟩ := (blockStep_successor (hstep.symm.trans h)).res_changed hr
    exact .inr ⟨hb, hbusy, hdone⟩
  · cases hstep.symm.trans h
    by_cases hreset : m = .reset
    · exact .inl ⟨moves, hreset ▸ hm⟩
    · exact absurd (applyMove_res _ hreset) hr

/-- Settles O47: the block's step has a next state unless its poll is a broken one, and every other
agent's step has one. -/
theorem stopsOnlyAtABrokenTransport : Obligations.StopsOnlyAtABrokenTransport := by
  intro s
  rcases step_cases s with ⟨hb, hstep⟩ | ⟨m, moves, hm, hne, hstep⟩
  · rw [hstep]
    by_cases hp : s.atTurn.PollBroken
    · exact .inl ⟨blockStep_of_pollBroken hp, hb, hp⟩
    · exact .inr ⟨(blockStep_effect _).next_of_not_pollBroken hp, fun h => hp h.2⟩
  · exact .inr ⟨⟨_, hstep⟩, fun h => not_blockTurn_of_move hm hne h.1⟩

/-- Settles O13, from what each flag is in each phase. -/
theorem flagsFollowThePhase : Obligations.FlagsFollowThePhase :=
  ⟨fun s => ⟨cmdReady_iff s, busy_iff s, rspValid_iff s⟩, rfl, rfl, rfl⟩

/-- Settles O14, by evaluation of the one state it is about. -/
theorem resetLeavesTheBlockIdle : Obligations.ResetLeavesTheBlockIdle :=
  ⟨rfl, rfl, rfl, rfl, rfl⟩

/-- Settles O16: the rows of R18, the count, and the read-back of every possible result. -/
theorem resultRegistersEncodeTheResult : Obligations.ResultRegistersEncodeTheResult := by
  refine ⟨rfl, fun v => ⟨rfl, rfl, rfl, _, rfl, ?_⟩, fun _ => rfl,
    fun _ => ⟨rfl, diagN_invalidResponse⟩, fun _ => rfl, fun _ _ => result_regs⟩
  rw [BitVec.toNat_setWidth]
  omega

/-- Settles O17: after reset no phase of a command stands, nothing has been sent, and `RES_STATUS` and
the register space hold the model's start values (log 2, log 3). -/
theorem invariantHoldsAtReset : Obligations.InvariantHoldsAtReset where
  secondTrip := nofun
  needed := nofun
  bounded := nofun
  short := nofun
  ended := nofun
  status := by decide
  requests := nofun
  memory := reset_dev_wf

/-- Settles O21: the block's step leaves the clock alone and no other agent turns it back. -/
theorem timeNeverDecreases : Obligations.TimeNeverDecreases := by
  intro s t h
  rcases step_cases s with ⟨-, hstep⟩ | ⟨m, moves, -, -, hstep⟩
  · exact (blockStep_successor (hstep.symm.trans h)).now_eq.ge
  · cases hstep.symm.trans h
    exact now_le_applyMove (s.withSched moves) m

end Sys2Proof.Machine
end

section
/-! PROOFS. The statements on memory (20_memory.md): the device register space and its canonical form,
what an instruction does to the environment, and where the second register of a float is. -/

namespace Sys2Proof.Machine

/-! ## The device register space (R30, R31; log 18) -/

namespace Memory

/-- The canonical form, entry by entry. -/
theorem wf_cons {b : Nat} {u : Half} {m : Memory} :
    wf ((b, u) :: m) ↔
      (∀ c ∈ m, b < c.1) ∧ b < 65536 ∧ u ≠ Config.unwrittenRegister ∧ wf m := by
  simp only [wf, List.pairwise_cons, List.forall_mem_cons]
  tauto

/-- A register below every listed one is not listed. -/
theorem read_of_lt {m : Memory} {a : Nat} (h : ∀ c ∈ m, a < c.1) :
    m.read a = Config.unwrittenRegister := by
  induction m with
  | nil => rfl
  | cons d m ih =>
    obtain ⟨hd, hm⟩ := List.forall_mem_cons.mp h
    rw [read, if_neg hd.ne, ih hm]

/-- A value put in front of a space in which its register is unlisted; the unwritten value is not
listed. -/
theorem read_put {m : Memory} {a : Nat} (ha : m.read a = Config.unwrittenRegister) (b : Nat)
    (v : Half) : read (if v = Config.unwrittenRegister then m else (a, v) :: m) b =
      if b = a then v else m.read b := by
  by_cases hv : v = Config.unwrittenRegister
  · rw [if_pos hv]
    split_ifs with hb
    · rw [hb, ha, hv]
    · rfl
  · rw [if_neg hv, read]

/-- A stored register reads back, and every other one reads as before. -/
theorem read_write {m : Memory} (hm : m.wf) (a b : Nat) (v : Half) :
    (m.write a v).read b = if b = a then v else m.read b := by
  induction m with
  | nil => exact read_put rfl b v
  | cons d m ih =>
    obtain ⟨e, u⟩ := d
    obtain ⟨hlt, -, -, hm⟩ := wf_cons.mp hm
    rcases lt_trichotomy a e with hae | rfl | hea
    · rw [write, if_pos hae]
      exact read_put
        (read_of_lt (List.forall_mem_cons.mpr ⟨hae, fun c hc => hae.trans (hlt c hc)⟩)) b v
    · rw [write, if_neg (lt_irrefl a), if_pos rfl, read_put (read_of_lt hlt), read]
      split_ifs <;> rfl
    · rw [write, if_neg hea.not_gt, if_neg hea.ne', read, read, ih hm]
      split_ifs with hbe hba
      · exact absurd (hbe.symm.trans hba) hea.ne
      all_goals rfl

/-- The entries of a canonical space are the registers that do not read as unwritten, with their
values. -/
theorem mem_iff_read {m : Memory} (hm : m.wf) (a : Nat) (v : Half) :
    (a, v) ∈ m ↔ m.read a = v ∧ v ≠ Config.unwrittenRegister := by
  induction m with
  | nil => exact ⟨nofun, fun ⟨h, hv⟩ => absurd h.symm hv⟩
  | cons d m ih =>
    obtain ⟨b, u⟩ := d
    obtain ⟨hlt, -, hu, hm⟩ := wf_cons.mp hm
    rw [List.mem_cons, ih hm, Prod.mk.injEq, read]
    split_ifs with hab
    · rw [show read m a = Config.unwrittenRegister from read_of_lt (hab ▸ hlt)]
      constructor
      · rintro (⟨-, rfl⟩ | ⟨rfl, hv⟩)
        · exact ⟨rfl, hu⟩
        · exact absurd rfl hv
      · exact fun h => .inl ⟨hab, h.1.symm⟩
    · exact or_iff_right fun h => hab h.1

/-- In a canonical space no entry stands twice. -/
theorem nodup_of_wf {m : Memory} (hm : m.wf) : m.Nodup :=
  hm.1.imp fun h he => h.ne (congrArg Prod.fst he)

/-- Two canonical spaces that read the same everywhere are the same list: they have the same entries,
in the order of their addresses. -/
theorem eq_of_read_eq {m m' : Memory} (hm : m.wf) (hm' : m'.wf) (h : ∀ a, m.read a = m'.read a) :
    m = m' := by
  have hperm : m.Perm m' := (List.perm_ext_iff_of_nodup (nodup_of_wf hm) (nodup_of_wf hm')).mpr
    fun (a, v) => by rw [mem_iff_read hm, mem_iff_read hm', h]
  exact hperm.eq_of_pairwise (fun c d _ _ hcd hdc => absurd hcd hdc.not_gt) hm.1 hm'.1

end Memory

/-! ## What an instruction does to the environment (R20, R130) -/

section Successor
variable {s t : State}

/-- Of the environment an instruction reaches the port and the two streams only. -/
theorem Successor.env_eq (h : Successor s t) :
    ∃ port rxq txlog, t.env = { s.env with port := port, rxq := rxq, txlog := txlog } := by
  cases h <;> exact ⟨_, _, _, rfl⟩

/-- The port changes only at ACCEPT, which empties it (R121; log 7). -/
theorem Successor.port_cases (h : Successor s t) :
    t.env.port = s.env.port ∨ (s.seq = .idle ∧ t.env.port = none) := by
  cases h with
  | accepted _ hs => exact .inr ⟨hs, rfl⟩
  | _ => exact .inl rfl

/-- Only SEND hands a frame over, and it is a request of R64 (R32, R122). -/
theorem Successor.txlog_cases (h : Successor s t) :
    t.env.txlog = s.env.txlog ∨ ∃ k call, s.seq = .send k ∧ t.env.txlog = s.env.txlog ++ [call] ∧
      LegalRequest call.frame := by
  cases h with
  | sent k _ hs hl => exact .inr ⟨k, _, hs, rfl, hl⟩
  | sendFaulted k _ _ hs hl => exact .inr ⟨k, _, hs, rfl, hl⟩
  | _ => exact .inl rfl

/-- Only POLL takes a byte, the oldest one; a faulting `RxReadOne` may take it too (R33, V-RX-11). -/
theorem Successor.rxq_cases (h : Successor s t) :
    t.env.rxq = s.env.rxq ∨ ∃ k, s.seq = .recv k ∧ t.env.rxq = s.env.rxq.tail := by
  cases h with
  | byteRead k b rest hs _ _ _ _ hq => exact .inr ⟨k, hs, by rw [hq, List.tail_cons]⟩
  | readFaulted k f lost hs =>
    cases lost with
    | false => exact .inl rfl
    | true => exact .inr ⟨k, hs, rfl⟩
  | _ => exact .inl rfl

end Successor

/-! ## The second register of a float (R40, R128) -/

/-- The register after the last one is the first (R40). -/
theorem tripAddr_top_one : tripAddr 0xFFFF .one = 0 := by decide

/-- The request of a trip of a float write (R128, R109). -/
theorem frameInstr_of_writeFloat {c : HostCmd} (h : c.op = Config.opWriteFloat) (k : Trip) :
    frameInstr c k = .wrReq (tripAddr c.addr k) (tripWord c.wdata k) := by
  simp [frameInstr, tripVal, h]

/-- The request of a trip of a read (R128, R110). -/
theorem frameInstr_of_isRead {c : HostCmd} (h : isRead c.op = true) (k : Trip) :
    frameInstr c k = .rdReq (tripAddr c.addr k) := by
  rw [frameInstr, if_pos h]

/-! ## The obligations -/

/-- Settles O43: the two streams, successor by successor. -/
theorem streamsAreTouchedOnlyBySendAndPoll : Obligations.StreamsAreTouchedOnlyBySendAndPoll :=
  fun _ _ _ h => ⟨(exec_successor h).txlog_cases, (exec_successor h).rxq_cases⟩

/-- Settles O44: the environment after an instruction differs in the port and the two streams only. -/
theorem instructionsLeaveTheEnvironmentAlone : Obligations.InstructionsLeaveTheEnvironmentAlone := by
  intro i s t h
  have hport := (exec_successor h).port_cases
  obtain ⟨port, rxq, txlog, he⟩ := (exec_successor h).env_eq
  rw [he] at hport ⊢
  exact ⟨fun _ => rfl, rfl, rfl, rfl, rfl, rfl, rfl, rfl, rfl, rfl, rfl, hport⟩

/-- Settles O58: the store law, by induction on the list; and a canonical list is determined by its
entries, which are what reads as written. -/
theorem storedRegisterReadsBack : Obligations.StoredRegisterReadsBack :=
  ⟨fun _ a b v hm => Memory.read_write hm a b v, fun _ _ hm hm' h => Memory.eq_of_read_eq hm hm' h⟩

/-- Settles O12: 16-bit addition wraps, and trip 1 of either float operation asks for the wrapped
address. -/
theorem secondRegisterWrapsAtTheTop : Obligations.SecondRegisterWrapsAtTheTop := by
  refine ⟨fun addr => ⟨tripAddr_zero addr, ?_⟩, fun w tmoEn tmo => ⟨?_, ?_, ?_, ?_⟩⟩
  · rw [tripAddr_one_toNat, show (0xFFFF : Nat) = 2 ^ 16 - 1 from rfl,
      Nat.and_two_pow_sub_one_eq_mod]
  · rw [frameInstr_of_writeFloat rfl, tripAddr_zero, tripWord]
  · rw [frameInstr_of_writeFloat rfl, tripAddr_top_one, tripWord]
  · rw [frameInstr_of_isRead isRead_three, tripAddr_zero]
  · rw [frameInstr_of_isRead isRead_three, tripAddr_top_one]

end Sys2Proof.Machine
end

section
/-! PROOFS. The statements on the codec (30_encoding.md): what the decoders answer on each encoding and
each encoder on what was decoded, and the two bits of the host codes. -/

namespace Sys2Proof

/-! ## Frames encoded and decoded (R51 to R54, R74) -/

/-- The fields of a write request survive the split into bytes and the join (R51, R74). -/
theorem decodeWrReq_encWrite (addr val : Half) :
    decodeWrReq (encWrite addr.toNat val.toNat) = .instr (.wrReq addr val) := by
  simp [decodeWrReq, encWrite]

/-- The field of a read request survives the split into bytes and the join (R52, R74). -/
theorem decodeRdReq_encRead (addr : Half) :
    decodeRdReq (encRead addr.toNat) = .instr (.rdReq addr) := by
  simp [decodeRdReq, encRead]

/-- What the acknowledgement decoder accepts (R54, R91). -/
theorem decodeWrAck_eq_instr {bytes : Bytes} {i : Instr} :
    decodeWrAck bytes = .instr i ↔ (Instr.wrAck bytes).wf = true ∧ i = .wrAck bytes := by
  by_cases hlen : bytes.length ≤ Config.ackLen
  · simp [decodeWrAck, Instr.wf, hlen, eq_comm]
  · simp [decodeWrAck, Instr.wf, hlen]

/-- The write request of two joined fields carries their bytes (R56, R72). -/
theorem encWrite_join16 (ah al vh vl : Byte) :
    encWrite (join16 ah al).toNat (join16 vh vl).toNat = [0x5A, 0xA5, 0x05, 0x82, ah, al, vh, vl] := by
  simp [encWrite]

/-- The read request of a joined field carries its bytes (R56, R73). -/
theorem encRead_join16 (ah al : Byte) :
    encRead (join16 ah al).toNat = [0x5A, 0xA5, 0x04, 0x83, ah, al, 0x01] := by
  simp [encRead]

/-- What a frame decodes to is well-formed and is encoded as that frame, kind by kind. -/
theorem encode_of_decodeFrame {kind : FrameKind} {bytes : Bytes} {i : Instr}
    (h : decodeFrame kind bytes = .instr i) : i.wf = true ∧ encode i = .frame kind bytes := by
  cases kind with
  | wrReq =>
    obtain ⟨ah, al, vh, vl, rfl, rfl⟩ := decodeWrReq_instr h
    exact ⟨rfl, congrArg (Encoded.frame .wrReq) (encWrite_join16 ah al vh vl)⟩
  | rdReq =>
    obtain ⟨ah, al, rfl, rfl⟩ := decodeRdReq_instr h
    exact ⟨rfl, congrArg (Encoded.frame .rdReq) (encRead_join16 ah al)⟩
  | rdRsp =>
    obtain ⟨len, ah, al, cnt, vh, vl, rfl, rfl⟩ := decodeRdRsp_instr h
    exact ⟨rfl, rfl⟩
  | wrAck =>
    obtain ⟨hwf, rfl⟩ := decodeWrAck_eq_instr.mp h
    exact ⟨hwf, rfl⟩

/-! ## The host codes (R60) -/

/-- All four codes are legal, with any operands (R60, R61). -/
theorem decodeCommand_wf (c : HostCmd) : (decodeCommand c).wf = true := by
  obtain ⟨op, addr, wdata, tmoEn, tmo⟩ := c
  rcases op_cases op with rfl | rfl | rfl | rfl <;> rfl

end Sys2Proof

namespace Sys2Proof.Machine

/-- Bit 0 of the code is 1 for the reads (R60). -/
theorem isRead_iff (op : BitVec 2) : isRead op = true ↔ op = 1 ∨ op = 3 := by
  revert op; decide

/-- Bit 1 of the code is 1 for the floats (R60). -/
theorem isFloat_iff (op : BitVec 2) : isFloat op = true ↔ op = 2 ∨ op = 3 := by
  revert op; decide

/-- A read asks for nine bytes, a write for six (R60, R128). -/
theorem needOf_count (op : BitVec 2) : (needOf op).count = if op = 1 ∨ op = 3 then 9 else 6 := by
  simp only [← isRead_iff, needOf]
  split <;> rfl

/-- The operations that are over after trip 0 are those on one register (R60, R128). -/
theorem lastTrip_zero_iff (op : BitVec 2) : lastTrip op .zero = true ↔ op = 0 ∨ op = 1 := by
  rcases op_cases op with rfl | rfl | rfl | rfl <;> simp

/-- The request of a trip of a write (R128, R90, R109). -/
theorem frameInstr_of_isWrite {c : HostCmd} (h : isRead c.op = false) (k : Trip) :
    frameInstr c k = .wrReq (tripAddr c.addr k) (tripVal c k) := by
  simp [frameInstr, h]

/-! ## The obligations -/

/-- Settles O4, row by row: a request's address and value survive the split into bytes and the join,
and an acknowledgement is accepted because well-formedness bounds its length. -/
theorem decodeOfEncodeIsTheInstruction : Obligations.DecodeOfEncodeIsTheInstruction := by
  intro i hwf
  cases i with
  | writeReg => rfl
  | readReg => rfl
  | writeFloat => rfl
  | readFloat => rfl
  | wrReq addr val => exact decodeWrReq_encWrite addr val
  | rdReq addr => exact decodeRdReq_encRead addr
  | rdRsp => rfl
  | wrAck bytes => exact decodeWrAck_eq_instr.mpr ⟨hwf, rfl⟩

/-- Settles O5: a tuple by its code, a frame by its kind. -/
theorem encodeOfDecodeIsTheInput : Obligations.EncodeOfDecodeIsTheInput := by
  intro e i h
  cases e with
  | command c =>
    cases h
    exact ⟨decodeCommand_wf c, encode_decodeCommand c⟩
  | frame kind bytes => exact encode_of_decodeFrame h

/-- Settles O6, by evaluation of the decoder on the words the statement writes out. -/
theorem specWordsDecode : Obligations.SpecWordsDecode := by
  unfold Obligations.SpecWordsDecode
  decide

/-- Settles O11: the two bits of the code, and what the functions of R128 make of them. -/
theorem hostCodesNameTheOperations : Obligations.HostCodesNameTheOperations := by
  refine ⟨fun _ _ _ _ => ⟨rfl, rfl, rfl, rfl⟩, op_cases, fun op => ?_,
    fun c k => ⟨fun h => ?_, fun h => ?_⟩⟩
  · exact ⟨isRead_iff op, isRead_iff op, isFloat_iff op, isFloat_iff op, needOf_count op,
      lastTrip_zero_iff op, lastTrip_one op⟩
  · have hw : isRead c.op = false := by rcases h with h | h <;> simp [h]
    rw [frameInstr_of_isWrite hw]
    exact ⟨_, _, rfl, rfl⟩
  · rw [frameInstr_of_isRead ((isRead_iff c.op).mpr h)]
    exact ⟨_, rfl, rfl⟩

end Sys2Proof.Machine
end

section
/-! PROOFS. The statements on the frame encoder (40_frame_encoder.md): the two byte functions as shifts
and masks, and the two request frames built from them. -/

namespace Sys2Proof

/-! ## The byte functions (R70, R71) -/

/-- `HI8` is the shift and mask of R70: the mask alone already bounds it to a byte. -/
theorem hi8_toNat_eq_mask (x : Nat) : (hi8 x).toNat = (x >>> 8) &&& 0xFF :=
  Nat.mod_eq_of_lt (Nat.and_lt_two_pow (n := 8) _ (by decide))

/-- `LO8` is the mask of R71. -/
theorem lo8_toNat_eq_mask (x : Nat) : (lo8 x).toNat = x &&& 0xFF :=
  Nat.mod_eq_of_lt (Nat.and_lt_two_pow (n := 8) _ (by decide))

theorem and_0xFFFF_eq_mod (x : Nat) : x &&& 0xFFFF = x % 65536 :=
  Nat.and_two_pow_sub_one_eq_mod x 16

/-- Bits above bit 15 do not reach `HI8` (R70). -/
@[simp] theorem hi8_and_0xFFFF (x : Nat) : hi8 (x &&& 0xFFFF) = hi8 x := by
  apply BitVec.eq_of_toNat_eq
  rw [hi8_toNat, hi8_toNat, and_0xFFFF_eq_mod]
  omega

/-- Bits above bit 7, and so those above bit 15, do not reach `LO8` (R71). -/
@[simp] theorem lo8_and_0xFFFF (x : Nat) : lo8 (x &&& 0xFFFF) = lo8 x := by
  apply BitVec.eq_of_toNat_eq
  rw [lo8_toNat, lo8_toNat, and_0xFFFF_eq_mod]
  omega

/-- The two bytes of a number, joined big-endian, are the number modulo 65,536 (R74). -/
theorem shift_or_hi8_lo8 (x : Nat) : ((hi8 x).toNat <<< 8) ||| (lo8 x).toNat = x % 65536 := by
  rw [shift_or_bytes, hi8_toNat, lo8_toNat]
  omega

/-! ## The request frames (R72, R73) -/

@[simp] theorem encWrite_and_0xFFFF (addr val : Nat) :
    encWrite (addr &&& 0xFFFF) (val &&& 0xFFFF) = encWrite addr val := by
  simp only [encWrite, hi8_and_0xFFFF, lo8_and_0xFFFF]

@[simp] theorem encRead_and_0xFFFF (addr : Nat) : encRead (addr &&& 0xFFFF) = encRead addr := by
  simp only [encRead, hi8_and_0xFFFF, lo8_and_0xFFFF]

/-! ## The obligations -/

/-- Settles O1: each byte function is its shift and mask and sees the low 16 bits only; the printed
cases by evaluation. -/
theorem highAndLowByteOfANumber : Obligations.HighAndLowByteOfANumber := by
  refine ⟨fun x => ⟨hi8_toNat_eq_mask x, lo8_toNat_eq_mask x, (hi8_and_0xFFFF x).symm,
    (lo8_and_0xFFFF x).symm⟩, ?_⟩
  decide

/-- Settles O2: the frames are written out in the encoders, and the inputs reach them through the byte
functions only; the printed cases by evaluation. -/
theorem requestFramesByteForByte : Obligations.RequestFramesByteForByte := by
  refine ⟨fun addr val => ⟨rfl, encWrite_length addr val, (encWrite_and_0xFFFF addr val).symm⟩,
    fun addr => ⟨rfl, encRead_length addr, (encRead_and_0xFFFF addr).symm⟩, ?_⟩
  decide

/-- Settles O3: each field is the two bytes of its input, and these join to the input modulo 65,536. -/
theorem requestFieldsRoundTrip : Obligations.RequestFieldsRoundTrip := fun addr val =>
  ⟨⟨hi8 addr, lo8 addr, hi8 val, lo8 val, rfl, shift_or_hi8_lo8 addr, shift_or_hi8_lo8 val,
    join16_hi8_lo8 addr, join16_hi8_lo8 val⟩,
   ⟨hi8 addr, lo8 addr, 0x01, rfl, shift_or_hi8_lo8 addr, join16_hi8_lo8 addr⟩⟩

end Sys2Proof
end

section
/-! PROOFS. The statements on the transport reader (41_transport_reader.md): when the block removes a byte,
and the run of a reader whose deadline has come before its first poll. -/

namespace Sys2Proof.Machine

section reader
variable {s t : State} {k : Trip}

/-! ## What a removal of bytes says of the reader (R82) -/

/-- Only a poll that is due, below the deadline and short of its count, takes a byte, and it takes the
oldest one; a faulting `RxReadOne` that takes a byte (V-RX-11) is such a poll too. -/
theorem Successor.rxq_changed (h : Successor s t) (hq : t.env.rxq ≠ s.env.rxq) :
    (∃ k, s.seq = .recv k) ∧ s.env.now < s.deadline ∧ s.acc.length < s.need.count ∧
      ∃ b, s.env.rxq = b :: t.env.rxq := by
  cases h with
  | byteRead k b rest hs hlen hnow _ _ hrx => exact ⟨⟨k, hs⟩, hnow, hlen, b, hrx⟩
  | readFaulted k f lost hs hlen hnow =>
    cases lost with
    | false => exact absurd rfl hq
    | true =>
      refine ⟨⟨k, hs⟩, hnow, hlen, ?_⟩
      cases hrx : s.env.rxq with
      | nil => simp [hrx] at hq
      | cons b rest => exact ⟨b, by simp⟩
  | _ => exact absurd rfl hq

/-! ## The steps of a trip on the block's turn (R122, R123) -/

/-- A run of `n + 1` steps, its first step taken. -/
theorem runSteps_succ {n : Nat} (h : step s = .next t) : runSteps (n + 1) s = runSteps n t := by
  simp only [runSteps, h]

/-- SEND over a transport that takes the frame starts the reader (R122). -/
theorem step_send_of_ok (hb : s.blockTurn) (hs : s.seq = .send k) (hf : s.env.txFault = none) :
    step s = .next { s with
      seq := .recv k, acc := [], need := needOf s.cmd.op
      deadline := s.env.now + tmoEff s.cmd s.env.tDefault
      env := { s.env with
        sched := s.env.sched.tail
        txlog := s.env.txlog ++ [⟨tripFrame s.cmd k, (tripFrame s.cmd k).length⟩] } } := by
  rw [step_of_blockTurn hb, blockStep_send (s := s.atTurn) hs,
    sendRequest_of_ok (s := s.atTurn) _ k hf]
  rfl

/-- POLL at or after the deadline ends the reader, whatever `RxAvail` and `RxReadOne` would answer
(R83). -/
theorem step_recv_of_expired (hb : s.blockTurn) (hs : s.seq = .recv k)
    (hd : s.deadline ≤ s.env.now) : step s = .next { s.atTurn with seq := .check k } := by
  rw [step_of_blockTurn hb, blockStep_recv (s := s.atTurn) hs,
    poll_of_over (s := s.atTurn) k fun h => hd.not_gt h.2]

/-- CHECK of an empty `ACC` touches neither `ACC` nor the latches nor the environment: a read ends with
no bytes, a write ends `OK` or goes on to trip 1 (R124, R125). -/
theorem blockStep_check_of_acc_nil (hs : s.seq = .check k) (hacc : s.acc = []) :
    ∃ t, blockStep s = .next t ∧ t.env = s.env ∧ t.acc = [] ∧ t.cmd = s.cmd ∧
      (isRead s.cmd.op = true → t.seq = .done ∧ t.res = (Result.invalidResponse []).regs) ∧
      (isRead s.cmd.op = false → lastTrip s.cmd.op k = true → t.seq = .done ∧ t.res = Result.ok.regs) ∧
      (isRead s.cmd.op = false → lastTrip s.cmd.op k = false → t.seq = .send .one) := by
  cases hr : isRead s.cmd.op with
  | true =>
    rw [blockStep_check_invalid hs hr (by rw [hacc]; rfl), hacc]
    exact ⟨_, rfl, rfl, hacc, rfl, fun _ => ⟨rfl, rfl⟩, nofun, nofun⟩
  | false =>
    rw [blockStep_check_write hs hr]
    cases hl : lastTrip s.cmd.op k with
    | true =>
      rw [discardAck_of_last hl]
      exact ⟨_, rfl, rfl, hacc, rfl, nofun, fun _ _ => ⟨rfl, rfl⟩, nofun⟩
    | false =>
      rw [discardAck_of_first hl]
      exact ⟨_, rfl, rfl, hacc, rfl, nofun, nofun, fun _ _ => rfl⟩

/-- SEND with a timeout of zero, any passage of time, and one POLL: the reader is over with an empty
`ACC`, and the receive queue is as it was (R85). -/
theorem runSteps_zeroTimeout {d : Nat} {moves : List Move} (hs : s.seq = .send k)
    (hf : s.env.txFault = none) (hzero : tmoEff s.cmd s.env.tDefault = 0)
    (hsched : s.env.sched = .block :: .clock d :: .block :: moves) :
    ∃ u, runSteps 3 s = .next u ∧ u.seq = .check k ∧ u.acc = [] ∧ u.cmd = s.cmd ∧
      u.env.rxq = s.env.rxq ∧ u.env.sched = moves := by
  have hsend := step_send_of_ok (.inr ⟨_, hsched⟩) hs hf
  rw [hsched, hzero] at hsend
  have hrun : runSteps 3 s = .next _ := calc runSteps 3 s
    _ = runSteps 2 _ := runSteps_succ hsend
    _ = runSteps 1 _ := runSteps_succ (step_of_move rfl nofun)
    _ = .next _ := runSteps_one
      (step_recv_of_expired (.inr ⟨moves, rfl⟩) rfl (Nat.le_add_right s.env.now d))
  exact ⟨_, hrun, rfl, rfl, rfl, rfl, rfl⟩

end reader

/-! ## The obligations -/

/-- Settles O45: a step on the block's turn leads to a successor, and a successor with another queue is
that of a due poll. -/
theorem noByteIsRemovedAtOrAfterTheDeadline : Obligations.NoByteIsRemovedAtOrAfterTheDeadline :=
  fun _ _ hb h hq => (blockStep_successor ((step_of_blockTurn hb).symm.trans h)).rxq_changed hq

/-- Settles O51: the first poll finds the deadline come, and CHECK then finds `ACC` empty. -/
theorem zeroTimeoutRemovesNothing : Obligations.ZeroTimeoutRemovesNothing := by
  intro s k d moves hs hf hzero hsched
  obtain ⟨u, hrun, hcheck, hacc, hcmd, hrxq, husched⟩ := runSteps_zeroTimeout hs hf hzero hsched
  obtain ⟨t, hstep, henv, htacc, htcmd, hend⟩ :=
    blockStep_check_of_acc_nil (s := u.atTurn) hcheck hacc
  rw [atTurn_cmd, hcmd] at htcmd hend
  have hlast : step u = .next t := (step_of_blockTurn (.inr ⟨moves, husched⟩)).trans hstep
  exact ⟨t, (runSteps_add 1 hrun).trans (runSteps_one hlast), by rw [henv]; exact hrxq, htacc, htcmd,
    hend⟩

end Sys2Proof.Machine
end

section
/-! PROOFS. The statements on the register write (42_register_write.md). What they rest on holds of all four
operations: the run of one trip on the schedule `tripMoves`; what a traced run keeps on any schedule; the
progress of a command when time passes; and the course of a command from its presentation to its end. -/

namespace Sys2Proof.Machine

section moves
variable {s : State}

/-! ## What a move of another agent leaves alone (R129) -/

/-- Outside `DONE` a move other than reset touches the environment only. -/
theorem applyMove_eq_withEnv {m : Move} (hm : m ≠ .reset) (hd : s.seq ≠ .done) :
    s.applyMove m = { s with env := (s.applyMove m).env } := by
  cases m with
  | reset => exact absurd rfl hm
  | retire =>
    have hr : s.applyMove .retire = s := retire_of_not_done hd
    rw [hr]
  | _ => rfl

/-- RETIRE touches nothing of the environment but what the host has taken (R127). -/
theorem retire_env (s : State) : ∃ taken, s.retire.env = { s.env with taken := taken } := by
  unfold State.retire
  split <;> exact ⟨_, rfl⟩

/-- The ideal device touches its registers, the receive queue and its own count only (D26). -/
theorem serve_eq (e : Env) :
    ∃ dev rxq served, e.serve = { e with dev := dev, rxq := rxq, served := served } := by
  unfold Env.serve
  split <;> exact ⟨_, _, _, rfl⟩

/-- No agent's move writes the schedule or the transmit log (R32). -/
theorem applyMove_sched_txlog (s : State) (m : Move) :
    (s.applyMove m).env.sched = s.env.sched ∧ (s.applyMove m).env.txlog = s.env.txlog := by
  cases m with
  | retire =>
    obtain ⟨_, he⟩ := retire_env s
    rw [State.applyMove, he]
    exact ⟨rfl, rfl⟩
  | serve =>
    obtain ⟨_, _, _, he⟩ := serve_eq s.env
    rw [State.applyMove, he]
    exact ⟨rfl, rfl⟩
  | _ => exact ⟨rfl, rfl⟩

/-- Where the receive queue is the block's alone, a move adds the bytes that arrive by it. -/
theorem applyMove_rxq (s : State) {m : Move} (hm : m.exclusive = true) :
    (s.applyMove m).env.rxq = s.env.rxq ++ arrivals [m] := by
  cases m with
  | device b => rfl
  | retire =>
    obtain ⟨_, he⟩ := retire_env s
    rw [State.applyMove, he]
    exact (List.append_nil _).symm
  | drain => exact absurd hm Bool.false_ne_true
  | serve => exact absurd hm Bool.false_ne_true
  | _ => exact (List.append_nil _).symm

/-- After a quiet move the transport answers as before. -/
theorem wellBehaved_applyMove {m : Move} (hm : m.quiet = true) (h : s.env.wellBehaved) :
    (s.applyMove m).env.wellBehaved := by
  obtain ⟨htx, ha, hr, ho⟩ := h
  cases m with
  | retire =>
    obtain ⟨_, he⟩ := retire_env s
    rw [State.applyMove, he]
    exact ⟨htx, ha, hr, ho⟩
  | serve =>
    obtain ⟨_, _, _, he⟩ := serve_eq s.env
    rw [State.applyMove, he]
    exact ⟨htx, ha, hr, ho⟩
  | answerTx a => exact ⟨Option.isNone_iff_eq_none.mp hm, ha, hr, ho⟩
  | answerAvail a => exact ⟨htx, Option.isNone_iff_eq_none.mp hm, hr, ho⟩
  | answerRead a => exact ⟨htx, ha, Option.isNone_iff_eq_none.mp hm, ho⟩
  | overreport k => exact ⟨htx, ha, hr, eq_of_beq hm⟩
  | _ => exact ⟨htx, ha, hr, ho⟩

end moves

section runs
variable {s : State} {k : Trip}

/-! ## A trip on the schedule `tripMoves` (R122, R123, R84) -/

/-- A run of one step, whatever its outcome. -/
theorem runSteps_one_eq_step (s : State) : runSteps 1 s = step s := by
  cases h : step s <;> simp only [runSteps, h]

/-- The bytes of consecutive DEVICE moves join the receive queue in their order (R129). -/
theorem runSteps_device (bs : Bytes) (rest : List Move) (h : s.env.sched = bs.map .device ++ rest) :
    runSteps bs.length s =
      .next { s with env := { s.env with rxq := s.env.rxq ++ bs, sched := rest } } := by
  induction bs generalizing s with
  | nil =>
    have hr : s.env.sched = rest := h
    rw [List.append_nil, ← hr]
    rfl
  | cons b bs ih =>
    rw [List.length_cons, runSteps_succ (step_of_move h nofun), ih rfl]
    simp [State.applyMove]

/-- POLL below the deadline and short of the count takes the oldest byte, or nothing where there is
none (R82). -/
theorem step_recv_of_due (hb : s.blockTurn) (hs : s.seq = .recv k) (hw : s.env.wellBehaved)
    (hlen : s.acc.length < s.need.count) (hnow : s.env.now < s.deadline) :
    step s = .next { s with
      acc := s.acc ++ s.env.rxq.take 1
      env := { s.env with rxq := s.env.rxq.drop 1, sched := s.env.sched.tail } } := by
  obtain ⟨-, ha, hr, ho⟩ := hw
  rw [step_of_blockTurn hb, blockStep_recv (s := s.atTurn) hs]
  cases hq : s.env.rxq with
  | nil =>
    rw [poll_of_none (s := s.atTurn) k ⟨hlen, hnow⟩ ha (by simp [hq, ho])]
    simp [State.atTurn, State.withSched, hq]
  | cons b rest =>
    rw [poll_of_byte (s := s.atTurn) k ⟨hlen, hnow⟩ ha hr hq]
    rfl

/-- `n` polls that all come below the deadline, and for which the count leaves room, take the first `n`
bytes of the queue, or as many as there are (R82, R84). -/
theorem runSteps_poll (n : Nat) (rest : List Move) (hs : s.seq = .recv k) (hw : s.env.wellBehaved)
    (hlen : s.acc.length + n ≤ s.need.count) (hnow : s.env.now < s.deadline)
    (h : s.env.sched = List.replicate n .block ++ rest) :
    runSteps n s = .next { s with
      acc := s.acc ++ s.env.rxq.take n
      env := { s.env with rxq := s.env.rxq.drop n, sched := rest } } := by
  induction n generalizing s with
  | zero =>
    have hr : s.env.sched = rest := h
    rw [List.take_zero, List.append_nil, List.drop_zero, ← hr]
    rfl
  | succ n ih =>
    have hstep := step_recv_of_due (.inr ⟨_, h⟩) hs hw (by omega) hnow
    rw [h] at hstep
    have hroom : (s.acc ++ s.env.rxq.take 1).length + n ≤ s.need.count := by
      rw [List.length_append, List.length_take]
      omega
    calc runSteps (n + 1) s
      _ = runSteps n _ := runSteps_succ hstep
      _ = .next _ := ih hs hw hroom hnow rfl
      _ = _ := by simp [Nat.add_comm n 1, List.take_add]

/-- The block at CHECK of trip `k`, after `tripMoves n T bs` but for its last move: the reader has
returned the first `n` bytes queued or arrived, or as many as there were. -/
def State.replied (s : State) (k : Trip) (n T : Nat) (bs : Bytes) (rest : List Move) : State :=
  { s with
    seq := .check k
    acc := (s.env.rxq ++ bs).take n
    need := needOf s.cmd.op
    deadline := s.env.now + tmoEff s.cmd s.env.tDefault
    env := s.env.afterTrip (tripFrame s.cmd k) n T bs rest }

/-- A trip on the schedule `tripMoves` comes to its CHECK: SEND, the arrivals, the polls below the
deadline, and the poll at or after it (R122, R123). -/
theorem runSteps_tripMoves {n T : Nat} (bs : Bytes) (moves : List Move) (hs : s.seq = .send k)
    (hw : s.env.wellBehaved) (hn : n = (needOf s.cmd.op).count)
    (hpos : 0 < tmoEff s.cmd s.env.tDefault) (hT : tmoEff s.cmd s.env.tDefault ≤ T)
    (hsched : s.env.sched = tripMoves n T bs ++ moves) :
    runSteps (tripMoves n T bs).length s = blockStep (s.replied k n T bs moves) := by
  have hlen : (tripMoves n T bs).length = bs.length + (n + 3) + 1 := by simp [tripMoves]
  have hs1 : s.env.sched = .block :: (bs.map .device ++ (List.replicate n .block ++
      (.clock T :: .block :: .block :: moves))) := by simp [hsched, tripMoves]
  have hsend := step_send_of_ok (.inr ⟨_, hs1⟩) hs hw.1
  rw [hs1] at hsend
  rw [hlen]
  calc runSteps (bs.length + (n + 3) + 1) s
    _ = runSteps (bs.length + (n + 3)) _ := runSteps_succ hsend
    _ = runSteps (n + 3) _ := runSteps_add _ (runSteps_device bs _ rfl)
    _ = runSteps 3 _ := runSteps_add _ (runSteps_poll n _ rfl hw (Nat.le_of_eq (by simp [hn]))
      (Nat.lt_add_of_pos_right hpos) rfl)
    _ = runSteps 2 _ := runSteps_succ (step_of_move rfl nofun)
    _ = runSteps 1 _ := runSteps_succ
      (step_recv_of_expired (.inr ⟨_, rfl⟩) rfl (Nat.add_le_add_left hT _))
    _ = step _ := runSteps_one_eq_step _
    _ = blockStep (s.replied k n T bs moves) := step_of_blockTurn (.inr ⟨_, rfl⟩)

/-- ACCEPT as a step of the machine (R121). -/
theorem step_idle_some {c : HostCmd} (hb : s.blockTurn) (hs : s.seq = .idle)
    (hp : s.env.port = some c) : step s = .next (s.atTurn.accept c) :=
  (step_of_blockTurn hb).trans (blockStep_idle_some (s := s.atTurn) hs hp)

end runs

section traces
variable {s t : State} {r : Trace} {n : Nat}

/-! ## What a traced run keeps -/

/-- The bytes that a step of the block from `s` to `t` took from the head of the receive queue. -/
def bytesTaken (s t : State) : Bytes := s.env.rxq.take (s.env.rxq.length - t.env.rxq.length)

/-- A traced run that has not ended begins with a step of the block or with another agent's move. -/
theorem traceRun_succ_cases (hd : s.seq ≠ .done) (h : traceRun (n + 1) s = some r) :
    (s.blockTurn ∧ ∃ t r', blockStep s.atTurn = .next t ∧ traceRun n t = some r' ∧
      r.removed = bytesTaken s t ++ r'.removed ∧ r.state = r'.state) ∨
    ∃ m moves, s.env.sched = m :: moves ∧ m ≠ .block ∧
      traceRun n ((s.withSched moves).applyMove m) = some r := by
  rcases step_cases s with ⟨hb, hstep⟩ | ⟨m, moves, hs, hm, -⟩
  · refine .inl ⟨hb, ?_⟩
    cases hnext : blockStep s.atTurn with
    | next t =>
      rw [traceRun_block n hd hb (hstep.trans hnext), Option.map_eq_some_iff] at h
      obtain ⟨r', hr', rfl⟩ := h
      exact ⟨t, r', rfl, hr', rfl, rfl⟩
    | fault f => simp [traceRun, hd, hstep, hnext] at h
    | refused f => simp [traceRun, hd, hstep, hnext] at h
  · rw [traceRun_move n hd hs hm] at h
    exact .inr ⟨m, moves, hs, hm, h⟩

/-- What every step before `DONE` keeps, of the number of steps still to take, the bytes removed so far
and the state, a traced run keeps; at its end no step is left to take, or the state is in `DONE`. -/
theorem traceRun_keeps {P : Nat → Bytes → State → Prop}
    (hblock : ∀ n removed u v, P (n + 1) removed u → u.seq ≠ .done → u.blockTurn →
      blockStep u.atTurn = .next v → P n (removed ++ bytesTaken u v) v)
    (hmove : ∀ n removed u m moves, P (n + 1) removed u → u.seq ≠ .done → u.env.sched = m :: moves →
      m ≠ .block → P n removed ((u.withSched moves).applyMove m))
    {removed : Bytes} (hs : P n removed s) (h : traceRun n s = some r) :
    ∃ left, P left (removed ++ r.removed) r.state ∧ (left = 0 ∨ r.state.seq = .done) := by
  induction n generalizing s r removed with
  | zero =>
    cases h
    exact ⟨0, by simpa using hs, .inl rfl⟩
  | succ n ih =>
    by_cases hd : s.seq = .done
    · rw [traceRun_done _ hd] at h
      cases h
      exact ⟨n + 1, by simpa using hs, .inr hd⟩
    · rcases traceRun_succ_cases hd h with ⟨hb, t, r', ht, hr', hrem, hstate⟩ | ⟨m, moves, hm, hne, hr⟩
      · rw [hrem, hstate, ← List.append_assoc]
        exact ih (hblock n removed s t hs hd hb ht) hr'
      · exact ih (hmove n removed s m moves hs hd hm hne) hr

/-- A run that comes to `DONE` is a traced run that has ended, however many more steps it is given. -/
theorem traceRun_done_of_runSteps {m : Nat} (hm : runSteps m s = .next t) (ht : t.seq = .done)
    (h : traceRun (m + n) s = some r) : r.state.seq = .done := by
  induction m generalizing s r with
  | zero =>
    cases hm
    rw [traceRun_done _ ht] at h
    cases h
    exact ht
  | succ m ih =>
    by_cases hd : s.seq = .done
    · rw [traceRun_done _ hd] at h
      cases h
      exact hd
    · rw [Nat.add_right_comm] at h
      rcases traceRun_succ_cases hd h with ⟨hb, u, r', hu, hr', -, hstate⟩ | ⟨mv, moves, hs, hne, hr⟩
      · rw [runSteps_succ ((step_of_blockTurn hb).trans hu)] at hm
        rw [hstate]
        exact ih hm hr'
      · rw [runSteps_succ (step_of_move hs hne)] at hm
        exact ih hm hr

/-! ## The bytes removed and the receive queue (R25, R84) -/

/-- The block's step leaves a queue it does not read as it is. -/
theorem bytesTaken_of_rxq_eq (h : t.env.rxq = s.env.rxq) : bytesTaken s t = [] := by
  rw [bytesTaken, h, Nat.sub_self, List.take_zero]

/-- The block's step splits the receive queue into what it took and what it left. -/
theorem rxq_eq_bytesTaken_append (h : blockStep s.atTurn = .next t) :
    s.env.rxq = bytesTaken s t ++ t.env.rxq := by
  rcases (blockStep_successor h).rxq_cases with hq | ⟨-, -, hq⟩
  · have hq : t.env.rxq = s.env.rxq := hq
    rw [bytesTaken_of_rxq_eq hq, hq, List.nil_append]
  · have hq : t.env.rxq = s.env.rxq.tail := hq
    rw [bytesTaken, hq]
    cases s.env.rxq with
    | nil => rfl
    | cons b rest => simp

/-- The moves still to come after a step of the block are those after its turn. -/
theorem blockStep_sched (h : blockStep s.atTurn = .next t) : t.env.sched = s.env.sched.tail := by
  obtain ⟨_, _, _, he⟩ := (blockStep_successor h).env_eq
  rw [he]
  rfl

/-- Only POLL takes bytes (R33). -/
theorem bytesTaken_of_not_recv (ht : blockStep s.atTurn = .next t) (hs : ∀ k, s.seq ≠ .recv k) :
    bytesTaken s t = [] := by
  rcases (blockStep_successor ht).rxq_cases with hq | ⟨k, hk, -⟩
  · exact bytesTaken_of_rxq_eq hq
  · exact absurd hk (hs k)

theorem arrivals_append (past future : List Move) :
    arrivals (past ++ future) = arrivals past ++ arrivals future :=
  List.filterMap_append

/-- `Trace.accountsFor` of the bytes removed on the way from `s` to `u`. -/
def AccountedFor (s : State) (removed : Bytes) (u : State) : Prop :=
  (∀ m ∈ u.env.sched, m.exclusive = true) ∧ ∃ past, s.env.sched = past ++ u.env.sched ∧
    s.env.rxq ++ arrivals past = removed ++ u.env.rxq

theorem AccountedFor.block {u v : State} {removed : Bytes} (h : AccountedFor s removed u)
    (hb : u.blockTurn) (hv : blockStep u.atTurn = .next v) :
    AccountedFor s (removed ++ bytesTaken u v) v := by
  obtain ⟨hx, past, hsched, hq⟩ := h
  have htail := blockStep_sched hv
  refine ⟨fun m hm => hx m (List.mem_of_mem_tail (htail ▸ hm)), ?_⟩
  rw [rxq_eq_bytesTaken_append hv, ← List.append_assoc] at hq
  rcases hb with hnil | ⟨moves, hcons⟩
  · exact ⟨past, by rw [hsched, htail, hnil]; rfl, hq⟩
  · refine ⟨past ++ [.block], by rw [hsched, htail, hcons]; simp, ?_⟩
    rw [arrivals_append, ← hq]
    simp [arrivals]

theorem AccountedFor.move {u : State} {removed : Bytes} {m : Move} {moves : List Move}
    (h : AccountedFor s removed u) (hm : u.env.sched = m :: moves) :
    AccountedFor s removed ((u.withSched moves).applyMove m) := by
  obtain ⟨hx, past, hsched, hq⟩ := h
  have hrest : ((u.withSched moves).applyMove m).env.sched = moves := (applyMove_sched_txlog _ m).1
  rw [hm] at hx hsched
  refine ⟨fun x hx' => hx x (List.mem_cons_of_mem _ (hrest ▸ hx')), past ++ [m], ?_, ?_⟩
  · rw [hsched, hrest]
    simp
  · rw [applyMove_rxq _ (hx m List.mem_cons_self), arrivals_append, ← List.append_assoc, hq]
    simp

/-- Where the receive queue is the block's alone, the bytes a traced run removed are accounted for. -/
theorem traceRun_accountsFor (hx : ∀ m ∈ s.env.sched, m.exclusive = true)
    (h : traceRun n s = some r) : r.accountsFor s := by
  have hs : AccountedFor s [] s := ⟨hx, [], rfl, by simp [arrivals]⟩
  obtain ⟨-, ⟨-, hacc⟩, -⟩ := traceRun_keeps (P := fun _ => AccountedFor s)
    (fun _ _ _ _ hu _ => hu.block) (fun _ _ _ _ _ hu _ hm _ => hu.move hm) hs h
  exact hacc

/-! ## A transport that answers normally, on a schedule without reset -/

/-- The transport answers every call normally and reports no byte it does not hold, now and after every
move still to come, none of which is reset. -/
def State.Undisturbed (s : State) : Prop := s.env.wellBehaved ∧ ∀ m ∈ s.env.sched, m.quiet = true

theorem State.Undisturbed.block (h : s.Undisturbed) (ht : blockStep s.atTurn = .next t) :
    t.Undisturbed := by
  refine ⟨?_, fun m hm => h.2 m (List.mem_of_mem_tail (blockStep_sched ht ▸ hm))⟩
  obtain ⟨_, _, _, he⟩ := (blockStep_successor ht).env_eq
  rw [he]
  exact h.1

theorem State.Undisturbed.move {m : Move} {moves : List Move} (h : s.Undisturbed)
    (hs : s.env.sched = m :: moves) : ((s.withSched moves).applyMove m).Undisturbed := by
  have hq := h.2
  rw [hs] at hq
  refine ⟨wellBehaved_applyMove (hq m List.mem_cons_self) h.1, ?_⟩
  rw [(applyMove_sched_txlog _ m).1]
  exact fun x hx => hq x (List.mem_cons_of_mem _ hx)

/-- Over a transport that reports no byte it does not hold the block's step goes on (D13, U5). -/
theorem exists_blockStep_of_overcount (h : s.env.overcount = 0) : ∃ t, blockStep s = .next t :=
  (blockStep_effect s).next_of_not_pollBroken fun ⟨_, _, _, _, _, _, ho⟩ => ho h

/-- Over such a transport the machine does not stop. -/
theorem exists_traceRun (n : Nat) (h : s.Undisturbed) : ∃ r, traceRun n s = some r := by
  induction n generalizing s with
  | zero => exact ⟨_, rfl⟩
  | succ n ih =>
    by_cases hd : s.seq = .done
    · exact ⟨_, traceRun_done _ hd⟩
    · rcases step_cases s with ⟨hb, hstep⟩ | ⟨m, moves, hs, hm, -⟩
      · obtain ⟨-, -, -, ho⟩ := h.1
        obtain ⟨t, ht⟩ := exists_blockStep_of_overcount (s := s.atTurn) ho
        obtain ⟨r, hr⟩ := ih (h.block ht)
        rw [traceRun_block n hd hb (hstep.trans ht), hr]
        exact ⟨_, rfl⟩
      · rw [traceRun_move n hd hs hm]
        exact ih (h.move hs)

end traces

section progress
variable {s t : State} {r : Trace} {n T : Nat}

/-! ## Progress (R132, R134) -/

theorem seqEdge_of_idle (hs : s.seq = .idle) (h : blockStep s = .next t) : SeqEdge s t := by
  rw [SeqEdge, hs]
  cases hp : s.env.port with
  | none =>
    cases (blockStep_idle_none hs hp).symm.trans h
    exact .inl ⟨rfl, hs⟩
  | some c =>
    cases (blockStep_idle_some hs hp).symm.trans h
    exact .inr ⟨nofun, rfl⟩

theorem seqEdge_of_send {k : Trip} (hs : s.seq = .send k) (h : blockStep s = .next t) :
    SeqEdge s t := by
  rw [SeqEdge, hs]
  rw [blockStep_send hs] at h
  cases hf : s.env.txFault with
  | none =>
    rw [sendRequest_of_ok _ _ hf] at h
    cases h
    rfl
  | some e =>
    rw [sendRequest_of_fault _ _ hf] at h
    cases h
    exact ⟨rfl, rfl⟩

theorem seqEdge_of_recv {k : Trip} (hs : s.seq = .recv k) (h : blockStep s = .next t) :
    SeqEdge s t := by
  rw [SeqEdge, hs]
  rw [blockStep_recv hs] at h
  rcases poll_cases s k with ⟨hover, hp⟩ | ⟨hlen, hnow, ⟨f, hf, hp⟩ | ⟨ha, -, -, hp⟩ |
    ⟨f, lost, -, hr, -, hp⟩ | ⟨b, rest, ha, -, -, hp⟩ | ⟨-, -, -, -, hp⟩⟩
  · cases hp.symm.trans h
    exact .inr (.inr ⟨rfl, by omega⟩)
  · cases hp.symm.trans h
    exact .inr (.inl ⟨rfl, hlen, hnow, f, .inl hf, rfl⟩)
  · cases hp.symm.trans h
    exact .inl ⟨hs, hlen, hnow, ha⟩
  · cases hp.symm.trans h
    exact .inr (.inl ⟨rfl, hlen, hnow, f, .inr ⟨lost, hr⟩, rfl⟩)
  · cases hp.symm.trans h
    exact .inl ⟨hs, hlen, hnow, ha⟩
  · cases hp.symm.trans h

theorem seqEdge_of_check_write {k : Trip} (hs : s.seq = .check k) (hr : isRead s.cmd.op = false)
    (h : blockStep s = .next t) : SeqEdge s t := by
  rw [SeqEdge, hs]
  simp only [hr, Bool.false_eq_true, false_and, if_false]
  rw [blockStep_check_write hs hr] at h
  cases hl : lastTrip s.cmd.op k with
  | true =>
    rw [discardAck_of_last hl] at h
    cases h
    exact ⟨rfl, rfl⟩
  | false =>
    rw [discardAck_of_first hl] at h
    cases h
    rfl

theorem seqEdge_of_check_read {k : Trip} (hs : s.seq = .check k) (hr : isRead s.cmd.op = true)
    (h : blockStep s = .next t) : SeqEdge s t := by
  rw [SeqEdge, hs]
  cases hv : validate s.acc with
  | false =>
    cases (blockStep_check_invalid hs hr hv).symm.trans h
    simp only [hr, and_self, if_true]
    exact ⟨rfl, rfl⟩
  | true =>
    simp only [Bool.true_eq_false, and_false, if_false]
    rw [blockStep_check_valid hs hr hv] at h
    cases hf : isFloat s.cmd.op with
    | false =>
      rw [acceptValue_of_reg _ hf] at h
      cases h
      rw [if_pos (by simp [lastTrip, hf])]
      exact ⟨rfl, rfl⟩
    | true =>
      cases k with
      | zero =>
        rw [acceptValue_of_float_zero _ hf] at h
        cases h
        rw [if_neg (by simp [hf])]
      | one =>
        rw [acceptValue_of_float_one _ hf] at h
        cases h
        rw [if_pos (lastTrip_one _)]
        exact ⟨rfl, rfl⟩

/-- The block's step changes `SEQ` along a row of R134. -/
theorem blockStep_seqEdge (h : blockStep s = .next t) : SeqEdge s t := by
  cases hs : s.seq with
  | idle => exact seqEdge_of_idle hs h
  | send k => exact seqEdge_of_send hs h
  | recv k => exact seqEdge_of_recv hs h
  | check k =>
    cases hr : isRead s.cmd.op with
    | false => exact seqEdge_of_check_write hs hr h
    | true => exact seqEdge_of_check_read hs hr h
  | done =>
    cases (blockStep_done hs).symm.trans h
    rw [SeqEdge, hs]

/-- How many changes of `SEQ` are left to a command that ends without an error. -/
def Seq.stepsLeft : Seq → Nat
  | .idle => 7
  | .send .zero => 6
  | .recv .zero => 5
  | .check .zero => 4
  | .send .one => 3
  | .recv .one => 2
  | .check .one => 1
  | .done => 0

theorem Seq.stepsLeft_eq_zero {q : Seq} : q.stepsLeft = 0 ↔ q = .done := by
  cases q with
  | send k => cases k <;> simp [stepsLeft]
  | recv k => cases k <;> simp [stepsLeft]
  | check k => cases k <;> simp [stepsLeft]
  | _ => simp [stepsLeft]

theorem Seq.stepsLeft_le_six {q : Seq} (h : q ≠ .idle) : q.stepsLeft ≤ 6 := by
  cases q with
  | idle => exact absurd rfl h
  | send k => cases k <;> decide
  | recv k => cases k <;> decide
  | check k => cases k <;> decide
  | done => decide

/-- The reader is running and its deadline has not come. -/
def State.Waiting (s : State) : Prop := (∃ k, s.seq = .recv k) ∧ s.env.now < s.deadline

@[simp] theorem Seq.stepsLeft_done : Seq.done.stepsLeft = 0 := rfl
@[simp] theorem Seq.stepsLeft_send (k : Trip) :
    (Seq.send k).stepsLeft = (Seq.recv k).stepsLeft + 1 := by cases k <;> rfl
@[simp] theorem Seq.stepsLeft_recv (k : Trip) :
    (Seq.recv k).stepsLeft = (Seq.check k).stepsLeft + 1 := by cases k <;> rfl

/-- CHECK ends the command or starts trip 1 after trip 0. -/
theorem SeqEdge.of_check {k : Trip} (h : SeqEdge s t) (hs : s.seq = .check k) :
    t.seq = .done ∨ k = .zero ∧ t.seq = .send .one := by
  simp only [SeqEdge, hs] at h
  split_ifs at h with hinvalid hlast
  · exact .inl h.1
  · exact .inl h.1
  · cases k with
    | zero => exact .inr ⟨rfl, h⟩
    | one => exact absurd (lastTrip_one _) hlast

/-- Each step of the block that need not wait leads towards the end. -/
theorem SeqEdge.stepsLeft_le_pred (h : SeqEdge s t) (hi : s.seq ≠ .idle) (hw : ¬ s.Waiting) :
    t.seq.stepsLeft ≤ s.seq.stepsLeft - 1 := by
  cases hs : s.seq with
  | idle => exact absurd hs hi
  | send k =>
    rw [SeqEdge, hs] at h
    cases hf : s.env.txFault with
    | none =>
      have ht : t.seq = .recv k := by simpa only [hf] using h
      simp [ht]
    | some e =>
      simp only [hf] at h
      simp [h.1]
  | recv k =>
    rw [SeqEdge, hs] at h
    rcases h with ⟨-, -, hnow, -⟩ | ⟨-, -, hnow, -⟩ | ⟨ht, -⟩
    · exact absurd ⟨⟨k, hs⟩, hnow⟩ hw
    · exact absurd ⟨⟨k, hs⟩, hnow⟩ hw
    · simp [ht]
  | check k =>
    rcases h.of_check hs with ht | ⟨rfl, ht⟩
    · simp [ht]
    · rw [ht]
      decide
  | done =>
    rw [SeqEdge, hs] at h
    simp [h]

/-- A reader whose deadline has not come is still the reader, or the trip or the command is over. -/
theorem SeqEdge.of_waiting (h : SeqEdge s t) (hw : s.Waiting) :
    ∃ k, s.seq = .recv k ∧ (t.seq = .recv k ∨ t.seq = .check k ∨ t.seq = .done) := by
  obtain ⟨⟨k, hs⟩, -⟩ := hw
  rw [SeqEdge, hs] at h
  rcases h with ⟨ht, -⟩ | ⟨ht, -⟩ | ⟨ht, -⟩
  · exact ⟨k, hs, .inl ht⟩
  · exact ⟨k, hs, .inr (.inr ht)⟩
  · exact ⟨k, hs, .inr (.inl ht)⟩

/-- No step of the block leads away from the end. -/
theorem SeqEdge.stepsLeft_le (h : SeqEdge s t) (hi : s.seq ≠ .idle) :
    t.seq.stepsLeft ≤ s.seq.stepsLeft := by
  by_cases hw : s.Waiting
  · obtain ⟨k, hs, ht | ht | ht⟩ := h.of_waiting hw <;> simp [hs, ht]
  · have := h.stepsLeft_le_pred hi hw
    omega

/-- A reader whose deadline has not come is one that was there before, or has just been started. -/
theorem SeqEdge.waiting_or_send (h : SeqEdge s t) (ht : t.Waiting) :
    s.Waiting ∨ ∃ k, s.seq = .send k := by
  obtain ⟨⟨k, ht⟩, -⟩ := ht
  cases hs : s.seq with
  | idle =>
    rw [SeqEdge, hs] at h
    rcases h with ⟨-, h⟩ | ⟨-, h⟩
    · exact nomatch ht.symm.trans h
    · exact nomatch ht.symm.trans h
  | send k' => exact .inr ⟨k', rfl⟩
  | recv k' =>
    rw [SeqEdge, hs] at h
    rcases h with ⟨-, -, hnow, -⟩ | ⟨-, -, hnow, -⟩ | ⟨h, -⟩
    · exact .inl ⟨⟨k', hs⟩, hnow⟩
    · exact .inl ⟨⟨k', hs⟩, hnow⟩
    · exact nomatch ht.symm.trans h
  | check k' =>
    rcases h.of_check hs with h | ⟨-, h⟩
    · exact nomatch ht.symm.trans h
    · exact nomatch ht.symm.trans h
  | done =>
    rw [SeqEdge, hs] at h
    exact nomatch ht.symm.trans h

/-- The transport reports only bytes it holds, a command has been accepted, and `T` ticks are enough for
its timeout and for the deadline of a running reader. -/
structure Timely (T : Nat) (s : State) : Prop where
  accepted : s.seq ≠ .idle
  overcount : s.env.overcount = 0
  timeout : tmoEff s.cmd s.env.tDefault ≤ T
  deadline : ∀ k, s.seq = .recv k → s.deadline ≤ s.env.now + T

/-- A step of the block leaves a command on time: SEND sets the deadline from the timeout (R81). -/
theorem Successor.timely (h : Successor s t) (hs : Timely T s) : Timely T t := by
  obtain ⟨hi, ho, ht, hd⟩ := hs
  cases h with
  | still => exact ⟨hi, ho, ht, hd⟩
  | accepted c h => exact absurd h hi
  | sent => exact ⟨nofun, ho, ht, fun _ _ => Nat.add_le_add_left ht _⟩
  | nothingRead => exact ⟨hi, ho, ht, hd⟩
  | byteRead => exact ⟨hi, ho, ht, hd⟩
  | _ => exact ⟨nofun, ho, ht, nofun⟩

theorem Timely.withSched (h : Timely T s) (moves : List Move) : Timely T (s.withSched moves) :=
  ⟨h.accepted, h.overcount, h.timeout, h.deadline⟩

/-- On the block's turn a command on time takes a step of R134 and stays on time. -/
theorem Timely.step_block (h : Timely T s) (hb : s.blockTurn) :
    ∃ t, step s = .next t ∧ Timely T t ∧ SeqEdge s t ∧ t.env.sched = s.env.sched.tail := by
  obtain ⟨t, ht⟩ := exists_blockStep_of_overcount (s := s.atTurn) h.overcount
  exact ⟨t, (step_of_blockTurn hb).trans ht, (blockStep_successor ht).timely (h.withSched _),
    blockStep_seqEdge (s := s.atTurn) ht, blockStep_sched ht⟩

/-- `T` ticks later a command on time is still on time, and no reader has time left. -/
theorem Timely.step_clock {rest : List Move} (h : Timely T s) (hs : s.env.sched = .clock T :: rest) :
    ∃ t, step s = .next t ∧ Timely T t ∧ t.seq = s.seq ∧ t.env.sched = rest ∧ ¬ t.Waiting := by
  refine ⟨_, step_of_move hs nofun, ⟨h.accepted, h.overcount, h.timeout, fun k hk => ?_⟩, rfl, rfl, ?_⟩
  · exact Nat.le_add_right_of_le (h.deadline k hk)
  · rintro ⟨⟨k, hk⟩, hnow⟩
    exact absurd (h.deadline k hk) (Nat.not_le_of_lt hnow)

/-- One round of `fairMoves` takes a command two changes of `SEQ` nearer its end: a reader that has to
wait for its deadline costs a step of the round, and one that is started in it comes after another
change. -/
theorem Timely.runSteps_round {rest : List Move} (h : Timely T s)
    (hs : s.env.sched = .block :: .clock T :: .block :: .block :: rest) :
    ∃ t, runSteps 4 s = .next t ∧ Timely T t ∧ t.env.sched = rest ∧
      t.seq.stepsLeft ≤ s.seq.stepsLeft - 2 := by
  obtain ⟨u, hu, hut, hedge, husched⟩ := h.step_block (.inr ⟨_, hs⟩)
  rw [hs] at husched
  obtain ⟨v, hv, hvt, hvseq, hvsched, hvw⟩ := hut.step_clock husched
  obtain ⟨w, hw, hwt, hedge', hwsched⟩ := hvt.step_block (.inr ⟨_, hvsched⟩)
  rw [hvsched] at hwsched
  obtain ⟨t, ht, htt, hedge'', htsched⟩ := hwt.step_block (.inr ⟨_, hwsched⟩)
  rw [hwsched] at htsched
  refine ⟨t, ?_, htt, htsched, ?_⟩
  · rw [runSteps_succ hu, runSteps_succ hv, runSteps_succ hw, runSteps_one ht]
  have h3 : w.seq.stepsLeft ≤ u.seq.stepsLeft - 1 := hvseq ▸ hedge'.stepsLeft_le_pred hvt.accepted hvw
  by_cases hwait : s.Waiting
  · have h1 := hedge.stepsLeft_le h.accepted
    have hww : ¬ w.Waiting := by
      intro hww
      obtain ⟨k, -, hsend⟩ := hedge.of_waiting hwait
      rcases hedge'.waiting_or_send hww with hv | ⟨k', hv⟩
      · exact hvw hv
      · rw [hvseq] at hv
        simp [hv] at hsend
    have h4 := hedge''.stepsLeft_le_pred hwt.accepted hww
    omega
  · have h1 := hedge.stepsLeft_le_pred h.accepted hwait
    have h4 := hedge''.stepsLeft_le hwt.accepted
    omega

/-- Three rounds are enough for every command (R132). -/
theorem Timely.runSteps_fairMoves {rest : List Move} (h : Timely T s)
    (hs : s.env.sched = fairMoves T ++ rest) :
    ∃ t, runSteps (fairMoves T).length s = .next t ∧ t.seq = .done := by
  obtain ⟨u, hu, hut, husched, hule⟩ := h.runSteps_round hs
  obtain ⟨v, hv, hvt, hvsched, hvle⟩ := hut.runSteps_round husched
  obtain ⟨t, ht, -, -, htle⟩ := hvt.runSteps_round hvsched
  refine ⟨t, ?_, Seq.stepsLeft_eq_zero.mp ?_⟩
  · rw [show (fairMoves T).length = 4 + (4 + 4) from rfl, runSteps_add _ hu, runSteps_add _ hv, ht]
  · have hmax := Seq.stepsLeft_le_six h.accepted
    omega

/-- A move that is neither the reset nor a longer default leaves a command in progress on time. -/
theorem Timely.applyMove {m : Move} (h : Timely T s) (hq : m.quiet = true) (hd : s.seq ≠ .done)
    (hset : ∀ d, m = .setDefault d → tmoEff s.cmd d ≤ T) : Timely T (s.applyMove m) := by
  obtain ⟨hi, ho, ht, hdl⟩ := h
  cases m with
  | reset => exact absurd hq Bool.false_ne_true
  | retire =>
    rw [State.applyMove, retire_of_not_done hd]
    exact ⟨hi, ho, ht, hdl⟩
  | clock d => exact ⟨hi, ho, ht, fun k hk => (hdl k hk).trans (by simp [State.applyMove])⟩
  | setDefault d => exact ⟨hi, ho, hset d rfl, hdl⟩
  | overreport k => exact ⟨hi, eq_of_beq hq, ht, hdl⟩
  | serve =>
    obtain ⟨_, _, _, he⟩ := serve_eq s.env
    rw [State.applyMove, he]
    exact ⟨hi, ho, ht, hdl⟩
  | _ => exact ⟨hi, ho, ht, hdl⟩

/-- The command `c` has been accepted and is on time, and `left` moves stand before the three rounds
with `T`. -/
structure BeforeRounds (c : HostCmd) (T : Nat) (late : List Move) (left : Nat) (s : State) : Prop where
  timely : Timely T s
  cmd : s.cmd = c
  sched : ∃ early, early.length = left ∧ s.env.sched = early ++ (fairMoves T ++ late) ∧
    (∀ m ∈ early, m.quiet = true) ∧ ∀ d, .setDefault d ∈ early → tmoEff c d ≤ T

variable {c : HostCmd} {late : List Move} {left : Nat}

theorem BeforeRounds.block (h : BeforeRounds c T late (left + 1) s)
    (ht : blockStep s.atTurn = .next t) : BeforeRounds c T late left t := by
  obtain ⟨htimely, hcmd, early, hlen, hsched, hq, hset⟩ := h
  have hsucc := blockStep_successor ht
  refine ⟨hsucc.timely (htimely.withSched _), ?_, ?_⟩
  · by_contra hc
    exact htimely.accepted (hsucc.cmd_changed (fun h => hc (h.trans hcmd))).1
  · obtain ⟨m, early, rfl⟩ := List.exists_cons_of_length_eq_add_one hlen
    rw [blockStep_sched ht, hsched]
    exact ⟨early, Nat.succ.inj hlen, rfl, fun x hx => hq x (List.mem_cons_of_mem _ hx),
      fun d hd => hset d (List.mem_cons_of_mem _ hd)⟩

theorem BeforeRounds.move {m : Move} {moves : List Move} (h : BeforeRounds c T late (left + 1) s)
    (hd : s.seq ≠ .done) (hm : s.env.sched = m :: moves) :
    BeforeRounds c T late left ((s.withSched moves).applyMove m) := by
  obtain ⟨htimely, hcmd, early, hlen, hsched, hq, hset⟩ := h
  obtain ⟨m', early, rfl⟩ := List.exists_cons_of_length_eq_add_one hlen
  obtain ⟨rfl, rfl⟩ := List.cons.inj (hm.symm.trans hsched)
  have hmq := hq m List.mem_cons_self
  refine ⟨(htimely.withSched _).applyMove hmq hd fun d hdef => ?_, ?_, early, Nat.succ.inj hlen,
    (applyMove_sched_txlog _ m).1, fun x hx => hq x (List.mem_cons_of_mem _ hx),
    fun d hd => hset d (List.mem_cons_of_mem _ hd)⟩
  · rw [withSched_cmd, hcmd]
    exact hset d (hdef ▸ List.mem_cons_self)
  · have hreset : m ≠ .reset := by
      rintro rfl
      exact absurd hmq Bool.false_ne_true
    rw [applyMove_cmd _ hreset, withSched_cmd, hcmd]

/-- A traced run that is long enough for the moves before the rounds and the rounds has ended. -/
theorem BeforeRounds.traceRun_done {b : Nat} (h : BeforeRounds c T late left s) (hu : s.Undisturbed)
    (hr : traceRun (left + ((fairMoves T).length + b)) s = some r) : r.state.seq = .done := by
  obtain ⟨r₀, hr₀⟩ := exists_traceRun left hu
  obtain ⟨left', hrounds, hend⟩ := traceRun_keeps (P := fun left _ => BeforeRounds c T late left)
    (fun _ _ _ _ hu _ _ => hu.block) (fun _ _ _ _ _ hu hd hm _ => hu.move hd hm)
    (removed := []) h hr₀
  have hstate := traceRun_add left ((fairMoves T).length + b) hr₀
  rw [hr, Option.map_some, eq_comm, Option.map_eq_some_iff] at hstate
  obtain ⟨r₁, hr₁, hstate⟩ := hstate
  rw [← hstate]
  rcases hend with rfl | hdone
  · obtain ⟨htimely, -, early, hearly, hsched, -⟩ := hrounds
    rw [List.length_eq_zero_iff.mp hearly] at hsched
    obtain ⟨t, ht, hdone⟩ := htimely.runSteps_fairMoves hsched
    exact traceRun_done_of_runSteps ht hdone hr₁
  · rw [Machine.traceRun_done _ hdone] at hr₁
    cases hr₁
    exact hdone

/-- A traced run of a presented command has ended if time enough passes within its steps (R132). -/
theorem traceRun_done_of_timeEnough {moves : List Move} (h : s.Undisturbed) (hs : s.seq = .idle)
    (hp : s.env.port = some c) (hsched : s.env.sched = .block :: moves)
    (htime : timeEnough c s.env.tDefault moves n) (hr : traceRun n s = some r) :
    r.state.seq = .done := by
  obtain ⟨early, late, T, rfl, hT, hset, hn⟩ := htime
  obtain ⟨b, rfl⟩ := Nat.exists_eq_add_of_le hn
  have haccept := blockStep_idle_some (s := s.atTurn) hs hp
  have hturn : s.blockTurn := .inr ⟨_, hsched⟩
  have hquiet := h.2
  rw [hsched] at hquiet
  have hstart : BeforeRounds c T late early.length (s.atTurn.accept c) := by
    obtain ⟨-, -, -, ho⟩ := h.1
    exact ⟨⟨nofun, ho, hT, nofun⟩, rfl, early, rfl, by simp [hsched],
      fun m hm => hquiet m (List.mem_cons_of_mem _ (List.mem_append_left _ hm)), hset⟩
  rw [show 1 + early.length + (fairMoves T).length + b = early.length + ((fairMoves T).length + b) + 1 by
    omega, traceRun_block _ (by simp [hs]) hturn ((step_of_blockTurn hturn).trans haccept),
    Option.map_eq_some_iff] at hr
  obtain ⟨r', hr', rfl⟩ := hr
  have hdone := hstart.traceRun_done (h.block haccept) hr'
  exact hdone

end progress

/-! ## The course of a command (R121 to R126) -/

/-- The `TxWrite` call of a trip that the transport takes (R21, R128). -/
def tripCall (c : HostCmd) (k : Trip) : TxCall := ⟨tripFrame c k, (tripFrame c k).length⟩

/-- The `TxWrite` calls of a command all of whose trips are made, in their order. -/
def tripCalls (c : HostCmd) : List TxCall :=
  if isFloat c.op then [tripCall c .zero, tripCall c .one] else [tripCall c .zero]

/-- The command `c` is in trip `k`, and `first` is what the trips before it removed: whatever came back
to a write, the one response that was valid of a read, its value kept in `HIWORD`. -/
structure AtTrip (c : HostCmd) (k : Trip) (first : Bytes) (s : State) : Prop where
  cmd : s.cmd = c
  bound : first.length ≤ (needOf c.op).count * k.toNat
  second : k = .one → isFloat c.op = true
  valid : k = .one → isRead c.op = true → validate first = true ∧ s.hiword = extract first

/-- The request of trip `k` is sent, and its reader holds `ACC`; `log` are the calls before the
command. -/
structure AtReply (c : HostCmd) (log : List TxCall) (k : Trip) (first : Bytes) (s : State) : Prop where
  trip : AtTrip c k first s
  sent : s.env.txlog = log ++ (tripCalls c).take (k.toNat + 1)
  need : s.need = needOf c.op
  acc : s.acc.length ≤ s.need.count

/-- The reader has what it was asked for, or its deadline has come (R83). -/
def State.ReaderOver (s : State) : Prop :=
  s.acc.length = s.need.count ∨ s.deadline ≤ s.env.now

/-- The results that CHECK of trip `k` ends an operation with, where it ends it (R124, R125). -/
inductive EndsWith (op : BitVec 2) (k : Trip) (acc : Bytes) (hiword : Half) : Result → Prop where
  | ok : isRead op = false → lastTrip op k = true → EndsWith op k acc hiword .ok
  | okReg : isRead op = true → isFloat op = false → validate acc = true →
      EndsWith op k acc hiword (.okReg (extract acc))
  | okFloat : isRead op = true → k = .one → validate acc = true →
      EndsWith op k acc hiword (.okFloat (fjoin hiword (extract acc)))
  | invalid : isRead op = true → validate acc = false →
      EndsWith op k acc hiword (.invalidResponse acc)

/-- Where the command `c` stands, from its presentation to its end, when the transport answers every
call normally: the bytes removed so far and the state. -/
inductive Course (c : HostCmd) (log : List TxCall) : Bytes → State → Prop where
  | presented {s : State} : s.seq = .idle → s.env.port = some c → s.blockTurn → s.env.txlog = log →
      Course c log [] s
  | sending {k : Trip} {first : Bytes} {s : State} : s.seq = .send k → AtTrip c k first s →
      s.env.txlog = log ++ (tripCalls c).take k.toNat → Course c log first s
  | reading {k : Trip} {first removed : Bytes} {s : State} : s.seq = .recv k →
      AtReply c log k first s → removed = first ++ s.acc → Course c log removed s
  | checking {k : Trip} {first removed : Bytes} {s : State} : s.seq = .check k →
      AtReply c log k first s → removed = first ++ s.acc → s.ReaderOver → Course c log removed s
  | ended {k : Trip} {first removed : Bytes} {s : State} {r : Result} : s.seq = .done →
      AtReply c log k first s → removed = first ++ s.acc → s.ReaderOver →
      EndsWith c.op k s.acc s.hiword r → s.res = r.regs → Course c log removed s

section course
variable {s t : State} {c : HostCmd} {log : List TxCall} {k : Trip} {first removed : Bytes}

/-- The calls up to a trip are those before it and its own. -/
theorem tripCalls_take_succ (h : k = .one → isFloat c.op = true) :
    (tripCalls c).take (k.toNat + 1) = (tripCalls c).take k.toNat ++ [tripCall c k] := by
  cases k with
  | zero => cases hf : isFloat c.op <;> simp [tripCalls, hf, Trip.toNat]
  | one => simp [tripCalls, h rfl, Trip.toNat]

/-- A trip that a command makes is one of its calls. -/
theorem lt_tripCalls_length (h : k = .one → isFloat c.op = true) : k.toNat < (tripCalls c).length := by
  cases k with
  | zero => cases hf : isFloat c.op <;> simp [tripCalls, hf, Trip.toNat]
  | one => simp [tripCalls, h rfl, Trip.toNat]

/-- The last trip is the last of the calls. -/
theorem tripCalls_length_of_lastTrip (h : k = .one → isFloat c.op = true)
    (hl : lastTrip c.op k = true) : (tripCalls c).length = k.toNat + 1 := by
  cases k with
  | zero =>
    have hf : isFloat c.op = false := by simpa using hl
    simp [tripCalls, hf, Trip.toNat]
  | one => simp [tripCalls, h rfl, Trip.toNat]

theorem AtTrip.of_eq (h : AtTrip c k first s) (hcmd : t.cmd = s.cmd) (hhi : t.hiword = s.hiword) :
    AtTrip c k first t :=
  ⟨hcmd.trans h.cmd, h.bound, h.second, hhi ▸ h.valid⟩

theorem AtReply.of_eq (h : AtReply c log k first s) (hcmd : t.cmd = s.cmd) (hhi : t.hiword = s.hiword)
    (hlog : t.env.txlog = s.env.txlog) (hneed : t.need = s.need) (hacc : t.acc.length ≤ s.need.count) :
    AtReply c log k first t :=
  ⟨h.trip.of_eq hcmd hhi, hlog.trans h.sent, hneed.trans h.need, hneed ▸ hacc⟩

/-- What another agent does to the environment after the ACCEPT leaves the command where it is, unless
it writes the transmit log or turns back the clock. -/
theorem Course.withEnv {e : Env} (h : Course c log removed s) (hi : s.seq ≠ .idle)
    (hlog : e.txlog = s.env.txlog) (hnow : s.env.now ≤ e.now) :
    Course c log removed { s with env := e } := by
  cases h with
  | presented hs => exact absurd hs hi
  | sending hs htrip hsent => exact .sending hs (htrip.of_eq rfl rfl) (hlog.trans hsent)
  | reading hs hreply hrem => exact .reading hs (hreply.of_eq rfl rfl hlog rfl hreply.acc) hrem
  | checking hs hreply hrem hover =>
    exact .checking hs (hreply.of_eq rfl rfl hlog rfl hreply.acc) hrem (hover.imp_right hnow.trans')
  | ended hs hreply hrem hover hend hres =>
    exact .ended hs (hreply.of_eq rfl rfl hlog rfl hreply.acc) hrem (hover.imp_right hnow.trans') hend
      hres

/-- SEND that is taken: the reader starts with an empty `ACC` (R122). -/
theorem AtTrip.course_of_send (h : AtTrip c k first s) (hs : s.seq = .send k)
    (hsent : s.env.txlog = log ++ (tripCalls c).take k.toNat) (hf : s.env.txFault = none)
    (ht : blockStep s = .next t) : Course c log first t := by
  rw [blockStep_send hs, sendRequest_of_ok _ _ hf] at ht
  obtain rfl := Host.Outcome.next.inj ht
  refine .reading rfl ⟨h.of_eq rfl rfl, ?_, h.cmd ▸ rfl, Nat.zero_le _⟩ (List.append_nil first).symm
  rw [tripCalls_take_succ h.second, ← List.append_assoc, ← hsent, tripCall, ← h.cmd]

/-- POLL: the reader goes on, takes a byte, or is over (R123). -/
theorem AtReply.course_of_poll (h : AtReply c log k first s) (hs : s.seq = .recv k)
    (hw : s.env.wellBehaved) (ht : blockStep s = .next t) :
    Course c log (first ++ s.acc ++ bytesTaken s t) t := by
  obtain ⟨-, ha, hr, -⟩ := hw
  rw [blockStep_recv hs] at ht
  rcases poll_cases s k with ⟨hover, hp⟩ | ⟨hlen, -, ⟨f, hf, -⟩ | ⟨-, -, -, hp⟩ |
    ⟨f, lost, -, hf, -⟩ | ⟨b, rest, -, -, hq, hp⟩ | ⟨-, -, -, -, hp⟩⟩
  · obtain rfl := Host.Outcome.next.inj (hp.symm.trans ht)
    refine .checking rfl (h.of_eq rfl rfl rfl rfl h.acc) (by simp [bytesTaken]) ?_
    rcases Decidable.not_and_iff_not_or_not.mp hover with hlen | hnow
    · exact .inl (h.acc.antisymm (Nat.le_of_not_lt hlen))
    · exact .inr (Nat.le_of_not_lt hnow)
  · exact nomatch ha.symm.trans hf
  · obtain rfl := Host.Outcome.next.inj (hp.symm.trans ht)
    exact .reading hs h (by simp [bytesTaken])
  · exact nomatch hr.symm.trans hf
  · obtain rfl := Host.Outcome.next.inj (hp.symm.trans ht)
    exact .reading hs (h.of_eq rfl rfl rfl rfl (by simpa using hlen)) (by simp [bytesTaken, hq])
  · exact nomatch hp.symm.trans ht

/-- CHECK that ends the command. -/
theorem AtReply.course_of_finish {r : Result} (h : AtReply c log k first s) (hover : s.ReaderOver)
    (hr : EndsWith c.op k s.acc s.hiword r) : Course c log (first ++ s.acc) (s.finish r) :=
  .ended rfl (h.of_eq rfl rfl rfl rfl h.acc) rfl hover hr rfl

/-- CHECK after trip 0 of a float: its reply is what the trips before trip 1 removed. -/
theorem AtReply.course_of_secondTrip {v : Half} (h : AtReply c log .zero first s)
    (hf : isFloat c.op = true) (hvalid : isRead c.op = true → validate s.acc = true ∧ v = extract s.acc) :
    Course c log (first ++ s.acc) { s with hiword := v, seq := .send .one } := by
  have hnil : first = [] := List.length_eq_zero_iff.mp (Nat.le_zero.mp h.trip.bound)
  have hacc := h.acc
  rw [h.need] at hacc
  subst hnil
  exact .sending rfl ⟨h.trip.cmd, by simpa [Trip.toNat] using hacc, fun _ => hf, fun _ => hvalid⟩ h.sent

/-- CHECK of a write ends it after its last trip and starts trip 1 else (R124). -/
theorem AtReply.course_of_check_write (h : AtReply c log k first s) (hs : s.seq = .check k)
    (hover : s.ReaderOver) (hr : isRead c.op = false) (ht : blockStep s = .next t) :
    Course c log (first ++ s.acc) t := by
  obtain rfl := h.trip.cmd
  rw [blockStep_check_write hs hr] at ht
  cases hl : lastTrip s.cmd.op k with
  | true =>
    rw [discardAck_of_last hl] at ht
    obtain rfl := Host.Outcome.next.inj ht
    exact h.course_of_finish hover (.ok hr hl)
  | false =>
    rw [discardAck_of_first hl] at ht
    obtain rfl := Host.Outcome.next.inj ht
    cases k with
    | zero =>
      exact h.course_of_secondTrip (by simpa using hl) fun hread => nomatch hr.symm.trans hread
    | one => exact absurd ((lastTrip_one _).symm.trans hl) nofun

/-- CHECK of a read ends it unless the response is the first valid one of a float (R125). -/
theorem AtReply.course_of_check_read (h : AtReply c log k first s) (hs : s.seq = .check k)
    (hover : s.ReaderOver) (hr : isRead c.op = true) (ht : blockStep s = .next t) :
    Course c log (first ++ s.acc) t := by
  obtain rfl := h.trip.cmd
  cases hv : validate s.acc with
  | false =>
    obtain rfl := Host.Outcome.next.inj ((blockStep_check_invalid hs hr hv).symm.trans ht)
    exact h.course_of_finish hover (.invalid hr hv)
  | true =>
    rw [blockStep_check_valid hs hr hv] at ht
    cases hf : isFloat s.cmd.op with
    | false =>
      rw [acceptValue_of_reg _ hf] at ht
      obtain rfl := Host.Outcome.next.inj ht
      exact h.course_of_finish hover (.okReg hr hf hv)
    | true =>
      cases k with
      | zero =>
        rw [acceptValue_of_float_zero _ hf] at ht
        obtain rfl := Host.Outcome.next.inj ht
        exact h.course_of_secondTrip hf fun _ => ⟨hv, rfl⟩
      | one =>
        rw [acceptValue_of_float_one _ hf] at ht
        obtain rfl := Host.Outcome.next.inj ht
        exact h.course_of_finish hover (.okFloat hr rfl hv)

/-- Each step of the block follows the course. -/
theorem Course.block (h : Course c log removed s) (hd : s.seq ≠ .done) (hw : s.env.wellBehaved)
    (ht : blockStep s.atTurn = .next t) : Course c log (removed ++ bytesTaken s t) t := by
  cases h with
  | presented hs hp _ hlog =>
    rw [bytesTaken_of_not_recv ht (by simp [hs])]
    obtain rfl := Host.Outcome.next.inj ((blockStep_idle_some (s := s.atTurn) hs hp).symm.trans ht)
    exact .sending rfl ⟨rfl, Nat.zero_le _, nofun, nofun⟩ (by simp [hlog, Trip.toNat])
  | sending hs htrip hsent =>
    rw [bytesTaken_of_not_recv ht (by simp [hs]), List.append_nil]
    exact (htrip.of_eq (t := s.atTurn) rfl rfl).course_of_send hs hsent hw.1 ht
  | reading hs hreply hrem =>
    rw [hrem]
    exact (hreply.of_eq (t := s.atTurn) rfl rfl rfl rfl hreply.acc).course_of_poll hs hw ht
  | checking hs hreply hrem hover =>
    have hturn := hreply.of_eq (t := s.atTurn) rfl rfl rfl rfl hreply.acc
    rw [bytesTaken_of_not_recv ht (by simp [hs]), List.append_nil, hrem]
    cases hr : isRead c.op with
    | false => exact hturn.course_of_check_write hs hover hr ht
    | true => exact hturn.course_of_check_read hs hover hr ht
  | ended hs => exact absurd hs hd

/-- Another agent's move leaves the command where it is. -/
theorem Course.move {m : Move} {moves : List Move} (h : Course c log removed s) (hd : s.seq ≠ .done)
    (hm : s.env.sched = m :: moves) (hne : m ≠ .block) (hreset : m ≠ .reset) :
    Course c log removed ((s.withSched moves).applyMove m) := by
  have hi : s.seq ≠ .idle := by
    intro hi
    cases h with
    | presented _ _ hb => exact not_blockTurn_of_move hm hne hb
    | sending hs => exact nomatch hi.symm.trans hs
    | reading hs => exact nomatch hi.symm.trans hs
    | checking hs => exact nomatch hi.symm.trans hs
    | ended hs => exact nomatch hi.symm.trans hs
  rw [applyMove_eq_withEnv (s := s.withSched moves) hreset hd]
  exact h.withEnv hi (applyMove_sched_txlog _ m).2 (now_le_applyMove (s.withSched moves) m)

/-- A traced run of a presented command over a transport that answers normally follows the command's
course. -/
theorem traceRun_course {n : Nat} {r : Trace} (h : s.Undisturbed) (hs : s.seq = .idle)
    (hp : s.env.port = some c) (hb : s.blockTurn) (hr : traceRun n s = some r) :
    Course c s.env.txlog r.removed r.state := by
  obtain ⟨-, ⟨-, hcourse⟩, -⟩ := traceRun_keeps
    (P := fun _ removed u => u.Undisturbed ∧ Course c s.env.txlog removed u)
    (fun _ _ _ _ ⟨hu, hc⟩ hd _ ht => ⟨hu.block ht, hc.block hd hu.1 ht⟩)
    (fun _ _ u m _ ⟨hu, hc⟩ hd hm hne => ⟨hu.move hm, hc.move hd hm hne fun hreset =>
      absurd (hu.2 m (by simp [hm])) (by simp [hreset, Move.quiet])⟩)
    (removed := []) ⟨h, .presented hs hp hb rfl⟩ hr
  exact hcourse

/-- The frames sent so far are the first of the command's. -/
theorem Course.txlog_eq (h : Course c log removed s) :
    ∃ sent, s.env.txlog = log ++ (tripCalls c).take sent := by
  cases h with
  | presented _ _ _ hlog => exact ⟨0, by simp [hlog]⟩
  | sending _ _ hsent => exact ⟨_, hsent⟩
  | reading _ hreply => exact ⟨_, hreply.sent⟩
  | checking _ hreply => exact ⟨_, hreply.sent⟩
  | ended _ hreply => exact ⟨_, hreply.sent⟩

theorem AtTrip.length_le {first : Bytes} (h : AtTrip c k first s) :
    first.length ≤ (needOf c.op).count * (tripCalls c).length :=
  h.bound.trans (Nat.mul_le_mul_left _ (lt_tripCalls_length h.second).le)

theorem AtReply.length_le {first : Bytes} (h : AtReply c log k first s) :
    (first ++ s.acc).length ≤ (needOf c.op).count * (tripCalls c).length := by
  calc (first ++ s.acc).length
    _ = first.length + s.acc.length := List.length_append
    _ ≤ (needOf c.op).count * k.toNat + (needOf c.op).count :=
      Nat.add_le_add h.trip.bound (h.need ▸ h.acc)
    _ = (needOf c.op).count * (k.toNat + 1) := (Nat.mul_succ _ _).symm
    _ ≤ (needOf c.op).count * (tripCalls c).length :=
      Nat.mul_le_mul_left _ (lt_tripCalls_length h.trip.second)

/-- No more bytes are removed than the command's readers ask for (R84). -/
theorem Course.length_le (h : Course c log removed s) :
    removed.length ≤ (needOf c.op).count * (tripCalls c).length := by
  cases h with
  | presented => exact Nat.zero_le _
  | sending _ htrip => exact htrip.length_le
  | reading _ hreply hrem => exact hrem ▸ hreply.length_le
  | checking _ hreply hrem => exact hrem ▸ hreply.length_le
  | ended _ hreply hrem => exact hrem ▸ hreply.length_le

/-! ## The end of a write (R91, R92) -/

/-- A write that has ended has ended `OK` in its last trip, whatever that trip's reader returned (R91,
R92). -/
theorem Course.write_ended (h : Course c log removed s) (hr : isRead c.op = false)
    (hd : s.seq = .done) :
    s.res = Result.ok.regs ∧ s.ReaderOver ∧ ∃ k first, removed = first ++ s.acc ∧
      AtReply c log k first s ∧ lastTrip c.op k = true := by
  cases h with
  | presented hs => exact nomatch hd.symm.trans hs
  | sending hs => exact nomatch hd.symm.trans hs
  | reading hs => exact nomatch hd.symm.trans hs
  | checking hs => exact nomatch hd.symm.trans hs
  | ended _ hreply hrem hover hend hres =>
    cases hend with
    | ok _ hl => exact ⟨hres, hover, _, _, hrem, hreply, hl⟩
    | okReg hread => exact nomatch hr.symm.trans hread
    | okFloat hread => exact nomatch hr.symm.trans hread
    | invalid hread => exact nomatch hr.symm.trans hread

/-- A step of the block that ends a write ends it `OK` or with a transport error (R92). -/
theorem Successor.done_of_busy_write (h : Successor s t) (hb : s.busy = true) (ht : t.seq = .done)
    (hr : isRead s.cmd.op = false) :
    t.res = Result.ok.regs ∨ ∃ f, t.res = (Result.transportError f).regs := by
  obtain ⟨k, hk⟩ := (busy_iff s).mp hb
  cases h with
  | sendFaulted => exact .inr ⟨_, rfl⟩
  | availFaulted => exact .inr ⟨_, rfl⟩
  | readFaulted => exact .inr ⟨_, rfl⟩
  | writeEnded => exact .inl rfl
  | floatEnded _ _ hread => exact absurd (hr.symm.trans hread) Bool.false_ne_true
  | readEnded _ _ _ hread => exact absurd (hr.symm.trans hread) Bool.false_ne_true
  | readInvalid _ _ hread => exact absurd (hr.symm.trans hread) Bool.false_ne_true
  | still => rcases hk with h | h | h <;> exact nomatch h.symm.trans ht
  | nothingRead _ h => exact nomatch h.symm.trans ht
  | byteRead _ _ _ h => exact nomatch h.symm.trans ht
  | _ => exact nomatch ht

end course

/-! ## The requests of a write and their acknowledgement (R90, R91, R109) -/

/-- A write asks for six bytes (R128). -/
theorem needOf_of_write {op : BitVec 2} (h : isRead op = false) : needOf op = .six := by
  simp [needOf, h]

/-- The one frame of a `WRITE_REG` (R90, R128). -/
theorem tripFrame_of_writeReg {c : HostCmd} (h : c.op = 0) :
    tripFrame c .zero = encWrite c.addr.toNat (c.wdata.toNat &&& 0xFFFF) := by
  simp [tripFrame, tripVal, h, lowHalf_toNat, and_0xFFFF_eq_mod]

/-- The two frames of a `WRITE_FLOAT`, the more significant word first (R109, R128). -/
theorem tripFrame_of_writeFloat {c : HostCmd} (h : c.op = 2) :
    tripFrame c .zero = encWrite c.addr.toNat (c.wdata.toNat >>> 16) ∧
      tripFrame c .one =
        encWrite ((c.addr.toNat + 1) &&& 0xFFFF) (c.wdata.toNat &&& 0xFFFF) := by
  simp [tripFrame, tripVal, tripWord, h, fsplit_fst_toNat, fsplit_snd_toNat, tripAddr_one_toNat,
    and_0xFFFF_eq_mod, Nat.shiftRight_eq_div_pow]

/-- The calls that the statements write out are those of the command, which is a write. -/
theorem tripCalls_of_write {c : HostCmd} {frames : List TxCall}
    (h : c.op = 0 ∧ frames = [⟨encWrite c.addr.toNat (c.wdata.toNat &&& 0xFFFF), 8⟩] ∨
      c.op = 2 ∧ frames = [⟨encWrite c.addr.toNat (c.wdata.toNat >>> 16), 8⟩,
        ⟨encWrite ((c.addr.toNat + 1) &&& 0xFFFF) (c.wdata.toNat &&& 0xFFFF), 8⟩]) :
    isRead c.op = false ∧ frames = tripCalls c := by
  rcases h with ⟨hop, rfl⟩ | ⟨hop, rfl⟩
  · simp [hop, tripCalls, tripCall, tripFrame_of_writeReg hop]
  · obtain ⟨hzero, hone⟩ := tripFrame_of_writeFloat hop
    simp [hop, tripCalls, tripCall, hzero, hone]

section check
variable {s : State} {k : Trip} {addr : Half} {wdata : Pattern} {tmoEn : Bool} {tmo : Nat}

/-- At CHECK of a write the acknowledgement and either command are the discard of R124. -/
theorem exec_wrAck_of_check (bytes : Bytes) (hs : s.seq = .check k) (hr : isRead s.cmd.op = false) :
    exec (.wrAck bytes) s = .next (s.discardAck k) := by
  simp [execWrAck, hs, hr]

theorem exec_writeReg_of_check (hs : s.running ⟨0, addr, wdata, tmoEn, tmo⟩ (.check k)) :
    exec (.writeReg addr wdata tmoEn tmo) s = .next (s.discardAck k) := by
  have hl : lastTrip s.cmd.op k = true := by rw [hs.2]; cases k <;> simp
  rw [exec_writeReg, execWriteReg, runCommand_check hs, discardAck_of_last hl]

theorem exec_writeFloat_of_check (hs : s.running ⟨2, addr, wdata, tmoEn, tmo⟩ (.check k)) :
    exec (.writeFloat addr wdata tmoEn tmo) s = .next (s.discardAck k) := by
  rw [exec_writeFloat, execWriteFloat, runCommand_check hs]
  cases k with
  | zero => rw [discardAck_of_first (by simp [hs.2])]
  | one => rw [discardAck_of_last (lastTrip_one _)]

end check

/-! ## The obligations -/

/-- Settles O59: a traced run follows the course of its command, a write that has ended there has ended
`OK` in its last trip, three rounds of the block and the clock are enough to end it, and the block takes
bytes from the head of the queue only. -/
theorem writesEndOkOnEverySchedule : Obligations.WritesEndOkOnEverySchedule := by
  intro s c frames moves n hframes hs hp hw hsched hquiet
  obtain ⟨hread, rfl⟩ := tripCalls_of_write hframes
  have hu : s.Undisturbed := ⟨hw, by simpa [hsched, Move.quiet] using hquiet⟩
  have hneed : (needOf c.op).count = 6 := by rw [needOf_of_write hread]; rfl
  obtain ⟨r, hr⟩ := exists_traceRun n hu
  have hcourse := traceRun_course hu hs hp (.inr ⟨moves, hsched⟩) hr
  refine ⟨r, hr, hneed ▸ hcourse.length_le, hcourse.txlog_eq, fun hd => ?_,
    fun htime => traceRun_done_of_timeEnough hu hs hp hsched htime hr,
    fun hx => traceRun_accountsFor (by simpa [hsched, Move.exclusive] using hx) hr⟩
  obtain ⟨hres, hover, k, first, hrem, hreply, hlast⟩ := hcourse.write_ended hread hd
  have hlen := tripCalls_length_of_lastTrip hreply.trip.second hlast
  have hcount : r.state.need.count = 6 := by rw [hreply.need, hneed]
  refine ⟨hres, ?_, first, hrem, ?_, hcount ▸ hreply.acc, hcount ▸ hover⟩
  · rw [hreply.sent, ← hlen, List.take_length]
  · rw [hlen, Nat.add_sub_cancel, ← hneed]
    exact hreply.trip.bound

/-- Settles O46, successor by successor; another agent's move ends no command. -/
theorem writesNeverEndInvalid : Obligations.WritesNeverEndInvalid := by
  intro s t h hb ht hr
  rcases step_cases s with ⟨-, hstep⟩ | ⟨m, moves, -, -, hstep⟩
  · exact ((blockStep_successor (hstep.symm.trans h)).done_of_busy_write hb ht hr).imp_left
      (congrArg ResultRegs.status)
  · cases hstep.symm.trans h
    have hd : s.seq ≠ .done := fun hd => by simp [State.busy, hd] at hb
    by_cases hreset : m = .reset
    · subst hreset
      exact nomatch ht
    · rw [applyMove_eq_withEnv (s := s.withSched moves) hreset hd] at ht
      exact absurd ht hd

/-- Settles O52: ACCEPT, the one trip up to its CHECK, and the CHECK that discards what was read. -/
theorem writeRegEndsOkWhateverComesBack : Obligations.WriteRegEndsOkWhateverComesBack := by
  intro s addr wdata tmoEn tmo T bs moves hidle hport hw hpos hT hsched
  have hn : 6 = (needOf 0).count := congrArg Need.count (needOf_of_write isRead_zero).symm
  have haccept := step_idle_some (.inr ⟨_, hsched⟩) hidle hport
  have hrest : s.atTurn.env.sched = tripMoves 6 T bs ++ moves := by simp [hsched]
  have hrun := runSteps_tripMoves (s := s.atTurn.accept ⟨0, addr, wdata, tmoEn, tmo⟩) bs moves rfl hw hn
    hpos hT hrest
  rw [blockStep_check_write rfl isRead_zero, discardAck_of_last (by simp [State.replied])] at hrun
  refine ⟨_, (runSteps_add _ (runSteps_one haccept)).trans hrun, rfl, rfl, ?_⟩
  rw [← tripFrame_of_writeReg (c := ⟨0, addr, wdata, tmoEn, tmo⟩) rfl]
  rfl

/-- Settles O25: SEND with the address and the low half of the value, over a transport that takes it. -/
theorem writeRegHandsOverItsRequest : Obligations.WriteRegHandsOverItsRequest := by
  intro s addr wdata tmoEn tmo hs hf
  have hneed : needOf s.cmd.op = .six := needOf_of_write (by simp [hs.2])
  rw [exec_writeReg, execWriteReg, runCommand_send hs, sendRequest_of_ok _ _ hf, hneed, hs.2,
    tripAddr_zero, lowHalf_toNat, ← and_0xFFFF_eq_mod]
  rfl

/-- Settles O32: each is the discard of R124, which ends the command unless trip 1 is to come. -/
theorem acknowledgementIsDiscarded : Obligations.AcknowledgementIsDiscarded := by
  intro s addr wdata tmoEn tmo bytes
  refine ⟨fun hs => ?_, fun hs => ?_, fun hs => ?_⟩
  · rw [exec_wrAck_of_check bytes hs.1 (by simp [hs.2]), exec_writeReg_of_check hs,
      discardAck_of_last (by simp [hs.2])]
    exact ⟨rfl, rfl⟩
  · rw [exec_wrAck_of_check bytes hs.1 (by simp [hs.2]), exec_writeFloat_of_check hs,
      discardAck_of_first (by simp [hs.2])]
    exact ⟨rfl, rfl⟩
  · rw [exec_wrAck_of_check bytes hs.1 (by simp [hs.2]), exec_writeFloat_of_check hs,
      discardAck_of_last (lastTrip_one _)]
    exact ⟨rfl, rfl⟩

end Sys2Proof.Machine
end

section
/-! PROOFS. The statements on the register read (43_register_read.md): what the validator accepts and the
value it leads to; that the four unchecked bytes of a response reach no register but `ACC`; and the end of
a read on the schedule `tripMoves` and on every other. -/

namespace Sys2Proof.Machine

/-! ## The response (R95, R97) -/

/-- The validator compares four things: the length and the three marks (R95). -/
theorem validate_eq_true_iff (s : Bytes) : validate s = true ↔
    s.length = 9 ∧ s[0]? = some 0x5A ∧ s[1]? = some 0xA5 ∧ s[3]? = some 0x83 := by
  simp [validate, and_assoc]

/-- What CHECK makes of the bytes that decide a read: valid, the result of their value, and else
`InvalidResponse` with the bytes (R98, R110). -/
def readResult (ofValue : Half → Result) (response : Bytes) : Result :=
  if validate response then ofValue (extract response) else .invalidResponse response

theorem readResult_of_valid {response : Bytes} (h : validate response = true)
    (ofValue : Half → Result) : readResult ofValue response = ofValue (extract response) :=
  if_pos h

theorem readResult_of_invalid {response : Bytes} (h : validate response = false)
    (ofValue : Half → Result) : readResult ofValue response = .invalidResponse response :=
  if_neg (Bool.eq_false_iff.mp h)

theorem readResult_regs (ofValue : Half → Result) (response : Bytes) :
    (readResult ofValue response).regs = if validate response = true
      then (ofValue (extract response)).regs else (Result.invalidResponse response).regs :=
  apply_ite Result.regs _ _ _

/-! ## CHECK of a read (R125) -/

section check
variable {s : State} {k : Trip}

/-- CHECK after a valid response takes the value it is given and does not look at `ACC`. -/
theorem acceptValue_withAcc (acc : Bytes) (v : Half) (k : Trip) :
    ({ s with acc := acc } : State).acceptValue v k = { s.acceptValue v k with acc := acc } := by
  cases hf : isFloat s.cmd.op with
  | false =>
    rw [acceptValue_of_reg v hf]
    exact acceptValue_of_reg v hf
  | true =>
    cases k with
    | zero =>
      rw [acceptValue_of_float_zero v hf]
      exact acceptValue_of_float_zero v hf
    | one =>
      rw [acceptValue_of_float_one v hf]
      exact acceptValue_of_float_one v hf

/-- Where CHECK after a valid response ends the command, it ends it `OK`. -/
theorem acceptValue_status {v : Half} (h : (s.acceptValue v k).seq = .done) :
    (s.acceptValue v k).res.status = Config.statusOk := by
  cases hf : isFloat s.cmd.op with
  | false => rw [acceptValue_of_reg v hf]; rfl
  | true =>
    cases k with
    | zero => rw [acceptValue_of_float_zero v hf] at h; cases h
    | one => rw [acceptValue_of_float_one v hf]; rfl

/-- CHECK of a read whose `ACC` is a valid response is that of its value, `ACC` carried along. -/
theorem blockStep_check_withAcc {acc : Bytes} (hs : s.seq = .check k) (hr : isRead s.cmd.op = true)
    (hv : validate acc = true) :
    blockStep { s with acc := acc } = .next { s.acceptValue (extract acc) k with acc := acc } := by
  rw [blockStep_check_valid (s := { s with acc := acc }) hs hr hv, acceptValue_withAcc]

/-- CHECK of a `READ_REG` ends it with the result of `ACC` (R98, R99). -/
theorem blockStep_check_readReg (hs : s.seq = .check k) (hr : isRead s.cmd.op = true)
    (hf : isFloat s.cmd.op = false) :
    blockStep s = .next (s.finish (readResult .okReg s.acc)) := by
  cases hv : validate s.acc with
  | true => rw [blockStep_check_valid hs hr hv, acceptValue_of_reg _ hf, readResult_of_valid hv]
  | false => rw [blockStep_check_invalid hs hr hv, readResult_of_invalid hv]

end check

/-! ## The requests of a read (R98, R110) -/

/-- A read asks for nine bytes (R128). -/
theorem needOf_of_read {op : BitVec 2} (h : isRead op = true) : needOf op = .nine := if_pos h

theorem tripFrame_of_read {c : HostCmd} (h : isRead c.op = true) (k : Trip) :
    tripFrame c k = encRead (tripAddr c.addr k).toNat := if_pos h

/-- The one request of a `READ_REG` (R98). -/
theorem tripFrame_of_readReg {c : HostCmd} (h : c.op = 1) :
    tripFrame c .zero = encRead c.addr.toNat := by
  rw [tripFrame_of_read (by simp [h]), tripAddr_zero]

theorem tripCalls_of_readReg {c : HostCmd} (h : c.op = 1) :
    tripCalls c = [⟨encRead c.addr.toNat, 7⟩] := by
  simp [tripCalls, tripCall, h, tripFrame_of_readReg h]

/-- The two requests of a `READ_FLOAT`, the more significant word first (R110). -/
theorem tripCalls_of_readFloat {c : HostCmd} (h : c.op = 3) :
    tripCalls c =
      [⟨encRead c.addr.toNat, 7⟩, ⟨encRead ((c.addr.toNat + 1) &&& 0xFFFF), 7⟩] := by
  have hr : isRead c.op = true := by simp [h]
  simp [tripCalls, tripCall, h, tripFrame_of_read hr, tripAddr_one_toNat, and_0xFFFF_eq_mod]

/-! ## The end of a read (R99, R110, R111) -/

section course
variable {s : State} {c : HostCmd} {log : List TxCall} {removed acc : Bytes} {k : Trip} {op : BitVec 2}
  {hiword : Half} {r : Result}

/-- A command that has ended has ended at the CHECK of some trip, with that trip's `ACC`. -/
theorem Course.ended_inv (h : Course c log removed s) (hd : s.seq = .done) :
    s.ReaderOver ∧ ∃ k first r, removed = first ++ s.acc ∧ AtReply c log k first s ∧
      EndsWith c.op k s.acc s.hiword r ∧ s.res = r.regs := by
  cases h with
  | presented hs => exact nomatch hd.symm.trans hs
  | sending hs => exact nomatch hd.symm.trans hs
  | reading hs => exact nomatch hd.symm.trans hs
  | checking hs => exact nomatch hd.symm.trans hs
  | ended _ hreply hrem hover hend hres => exact ⟨hover, _, _, _, hrem, hreply, hend, hres⟩

/-- A `READ_REG` ends with the result of its one response (R99). -/
theorem EndsWith.readReg (h : EndsWith op .zero acc hiword r) (hr : isRead op = true) :
    r = readResult .okReg acc := by
  cases h with
  | ok hw => exact nomatch hr.symm.trans hw
  | okReg _ _ hv => rw [readResult_of_valid hv]
  | okFloat _ hk => exact nomatch hk
  | invalid _ hv => rw [readResult_of_invalid hv]

/-- A `READ_FLOAT` ends in trip 0 only where the response is not valid (R111). -/
theorem EndsWith.readFloat_zero (h : EndsWith op .zero acc hiword r) (hr : isRead op = true)
    (hf : isFloat op = true) : validate acc = false ∧ r = .invalidResponse acc := by
  cases h with
  | ok hw => exact nomatch hr.symm.trans hw
  | okReg _ hreg => exact nomatch hf.symm.trans hreg
  | okFloat _ hk => exact nomatch hk
  | invalid _ hv => exact ⟨hv, rfl⟩

/-- In trip 1 a `READ_FLOAT` ends with the result of the second response, joined to the first value
(R110). -/
theorem EndsWith.readFloat_one (h : EndsWith op .one acc hiword r) (hr : isRead op = true)
    (hf : isFloat op = true) : r = readResult (fun low => .okFloat (fjoin hiword low)) acc := by
  cases h with
  | ok hw => exact nomatch hr.symm.trans hw
  | okReg _ hreg => exact nomatch hf.symm.trans hreg
  | okFloat _ _ hv => rw [readResult_of_valid hv]
  | invalid _ hv => rw [readResult_of_invalid hv]

/-- In trip 0 nothing was removed before. -/
theorem AtTrip.first_eq_nil {first : Bytes} (h : AtTrip c .zero first s) : first = [] :=
  List.length_eq_zero_iff.mp (Nat.le_zero.mp h.bound)

/-- The reader of a read that is over has nine bytes, or its deadline has come (R83). -/
theorem State.ReaderOver.read {first : Bytes} (h : s.ReaderOver) (hreply : AtReply c log k first s)
    (hr : isRead c.op = true) : s.acc.length = 9 ∨ s.deadline ≤ s.env.now := by
  have hneed : s.need = .nine := hreply.need.trans (needOf_of_read hr)
  rw [State.ReaderOver, hneed] at h
  exact h

/-- A `READ_REG` that has ended has removed its response and ended with the result of it (R99). -/
theorem Course.readReg_ended (h : Course c log removed s) (hop : c.op = 1) (hd : s.seq = .done) :
    s.env.txlog = log ++ tripCalls c ∧ (removed.length = 9 ∨ s.deadline ≤ s.env.now) ∧
      s.res = (readResult .okReg removed).regs := by
  have hr : isRead c.op = true := by simp [hop]
  obtain ⟨hover, k, first, r, hrem, hreply, hend, hres⟩ := h.ended_inv hd
  cases k with
  | zero =>
    have hlast := tripCalls_length_of_lastTrip hreply.trip.second (by simp [hop])
    obtain rfl : removed = s.acc := by rw [hrem, hreply.trip.first_eq_nil, List.nil_append]
    refine ⟨?_, hover.read hreply hr, hres.trans (congrArg Result.regs (hend.readReg hr))⟩
    rw [hreply.sent, ← hlast, List.take_length]
  | one => exact absurd (hreply.trip.second rfl) (by simp [hop])

/-- A `READ_FLOAT` has ended in trip 0 with a response that is not valid, and has removed that (R111). -/
structure EndedAtFirstResponse (c : HostCmd) (log : List TxCall) (removed : Bytes) (s : State) :
    Prop where
  invalid : validate removed = false
  sent : s.env.txlog = log ++ (tripCalls c).take 1
  bound : removed.length ≤ 9
  readerOver : removed.length = 9 ∨ s.deadline ≤ s.env.now
  res : s.res = (Result.invalidResponse removed).regs

/-- A `READ_FLOAT` has ended in trip 1, after the valid response `first`, with what came of the response
`second`; these two are what it has removed (R110). -/
structure EndedAtSecondResponse (c : HostCmd) (log : List TxCall) (first second : Bytes) (s : State) :
    Prop where
  valid : validate first = true
  sent : s.env.txlog = log ++ tripCalls c
  readerOver : second.length = 9 ∨ s.deadline ≤ s.env.now
  res : s.res = (readResult (fun low => .okFloat (fjoin (extract first) low)) second).regs

/-- A `READ_FLOAT` that has ended has ended in one of these two ways (R110, R111). -/
theorem Course.readFloat_ended (h : Course c log removed s) (hop : c.op = 3) (hd : s.seq = .done) :
    EndedAtFirstResponse c log removed s ∨
      ∃ first second, removed = first ++ second ∧ EndedAtSecondResponse c log first second s := by
  have hr : isRead c.op = true := by simp [hop]
  have hf : isFloat c.op = true := by simp [hop]
  obtain ⟨hover, k, first, r, hrem, hreply, hend, hres⟩ := h.ended_inv hd
  have hover := hover.read hreply hr
  cases k with
  | zero =>
    obtain ⟨hv, rfl⟩ := hend.readFloat_zero hr hf
    have hbound : s.acc.length ≤ 9 := by
      have hacc := hreply.acc
      rwa [hreply.need, needOf_of_read hr] at hacc
    obtain rfl : removed = s.acc := by rw [hrem, hreply.trip.first_eq_nil, List.nil_append]
    exact .inl ⟨hv, hreply.sent, hbound, hover, hres⟩
  | one =>
    obtain ⟨hv, hhi⟩ := hreply.trip.valid rfl hr
    have hlast := tripCalls_length_of_lastTrip hreply.trip.second (lastTrip_one c.op)
    refine .inr ⟨first, s.acc, hrem, hv, ?_, hover, ?_⟩
    · rw [hreply.sent, ← hlast, List.take_length]
    · rw [hres, hend.readFloat_one hr hf, hhi]

/-- Which of the two it is, the first nine bytes removed say. -/
theorem Course.readFloat_ended_of_invalid (h : Course c log removed s) (hop : c.op = 3)
    (hd : s.seq = .done) (hv : validate (removed.take 9) = false) :
    EndedAtFirstResponse c log removed s := by
  rcases h.readFloat_ended hop hd with hfirst | ⟨first, second, rfl, hsecond⟩
  · exact hfirst
  · rw [List.take_left' (validate_length hsecond.valid), hsecond.valid] at hv
    cases hv

theorem Course.readFloat_ended_of_valid (h : Course c log removed s) (hop : c.op = 3)
    (hd : s.seq = .done) (hv : validate (removed.take 9) = true) :
    EndedAtSecondResponse c log (removed.take 9) (removed.drop 9) s := by
  rcases h.readFloat_ended hop hd with hfirst | ⟨first, second, rfl, hsecond⟩
  · rw [List.take_of_length_le hfirst.bound, hfirst.invalid] at hv
    cases hv
  · have hlen := validate_length hsecond.valid
    rwa [List.take_left' hlen, List.drop_left' hlen]

end course

/-! ## The obligations -/

/-- Settles O60: a traced run follows the course of its command, and the course says how a read has ended
and with which bytes; progress and the account of the bytes are those of every command. -/
theorem readsEndWithTheBytesRemovedOnEverySchedule :
    Obligations.ReadsEndWithTheBytesRemovedOnEverySchedule := by
  intro s c moves n hs hp hw hsched hquiet hread
  have hu : s.Undisturbed := ⟨hw, by simpa [hsched, Move.quiet] using hquiet⟩
  obtain ⟨r, hr⟩ := exists_traceRun n hu
  have hcourse := traceRun_course hu hs hp (.inr ⟨moves, hsched⟩) hr
  have hlen := hcourse.length_le
  have hsent := hcourse.txlog_eq
  rw [needOf_of_read hread] at hlen
  refine ⟨r, hr, fun hop => ?_, fun hop => ?_,
    fun htime => traceRun_done_of_timeEnough hu hs hp hsched htime hr,
    fun hx => traceRun_accountsFor (by simpa [hsched, Move.exclusive] using hx) hr⟩
  · have hcalls := tripCalls_of_readReg hop
    rw [hcalls] at hlen hsent
    refine ⟨hlen, hsent, fun hd => ?_⟩
    obtain ⟨hlog, hover, hres⟩ := hcourse.readReg_ended hop hd
    exact ⟨hcalls ▸ hlog, hover, hres.trans (readResult_regs _ _)⟩
  · have hcalls := tripCalls_of_readFloat hop
    rw [hcalls] at hlen hsent
    refine ⟨hlen, hsent, fun hd hv => ?_, fun hd hv => ?_⟩
    · obtain ⟨-, hlog, hbound, hover, hres⟩ := hcourse.readFloat_ended_of_invalid hop hd hv
      rw [hcalls] at hlog
      exact ⟨hlog, hbound, hover, hres⟩
    · obtain ⟨-, hlog, hover, hres⟩ := hcourse.readFloat_ended_of_valid hop hd hv
      have hfirst := validate_length hv
      refine ⟨hcalls ▸ hlog, hover.imp_left fun hsecond => ?_, hres.trans (readResult_regs _ _)⟩
      rw [← List.take_append_drop 9 r.removed, List.length_append, hfirst, hsecond]

/-- Settles O53: ACCEPT, the one trip up to its CHECK, and the CHECK of what was read. -/
theorem readRegEndsWithTheValueOrTheBytes : Obligations.ReadRegEndsWithTheValueOrTheBytes := by
  intro s addr wdata tmoEn tmo T bs moves hidle hport hw hpos hT hsched
  have hn : 9 = (needOf 1).count := congrArg Need.count (needOf_of_read isRead_one).symm
  have haccept := step_idle_some (.inr ⟨_, hsched⟩) hidle hport
  have hrest : s.atTurn.env.sched = tripMoves 9 T bs ++ moves := by simp [hsched]
  have hrun := runSteps_tripMoves (s := s.atTurn.accept ⟨1, addr, wdata, tmoEn, tmo⟩) bs moves rfl hw hn
    hpos hT hrest
  have hcheck := hrun.trans (blockStep_check_readReg rfl isRead_one isFloat_one)
  refine ⟨_, (runSteps_add _ (runSteps_one haccept)).trans hcheck, rfl, readResult_regs _ _, ?_⟩
  rw [← tripFrame_of_readReg (c := ⟨1, addr, wdata, tmoEn, tmo⟩) rfl]
  rfl

/-- Settles O7: the four comparisons of the validator, and the decoder's, which are the same. -/
theorem acceptedResponsesAreExactlyThese : Obligations.AcceptedResponsesAreExactlyThese := by
  refine fun s => ⟨validate_eq_true_iff s, fun hv => ?_, fun ⟨_, _, _, _, _, _, hd, _⟩ => ?_⟩
  · obtain ⟨len, ah, al, cnt, vh, vl, rfl⟩ := (validate_iff s).mp hv
    exact ⟨len, ah, al, cnt, vh, vl, rfl, rfl⟩
  · obtain ⟨len, ah, al, cnt, vh, vl, hs, -⟩ := decodeRdRsp_instr hd
    exact (validate_iff s).mpr ⟨len, ah, al, cnt, vh, vl, hs⟩

/-- Settles O8: the value is the join of the last two bytes; the printed cases by evaluation of it. -/
theorem responseValueIsItsLastTwoBytes : Obligations.ResponseValueIsItsLastTwoBytes := by
  intro b0 b1 b2 b3 b4 b5 b6 b7 b8
  simp only [extract_response]
  exact ⟨(join16_toNat b7 b8).trans (shift_or_bytes b7 b8).symm, by decide⟩

/-- Settles O9: the marks are good whatever the other bytes are, and CHECK goes on from the value, which
the last two bytes give. -/
theorem uncheckedResponseBytesDoNotMatter : Obligations.UncheckedResponseBytesDoNotMatter := by
  intro s k len ah al cnt len' ah' al' cnt' vh vl
  have hv : ∀ len ah al cnt, validate [0x5A, 0xA5, len, 0x83, ah, al, cnt, vh, vl] = true :=
    fun len ah al cnt => (validate_iff _).mpr ⟨len, ah, al, cnt, vh, vl, rfl⟩
  exact ⟨hv len ah al cnt, rfl, fun hs hr => ⟨s.acceptValue (join16 vh vl) k, acceptValue_status,
    blockStep_check_withAcc hs hr (hv len ah al cnt),
    blockStep_check_withAcc hs hr (hv len' ah' al' cnt')⟩⟩

/-- Settles O26: SEND with the address, over a transport that takes it. -/
theorem readRegHandsOverItsRequest : Obligations.ReadRegHandsOverItsRequest := by
  intro s addr wdata tmoEn tmo hs hf
  have hneed : needOf s.cmd.op = .nine := needOf_of_read (by simp [hs.2])
  rw [exec_readReg, execReadReg, runCommand_send hs, sendRequest_of_ok _ _ hf, hneed, hs.2,
    tripAddr_zero]
  rfl

end Sys2Proof.Machine
end

section
/-! PROOFS. The statements on the floats (44_float.md): the split and the join of a pattern; SEND and CHECK
of the two float operations in either trip; their ends on the schedule `tripMoves`; and a float written to
the ideal device and read back. -/

namespace Sys2Proof.Machine

/-! ## The pattern and its two words (R106, R107, R108) -/

/-- The join of the two words of a pattern is the pattern (R108). -/
theorem fjoin_fsplit (w : Pattern) : fjoin (fsplit w).1 (fsplit w).2 = w := by
  apply BitVec.eq_of_toNat_eq
  rw [fjoin_toNat, fsplit_fst_toNat, fsplit_snd_toNat]
  omega

/-- A pattern with the words `h` and `l` splits into these. -/
theorem fsplit_eq_of_toNat {w : Pattern} {h l : Half} (hw : w.toNat = h.toNat * 65536 + l.toNat) :
    fsplit w = (h, l) := by
  have hl := l.isLt
  refine Prod.ext (BitVec.eq_of_toNat_eq (y := h) ?_) (BitVec.eq_of_toNat_eq (y := l) ?_)
  · rw [fsplit_fst_toNat, hw]
    omega
  · rw [fsplit_snd_toNat, hw]
    omega

/-- Two words split again after they were joined (R108). -/
theorem fsplit_fjoin (h l : Half) : fsplit (fjoin h l) = (h, l) :=
  fsplit_eq_of_toNat (fjoin_toNat h l)

/-- Of the four little-endian bytes of a pattern the second of each pair is the high one of its word
(R106). -/
theorem fsplit_of_bytes {b0 b1 b2 b3 : Byte} {w : Pattern}
    (hw : w.toNat = b0.toNat + 256 * b1.toNat + 65536 * b2.toNat + 16777216 * b3.toNat) :
    fsplit w = (join16 b3 b2, join16 b1 b0) :=
  fsplit_eq_of_toNat (by rw [hw, join16_toNat, join16_toNat]; omega)

/-- The joined pattern byte by byte (R107). -/
theorem fjoin_toNat_bytes (h l : Half) :
    (fjoin h l).toNat = (lo8 l.toNat).toNat + 256 * (hi8 l.toNat).toNat +
      65536 * (lo8 h.toNat).toNat + 16777216 * (hi8 h.toNat).toNat := by
  have hh := h.isLt
  have hl := l.isLt
  rw [fjoin_toNat, lo8_toNat, hi8_toNat, lo8_toNat, hi8_toNat]
  omega

/-! ## The two trips of a float operation (R109, R110, R122, R124, R125) -/

section trips
variable {s : State} {k : Trip} {addr : Half} {w : Pattern} {tmoEn : Bool} {tmo : Nat}

/-- The two requests of a `READ_FLOAT` (R110, R128). -/
theorem tripFrame_of_readFloat {c : HostCmd} (h : c.op = 3) :
    tripFrame c .zero = encRead c.addr.toNat ∧
      tripFrame c .one = encRead ((c.addr.toNat + 1) &&& 0xFFFF) := by
  have hr : isRead c.op = true := by simp [h]
  rw [tripFrame_of_read hr, tripFrame_of_read hr, tripAddr_zero, tripAddr_one_toNat,
    and_0xFFFF_eq_mod]
  exact ⟨rfl, rfl⟩

/-- The frame of a trip of a write (R128). -/
theorem tripFrame_of_write {c : HostCmd} (h : isRead c.op = false) (k : Trip) :
    tripFrame c k = encWrite (tripAddr c.addr k).toNat (tripVal c k).toNat := by
  simp [tripFrame, h]

/-- A float operation sends the word of the trip (R109, R128). -/
theorem tripVal_of_float {c : HostCmd} (h : isFloat c.op = true) (k : Trip) :
    tripVal c k = tripWord c.wdata k := if_pos h

/-- The SEND of a float operation hands over the frame of its trip (R122, R128). -/
theorem exec_writeFloat_of_send (hs : s.running ⟨2, addr, w, tmoEn, tmo⟩ (.send k)) :
    exec (.writeFloat addr w tmoEn tmo) s =
      .next (s.sendRequest (tripFrame ⟨2, addr, w, tmoEn, tmo⟩ k) k) := by
  rw [exec_writeFloat, execWriteFloat, runCommand_send hs, tripFrame_of_write isRead_two,
    tripVal_of_float isFloat_two]

theorem exec_readFloat_of_send (hs : s.running ⟨3, addr, w, tmoEn, tmo⟩ (.send k)) :
    exec (.readFloat addr w tmoEn tmo) s =
      .next (s.sendRequest (tripFrame ⟨3, addr, w, tmoEn, tmo⟩ k) k) := by
  rw [exec_readFloat, execReadFloat, runCommand_send hs, tripFrame_of_read isRead_three]

/-- A float operation goes on to its trip 1, with `v` in `HIWORD` (R15, R134). -/
def State.secondTrip (s : State) (v : Half) : State := { s with hiword := v, seq := .send .one }

/-- CHECK of a `WRITE_FLOAT`, whatever its trip has read (R124). -/
theorem blockStep_check_writeFloat_zero (hs : s.seq = .check .zero) (hop : s.cmd.op = 2) :
    blockStep s = .next (s.secondTrip s.hiword) := by
  rw [blockStep_check_write hs (by simp [hop]), discardAck_of_first (by simp [hop])]
  rfl

theorem blockStep_check_writeFloat_one (hs : s.seq = .check .one) (hop : s.cmd.op = 2) :
    blockStep s = .next (s.finish .ok) := by
  rw [blockStep_check_write hs (by simp [hop]), discardAck_of_last (lastTrip_one _)]

/-- CHECK of trip 0 of a `READ_FLOAT` whose response is valid keeps its value in `HIWORD` (R15, R125). -/
theorem blockStep_check_readFloat_zero (hs : s.seq = .check .zero) (hop : s.cmd.op = 3)
    (hv : validate s.acc = true) :
    blockStep s = .next (s.secondTrip (extract s.acc)) := by
  rw [blockStep_check_valid hs (by simp [hop]) hv, acceptValue_of_float_zero _ (by simp [hop])]
  rfl

/-- CHECK of trip 1 of a `READ_FLOAT` ends it with the result of `ACC`, joined to `HIWORD` (R110,
R111). -/
theorem blockStep_check_readFloat_one (hs : s.seq = .check .one) (hop : s.cmd.op = 3) :
    blockStep s = .next (s.finish (readResult (fun low => .okFloat (fjoin s.hiword low)) s.acc)) := by
  have hr : isRead s.cmd.op = true := by simp [hop]
  cases hv : validate s.acc with
  | true =>
    rw [blockStep_check_valid hs hr hv, acceptValue_of_float_one _ (by simp [hop]),
      readResult_of_valid hv]
  | false => rw [blockStep_check_invalid hs hr hv, readResult_of_invalid hv]

end trips

/-! ## A float operation on the schedule `tripMoves` (R121 to R125) -/

section tripMoves
variable {s : State} {c : HostCmd} {n T : Nat} {bs bs' : Bytes} {moves : List Move} {v : Half}

/-- The block at CHECK of trip 0 of a command it has accepted, after `tripMoves n T bs` but for its last
move. -/
def State.firstReplied (s : State) (c : HostCmd) (n T : Nat) (bs : Bytes) (rest : List Move) : State :=
  (s.accept c).replied .zero n T bs rest

variable (hs : s.seq = .idle) (hp : s.env.port = some c) (hw : s.env.wellBehaved)
  (hn : n = (needOf c.op).count) (hpos : 0 < tmoEff c s.env.tDefault)
  (hT : tmoEff c s.env.tDefault ≤ T)
include hs hp hw hn hpos hT

/-- ACCEPT, and trip 0 up to its CHECK. -/
theorem runSteps_firstTrip (hsched : s.env.sched = .block :: (tripMoves n T bs ++ moves)) :
    runSteps (1 + (tripMoves n T bs).length) s = blockStep (s.firstReplied c n T bs moves) := by
  have haccept := step_idle_some (.inr ⟨_, hsched⟩) hs hp
  have hrest : s.atTurn.env.sched = tripMoves n T bs ++ moves := by simp [hsched]
  exact (runSteps_add _ (runSteps_one haccept)).trans
    (runSteps_tripMoves (s := s.atTurn.accept c) bs moves rfl hw hn hpos hT hrest)

/-- Where the CHECK of trip 0 goes on to trip 1, that trip up to its CHECK. -/
theorem runSteps_secondTrip
    (hsched : s.env.sched = .block :: (tripMoves n T bs ++ (tripMoves n T bs' ++ moves)))
    (hcheck : blockStep (s.firstReplied c n T bs (tripMoves n T bs' ++ moves)) =
      .next ((s.firstReplied c n T bs (tripMoves n T bs' ++ moves)).secondTrip v)) :
    runSteps (1 + (tripMoves n T bs).length + (tripMoves n T bs').length) s =
      blockStep (((s.firstReplied c n T bs (tripMoves n T bs' ++ moves)).secondTrip v).replied
        .one n T bs' moves) :=
  (runSteps_add _ ((runSteps_firstTrip hs hp hw hn hpos hT hsched).trans hcheck)).trans
    (runSteps_tripMoves bs' moves rfl hw hn hpos hT rfl)

end tripMoves

/-! ## The ideal device (D26; log 18) -/

/-- The ideal device stores what it is sent and acknowledges. -/
theorem idealDevice_encWrite (addr val : Half) (m : Memory) :
    idealDevice (encWrite addr.toNat val.toNat) m = (m.write addr.toNat val, Config.idealAck) := by
  rw [idealDevice, decodeWrReq_encWrite]

/-- The ideal device answers a read request with what it holds; the request is no write request. -/
theorem idealDevice_encRead (addr : Half) (m : Memory) :
    idealDevice (encRead addr.toNat) m = (m, idealResponse addr (m.read addr.toNat)) := by
  have hno : decodeWrReq (encRead addr.toNat) = .rejected .wrongLength := rfl
  rw [idealDevice, hno, decodeRdReq_encRead]

/-- What the ideal device makes of the request of a trip (R128). -/
theorem idealDevice_tripFrame_of_write {c : HostCmd} (h : isRead c.op = false) (k : Trip)
    (m : Memory) : idealDevice (tripFrame c k) m =
      (m.write (tripAddr c.addr k).toNat (tripVal c k), Config.idealAck) := by
  rw [tripFrame_of_write h, idealDevice_encWrite]

theorem idealDevice_tripFrame_of_read {c : HostCmd} (h : isRead c.op = true) (k : Trip)
    (m : Memory) : idealDevice (tripFrame c k) m =
      (m, idealResponse (tripAddr c.addr k) (m.read (tripAddr c.addr k).toNat)) := by
  rw [tripFrame_of_read h, idealDevice_encRead]

/-- The ideal device answers a trip with exactly as many bytes as its reader asks for. -/
theorem idealDevice_tripFrame_length (c : HostCmd) (k : Trip) (m : Memory) :
    (idealDevice (tripFrame c k) m).2.length = (needOf c.op).count := by
  cases hr : isRead c.op with
  | true =>
    rw [idealDevice_tripFrame_of_read hr, needOf_of_read hr]
    rfl
  | false =>
    rw [idealDevice_tripFrame_of_write hr, needOf_of_write hr]
    rfl

/-- The ideal device's response is valid, and its value is the one it was given (D26). -/
theorem validate_idealResponse (addr val : Half) : validate (idealResponse addr val) = true :=
  (validate_iff _).mpr ⟨_, _, _, _, _, _, rfl⟩

theorem extract_idealResponse (addr val : Half) : extract (idealResponse addr val) = val :=
  join16_of_half val

/-- Where the one call it has not acted on went out whole, the ideal device acts on that frame. -/
theorem serve_of_last {e : Env} {log : List TxCall} {frame : Bytes}
    (hlog : e.txlog = log ++ [⟨frame, frame.length⟩]) (hserved : e.served = log.length) :
    e.serve = { e with
      dev := (idealDevice frame e.dev).1
      rxq := e.rxq ++ (idealDevice frame e.dev).2
      served := e.served + 1 } := by
  simp [Env.serve, hlog, hserved]

/-! ## A trip against the ideal device -/

/-- The transport answers normally, nothing stale is queued, and the device has acted on every request. -/
structure Env.Settled (e : Env) : Prop where
  wellBehaved : e.wellBehaved
  rxq : e.rxq = []
  served : e.served = e.txlog.length

section served
variable {s : State} {c : HostCmd} {k : Trip} {n : Nat} {v : Half} {r : Result} {moves : List Move}

/-- The block at CHECK of trip `k`, after `servedTrip` but for its last move: the device has acted on the
request and the reader has returned its whole reply. -/
def State.answered (s : State) (k : Trip) (rest : List Move) : State :=
  { s with
    seq := .check k
    acc := (idealDevice (tripFrame s.cmd k) s.env.dev).2
    need := needOf s.cmd.op
    deadline := s.env.now + tmoEff s.cmd s.env.tDefault
    env := { s.env with
      txlog := s.env.txlog ++ [tripCall s.cmd k]
      rxq := []
      dev := (idealDevice (tripFrame s.cmd k) s.env.dev).1
      served := s.env.served + 1
      sched := rest } }

theorem Env.Settled.answered (h : s.env.Settled) (k : Trip) (rest : List Move) :
    (s.answered k rest).env.Settled :=
  ⟨h.wellBehaved, rfl, by simp [State.answered, h.served]⟩

/-- POLL with the whole count in `ACC` ends the reader (R83). -/
theorem step_recv_of_full (hb : s.blockTurn) (hs : s.seq = .recv k)
    (hlen : s.need.count ≤ s.acc.length) : step s = .next { s.atTurn with seq := .check k } := by
  rw [step_of_blockTurn hb, blockStep_recv (s := s.atTurn) hs,
    poll_of_over (s := s.atTurn) k fun h => hlen.not_gt h.1]

/-- SERVE where the one call the ideal device has not acted on went out whole. -/
theorem step_serve {log : List TxCall} {frame : Bytes} (hs : s.env.sched = .serve :: moves)
    (hlog : s.env.txlog = log ++ [⟨frame, frame.length⟩]) (hserved : s.env.served = log.length) :
    step s = .next { s with env := { s.env with
      dev := (idealDevice frame s.env.dev).1
      rxq := s.env.rxq ++ (idealDevice frame s.env.dev).2
      served := s.env.served + 1
      sched := moves } } := by
  rw [step_of_move hs nofun, State.applyMove,
    serve_of_last (e := (s.withSched moves).env) hlog hserved]
  rfl

/-- A trip on the schedule `servedTrip` comes to its CHECK: SEND, the device's reply, the polls that take
it, and the poll that finds the count reached (R122, R123). -/
theorem runSteps_servedTrip (hs : s.seq = .send k) (hset : s.env.Settled)
    (hn : n = (needOf s.cmd.op).count) (hpos : 0 < tmoEff s.cmd s.env.tDefault)
    (hsched : s.env.sched = servedTrip n ++ moves) :
    runSteps (servedTrip n).length s = blockStep (s.answered k moves) := by
  have hs1 : s.env.sched = .block :: .serve :: (List.replicate n .block ++
      (.block :: .block :: moves)) := by simp [hsched, servedTrip]
  have hreply := idealDevice_tripFrame_length s.cmd k s.env.dev
  have hsend := step_send_of_ok (.inr ⟨_, hs1⟩) hs hset.wellBehaved.1
  rw [hs1] at hsend
  have hlen : (servedTrip n).length = n + 2 + 1 + 1 := by simp [servedTrip]
  rw [hlen]
  calc runSteps (n + 2 + 1 + 1) s
    _ = runSteps (n + 2 + 1) _ := runSteps_succ hsend
    _ = runSteps (n + 2) _ := runSteps_succ (step_serve rfl rfl hset.served)
    _ = runSteps 2 _ := runSteps_add _ (runSteps_poll n _ rfl hset.wellBehaved
      (Nat.le_of_eq (by simp [hn])) (Nat.lt_add_of_pos_right hpos) rfl)
    _ = runSteps 1 _ := runSteps_succ (step_recv_of_full (.inr ⟨_, rfl⟩) rfl
      (by simp [hset.rxq, hn, hreply]))
    _ = step _ := runSteps_one_eq_step _
    _ = blockStep _ := step_of_blockTurn (.inr ⟨_, rfl⟩)
    _ = blockStep (s.answered k moves) := by
      simp [State.answered, State.atTurn, State.withSched, hset.rxq, hn, ← hreply, tripCall]

/-- RETIRE of a command that has ended, as a step of the machine (R127). -/
theorem step_retire_of_done (hs : s.seq = .done) (hsched : s.env.sched = .retire :: moves) :
    step s = .next { s with
      seq := .idle, env := { s.env with taken := s.env.taken ++ [s.res], sched := moves } } := by
  rw [step_of_move hsched nofun, State.applyMove, retire_of_done (s := s.withSched moves) hs]
  rfl

/-! ## A float command against the ideal device, from its presentation until its result is taken -/

/-- The moves of a float command: it is presented and accepted, its two trips are served, and its result is
taken. -/
def servedFloat (c : HostCmd) (n : Nat) : List Move :=
  .present (some c) :: .block :: (servedTrip n ++ (servedTrip n ++ [.retire]))

theorem floatRoundTrip_eq (addr : Half) (w junk : Pattern) (tmoEn : Bool) (tmo : Nat) :
    floatRoundTrip addr w junk tmoEn tmo =
      servedFloat ⟨2, addr, w, tmoEn, tmo⟩ 6 ++ servedFloat ⟨3, addr, junk, tmoEn, tmo⟩ 9 := rfl

/-- The block at CHECK of the served trip 0 of a command it has accepted. -/
def State.firstAnswered (s : State) (c : HostCmd) (rest : List Move) : State :=
  (s.accept c).answered .zero rest

/-- The block at CHECK of the served trip 1, when the CHECK of trip 0 has left `v` in `HIWORD`. -/
def State.secondAnswered (s : State) (c : HostCmd) (n : Nat) (v : Half) (moves : List Move) : State :=
  ((s.firstAnswered c (servedTrip n ++ .retire :: moves)).secondTrip v).answered .one (.retire :: moves)

/-- Between `s` and `t` a command has ended with the result `r` and the host has taken it; the device holds
`dev`, and all is ready for the next command. -/
structure Taken (s t : State) (r : Result) (dev : Memory) (moves : List Move) : Prop where
  idle : t.seq = .idle
  settled : t.env.Settled
  tDefault : t.env.tDefault = s.env.tDefault
  taken : t.env.taken = s.env.taken ++ [r.regs]
  dev : t.env.dev = dev
  sched : t.env.sched = moves

section run
variable (hs : s.seq = .idle) (hset : s.env.Settled) (hn : n = (needOf c.op).count)
  (hpos : 0 < tmoEff c s.env.tDefault)
include hs hset hn hpos

/-- Presentation, ACCEPT, and the served trip 0 up to its CHECK. -/
theorem runSteps_firstServed
    (hsched : s.env.sched = .present (some c) :: .block :: (servedTrip n ++ moves)) :
    runSteps (2 + (servedTrip n).length) s = blockStep (s.firstAnswered c moves) := by
  have haccept : runSteps 2 s = .next ((s.withSched (servedTrip n ++ moves)).accept c) := calc
    runSteps 2 s
    _ = runSteps 1 _ := runSteps_succ (step_of_move hsched nofun)
    _ = .next _ := runSteps_one (step_idle_some (.inr ⟨_, rfl⟩) hs rfl)
  have hready : ((s.withSched (servedTrip n ++ moves)).accept c).env.Settled :=
    ⟨hset.wellBehaved, hset.rxq, hset.served⟩
  exact (runSteps_add _ haccept).trans (runSteps_servedTrip rfl hready hn hpos rfl)

/-- The run of a float command whose CHECK of trip 0 goes on and whose CHECK of trip 1 ends it. -/
theorem runSteps_servedFloat (hsched : s.env.sched = servedFloat c n ++ moves)
    (hzero : blockStep (s.firstAnswered c (servedTrip n ++ .retire :: moves)) =
      .next ((s.firstAnswered c (servedTrip n ++ .retire :: moves)).secondTrip v))
    (hone : blockStep (s.secondAnswered c n v moves) =
      .next ((s.secondAnswered c n v moves).finish r)) :
    ∃ t, runSteps (servedFloat c n).length s = .next t ∧
      Taken s t r (s.secondAnswered c n v moves).env.dev moves := by
  have hsched' : s.env.sched = .present (some c) :: .block ::
      (servedTrip n ++ (servedTrip n ++ .retire :: moves)) := by simp [hsched, servedFloat]
  have hready : (s.firstAnswered c (servedTrip n ++ .retire :: moves)).env.Settled :=
    Env.Settled.answered (s := s.accept c) ⟨hset.wellBehaved, hset.rxq, hset.served⟩ .zero _
  have hdone : (s.secondAnswered c n v moves).env.Settled := hready.answered .one _
  have hfirst := (runSteps_firstServed hs hset hn hpos hsched').trans hzero
  have hsecond := (runSteps_servedTrip
    (s := (s.firstAnswered c (servedTrip n ++ .retire :: moves)).secondTrip v)
    rfl hready hn hpos rfl).trans hone
  have hretire := step_retire_of_done (s := (s.secondAnswered c n v moves).finish r) rfl rfl
  have hlen : (servedFloat c n).length = 2 + (servedTrip n).length + ((servedTrip n).length + 1) := by
    simp only [servedFloat, List.length_cons, List.length_append, List.length_nil]
    omega
  have hrun := (runSteps_add _ hfirst).trans ((runSteps_add 1 hsecond).trans (runSteps_one hretire))
  rw [← hlen] at hrun
  exact ⟨_, hrun, rfl, ⟨hdone.wellBehaved, hdone.rxq, hdone.served⟩, rfl, rfl, rfl, rfl⟩

end run

/-- A `WRITE_FLOAT` to the ideal device ends `OK` and stores both words. -/
theorem runSteps_servedWriteFloat (hop : c.op = 2) (hs : s.seq = .idle) (hset : s.env.Settled)
    (hpos : 0 < tmoEff c s.env.tDefault) (hsched : s.env.sched = servedFloat c 6 ++ moves) :
    ∃ t, runSteps (servedFloat c 6).length s = .next t ∧
      Taken s t .ok ((s.env.dev.write c.addr.toNat (fsplit c.wdata).1).write
        (tripAddr c.addr .one).toNat (fsplit c.wdata).2) moves := by
  have hr : isRead c.op = false := by simp [hop]
  have hf : isFloat c.op = true := by simp [hop]
  have hn : 6 = (needOf c.op).count := congrArg Need.count (needOf_of_write hr).symm
  have hdev : (idealDevice (tripFrame c .one) (idealDevice (tripFrame c .zero) s.env.dev).1).1 =
      (s.env.dev.write c.addr.toNat (fsplit c.wdata).1).write
        (tripAddr c.addr .one).toNat (fsplit c.wdata).2 := by
    rw [idealDevice_tripFrame_of_write hr, idealDevice_tripFrame_of_write hr, tripVal_of_float hf,
      tripVal_of_float hf, tripAddr_zero, tripWord, tripWord]
  obtain ⟨t, hrun, ht⟩ := runSteps_servedFloat hs hset hn hpos hsched
    (blockStep_check_writeFloat_zero rfl hop) (blockStep_check_writeFloat_one rfl hop)
  exact ⟨t, hrun, { ht with dev := ht.dev.trans hdev }⟩

/-- A `READ_FLOAT` from the ideal device ends with the two registers joined and stores nothing. -/
theorem runSteps_servedReadFloat (hop : c.op = 3) (hs : s.seq = .idle) (hset : s.env.Settled)
    (hpos : 0 < tmoEff c s.env.tDefault) (hsched : s.env.sched = servedFloat c 9 ++ moves) :
    ∃ t, runSteps (servedFloat c 9).length s = .next t ∧
      Taken s t (.okFloat (fjoin (s.env.dev.read c.addr.toNat)
        (s.env.dev.read (tripAddr c.addr .one).toNat))) s.env.dev moves := by
  have hr : isRead c.op = true := by simp [hop]
  have hn : 9 = (needOf c.op).count := congrArg Need.count (needOf_of_read hr).symm
  have hfirst : idealDevice (tripFrame c .zero) s.env.dev =
      (s.env.dev, idealResponse c.addr (s.env.dev.read c.addr.toNat)) := by
    rw [idealDevice_tripFrame_of_read hr, tripAddr_zero]
  have hsecond : idealDevice (tripFrame c .one) (idealDevice (tripFrame c .zero) s.env.dev).1 =
      (s.env.dev, idealResponse (tripAddr c.addr .one) (s.env.dev.read (tripAddr c.addr .one).toNat)) := by
    rw [hfirst, idealDevice_tripFrame_of_read hr]
  have hzero := fun rest => blockStep_check_readFloat_zero (s := s.firstAnswered c rest) rfl hop
    ((congrArg (validate ·.2) hfirst).trans (validate_idealResponse _ _))
  obtain ⟨t, hrun, ht⟩ := runSteps_servedFloat hs hset hn hpos hsched (hzero _)
    (blockStep_check_readFloat_one rfl hop)
  have hres : readResult (fun low => .okFloat (fjoin
        (extract (idealDevice (tripFrame c .zero) s.env.dev).2) low))
      (idealDevice (tripFrame c .one) (idealDevice (tripFrame c .zero) s.env.dev).1).2 =
      .okFloat (fjoin (s.env.dev.read c.addr.toNat)
        (s.env.dev.read (tripAddr c.addr .one).toNat)) := by
    rw [hsecond, hfirst, readResult_of_valid (validate_idealResponse _ _), extract_idealResponse,
      extract_idealResponse]
  exact ⟨t, hrun, { ht with
    taken := ht.taken.trans (congrArg (fun r => s.env.taken ++ [Result.regs r]) hres)
    dev := ht.dev.trans (congrArg Prod.fst hsecond) }⟩

end served

/-! ## The obligations -/

/-- Settles O10: both functions as arithmetic on the number of the pattern; the printed cases by
evaluation. -/
theorem floatPatternSplitsAndJoins : Obligations.FloatPatternSplitsAndJoins := by
  refine ⟨fun w => ⟨?_, ?_⟩, fun _ _ _ _ _ hw => fsplit_of_bytes hw,
    fun h l => ⟨?_, fjoin_toNat_bytes h l⟩, fjoin_fsplit, fsplit_fjoin, by decide⟩
  · rw [fsplit_fst_toNat, Nat.shiftRight_eq_div_pow]
  · rw [fsplit_snd_toNat, and_0xFFFF_eq_mod]
  · rw [fjoin_toNat, ← Nat.shiftLeft_add_eq_or_of_lt l.isLt, Nat.shiftLeft_eq]

/-- Settles O27: SEND of either trip, with the frames of the two words. -/
theorem writeFloatHandsOverBothWords : Obligations.WriteFloatHandsOverBothWords := by
  intro s addr w tmoEn tmo hf
  obtain ⟨hzero, hone⟩ := tripFrame_of_writeFloat (c := ⟨2, addr, w, tmoEn, tmo⟩) rfl
  have hneed : needOf 2 = .six := needOf_of_write isRead_two
  refine ⟨fun hs => ?_, fun hs => ?_⟩
  · rw [exec_writeFloat_of_send hs, sendRequest_of_ok _ _ hf, hs.2, hneed, hzero]
    rfl
  · rw [exec_writeFloat_of_send hs, sendRequest_of_ok _ _ hf, hs.2, hneed, hone]
    rfl

/-- Settles O28: SEND of either trip, with the requests for the two registers. -/
theorem readFloatHandsOverBothRequests : Obligations.ReadFloatHandsOverBothRequests := by
  intro s addr w tmoEn tmo hf
  obtain ⟨hzero, hone⟩ := tripFrame_of_readFloat (c := ⟨3, addr, w, tmoEn, tmo⟩) rfl
  have hneed : needOf 3 = .nine := needOf_of_read isRead_three
  refine ⟨fun hs => ?_, fun hs => ?_⟩
  · rw [exec_readFloat_of_send hs, sendRequest_of_ok _ _ hf, hs.2, hneed, hzero]
    rfl
  · rw [exec_readFloat_of_send hs, sendRequest_of_ok _ _ hf, hs.2, hneed, hone]
    rfl

/-- Settles O54: the CHECK of trip 0 goes on to trip 1 whatever came back, and that of trip 1 ends the
command. -/
theorem writeFloatSendsBothWordsAndEndsOk : Obligations.WriteFloatSendsBothWordsAndEndsOk := by
  intro s addr w tmoEn tmo T bs bs' moves hidle hport hw hpos hT hsched
  have hn : 6 = (needOf 2).count := congrArg Need.count (needOf_of_write isRead_two).symm
  have hrun := runSteps_secondTrip hidle hport hw hn hpos hT hsched
    (blockStep_check_writeFloat_zero rfl rfl)
  obtain ⟨hzero, hone⟩ := tripFrame_of_writeFloat (c := ⟨2, addr, w, tmoEn, tmo⟩) rfl
  refine ⟨_, hrun.trans (blockStep_check_writeFloat_one rfl rfl), rfl, rfl, ?_⟩
  rw [← hzero, ← hone]
  rfl

/-- Settles O55: the CHECK of trip 0 ends the command or keeps the value and goes on, and that of trip 1
ends it. -/
theorem readFloatJoinsBothWordsOrStops : Obligations.ReadFloatJoinsBothWordsOrStops := by
  intro s addr w tmoEn tmo T bs bs' moves hidle hport hw hpos hT hsched
  have hn : 9 = (needOf 3).count := congrArg Need.count (needOf_of_read isRead_three).symm
  obtain ⟨hzero, hone⟩ := tripFrame_of_readFloat (c := ⟨3, addr, w, tmoEn, tmo⟩) rfl
  refine ⟨fun hv => ?_, fun hv => ?_⟩
  · have hrun := runSteps_firstTrip hidle hport hw hn hpos hT hsched
    refine ⟨_, hrun.trans (blockStep_check_invalid rfl isRead_three hv), rfl, rfl, ?_⟩
    rw [← hzero]
    rfl
  · have hrun := runSteps_secondTrip hidle hport hw hn hpos hT hsched
      (blockStep_check_readFloat_zero rfl rfl hv)
    refine ⟨_, hrun.trans (blockStep_check_readFloat_one rfl rfl), rfl, readResult_regs _ _, ?_⟩
    rw [← hzero, ← hone]
    rfl

/-- Settles O56: what the write has stored is what the read joins, since the two registers differ. -/
theorem floatRoundTripOnTheIdealDevice : Obligations.FloatRoundTripOnTheIdealDevice := by
  intro s addr w junk tmoEn tmo moves hs hw hrxq hserved hwf hpos hsched
  rw [floatRoundTrip_eq, List.append_assoc] at hsched
  obtain ⟨u, hwrite, hu⟩ := runSteps_servedWriteFloat (c := ⟨2, addr, w, tmoEn, tmo⟩) rfl hs
    ⟨hw, hrxq, hserved⟩ hpos hsched
  obtain ⟨t, hread, ht⟩ := runSteps_servedReadFloat (c := ⟨3, addr, junk, tmoEn, tmo⟩) rfl hu.idle
    hu.settled (hu.tDefault ▸ hpos) hu.sched
  have hne : addr.toNat ≠ (tripAddr addr .one).toNat := by
    rw [tripAddr_one_toNat]
    omega
  have hwf' := Memory.write_wf (v := (fsplit w).1) hwf addr.isLt
  have hlow : u.env.dev.read (tripAddr addr .one).toNat = (fsplit w).2 := by
    rw [hu.dev, Memory.read_write hwf', if_pos rfl]
  have hhigh : u.env.dev.read addr.toNat = (fsplit w).1 := by
    rw [hu.dev, Memory.read_write hwf', if_neg hne, Memory.read_write hwf, if_pos rfl]
  have htaken := ht.taken
  rw [hlow, hhigh, fjoin_fsplit, hu.taken, List.append_assoc] at htaken
  rw [floatRoundTrip_eq, List.length_append, and_0xFFFF_eq_mod, ← tripAddr_one_toNat]
  exact ⟨t, (runSteps_add _ hwrite).trans hread, ht.idle, htaken, ht.settled.rxq, ht.sched,
    ht.dev ▸ hhigh, ht.dev ▸ hlow⟩

end Sys2Proof.Machine
end

section
/-! PROOFS. The statements on the sequencer (45_sequencer.md): the invariant of the machine; the instruction
the block fetches and the step of the command it belongs to; the port while a command is in progress; and
the functions of the family files, cut at the steps of the block. -/

namespace Sys2Proof.Machine

/-! ## The invariant: introduction by phase -/

section invariant
variable {s t : State} {k : Trip}

/-- The clauses of the invariant that speak of every phase (R17, R64, R31). -/
structure Sound (res : ResultRegs) (txlog : List TxCall) (dev : Memory) : Prop where
  status : res.status ≠ 3
  requests : ∀ call ∈ txlog, LegalRequest call.frame
  memory : dev.wf

theorem Inv.sound (h : Inv s) : Sound s.res s.env.txlog s.env.dev :=
  ⟨h.status, h.requests, h.memory⟩

/-- `RES_STATUS = 3` encodes no result (R17, U13). -/
theorem status_regs_ne_three (r : Result) : r.regs.status ≠ 3 := by
  cases r <;> simp [Result.regs]

theorem Inv.of_idle (hs : s.seq = .idle) (h : Sound s.res s.env.txlog s.env.dev) : Inv s where
  secondTrip ht := by simp [hs, Seq.trip] at ht
  needed _ ht := by simp [hs] at ht
  bounded _ ht := by simp [hs] at ht
  short _ ht := by simp [hs] at ht
  ended ht := by simp [hs] at ht
  status := h.status
  requests := h.requests
  memory := h.memory

theorem Inv.of_send (hs : s.seq = .send k) (hk : k = .one → isFloat s.cmd.op = true)
    (h : Sound s.res s.env.txlog s.env.dev) : Inv s where
  secondTrip ht := hk (by simpa [hs, Seq.trip] using ht)
  needed _ ht := by simp [hs] at ht
  bounded _ ht := by simp [hs] at ht
  short _ ht := by simp [hs] at ht
  ended ht := by simp [hs] at ht
  status := h.status
  requests := h.requests
  memory := h.memory

theorem Inv.of_reader (hs : s.seq = .recv k ∨ s.seq = .check k)
    (hk : k = .one → isFloat s.cmd.op = true) (hneed : s.need = needOf s.cmd.op)
    (hacc : s.acc.length ≤ s.need.count)
    (hshort : s.seq = .check k → s.acc.length < s.need.count → s.deadline ≤ s.env.now)
    (h : Sound s.res s.env.txlog s.env.dev) : Inv s where
  secondTrip ht := hk (by rcases hs with hs | hs <;> simpa [hs, Seq.trip] using ht)
  needed _ _ := hneed
  bounded _ _ := hacc
  short k' ht := by
    rcases hs with hs | hs
    · exact nomatch hs.symm.trans ht
    · exact hshort hs
  ended ht := by rcases hs with hs | hs <;> exact nomatch hs.symm.trans ht
  status := h.status
  requests := h.requests
  memory := h.memory

theorem Inv.of_done {r : Result} (hs : s.seq = .done) (hr : r.possible s.cmd.op)
    (hres : s.res = r.regs) (hreq : ∀ call ∈ s.env.txlog, LegalRequest call.frame)
    (hmem : s.env.dev.wf) : Inv s where
  secondTrip ht := by simp [hs, Seq.trip] at ht
  needed _ ht := by simp [hs] at ht
  bounded _ ht := by simp [hs] at ht
  short _ ht := by simp [hs] at ht
  ended _ := ⟨r, hr, hres⟩
  status := hres ▸ status_regs_ne_three r
  requests := hreq
  memory := hmem

/-! ## The invariant: what keeps it -/

/-- FINISH with a result the operation can end with (R126, R18). -/
theorem Inv.finish {r : Result} (h : Inv s) (hr : r.possible s.cmd.op) : Inv (s.finish r) :=
  .of_done rfl hr rfl h.requests h.memory

/-- A request of the block keeps the transmit log one of R64. -/
theorem Inv.requests_append {call : TxCall} (h : Inv s) (hl : LegalRequest call.frame) :
    ∀ c ∈ s.env.txlog ++ [call], LegalRequest c.frame :=
  List.forall_mem_append.mpr ⟨h.requests, List.forall_mem_singleton.mpr hl⟩

/-- A read's `ACC` at CHECK fits `RES_DIAG` (R14, R18). -/
theorem Inv.acc_length_le_nine (h : Inv s) (hs : s.seq = .check k) (hr : isRead s.cmd.op = true) :
    s.acc.length ≤ 9 := by
  have hneed := h.needed k (.inr hs)
  rw [needOf_of_read hr] at hneed
  have hacc := h.bounded k (.inr hs)
  rwa [hneed] at hacc

/-- Only a float operation has a trip after this one (R128). -/
theorem isFloat_of_not_lastTrip {op : BitVec 2} (h : lastTrip op k = false) : isFloat op = true := by
  cases k with
  | zero => simpa using h
  | one => simp at h

/-- Each step of the block keeps the invariant. -/
theorem Successor.inv (ht : Successor s t) (h : Inv s) : Inv t := by
  have htrip : ∀ {k}, s.seq.trip = some k → k = .one → isFloat s.cmd.op = true :=
    fun hk hone => h.secondTrip (hone ▸ hk)
  cases ht with
  | still => exact h
  | accepted c => exact .of_send rfl nofun h.sound
  | sent k frame hs hl =>
    exact .of_reader (.inl rfl) (htrip (congrArg Seq.trip hs)) rfl (Nat.zero_le _) nofun
      ⟨h.status, h.requests_append hl, h.memory⟩
  | sendFaulted k frame e hs hl =>
    exact .of_done (r := .transportError e.fault) rfl trivial rfl (h.requests_append hl) h.memory
  | readerEnded k hs hover =>
    have hshort := fun hlen => Nat.le_of_not_lt fun hnow => hover ⟨hlen, hnow⟩
    exact .of_reader (.inr rfl) (htrip (congrArg Seq.trip hs)) (h.needed k (.inl hs))
      (h.bounded k (.inl hs)) (fun _ => hshort) h.sound
  | nothingRead => exact h
  | byteRead k b rest hs hlen =>
    exact .of_reader (.inl hs) (htrip (congrArg Seq.trip hs)) (h.needed k (.inl hs))
      (by simpa using hlen) (fun hc => nomatch hs.symm.trans hc) h.sound
  | availFaulted => exact h.finish trivial
  | readFaulted k f =>
    exact .of_done (r := .transportError f) rfl trivial rfl h.requests h.memory
  | writeEnded _ _ hr => exact h.finish hr
  | secondWrite k hs _ hl =>
    exact .of_send rfl (fun _ => isFloat_of_not_lastTrip hl) h.sound
  | secondRead v _ _ hf => exact .of_send rfl (fun _ => hf) h.sound
  | floatEnded v _ hr hf => exact h.finish ⟨hr, hf⟩
  | readEnded _ v _ hr hf => exact h.finish ⟨hr, hf⟩
  | readInvalid _ hs hr hv => exact h.finish ⟨hr, h.acc_length_le_nine hs hr, hv⟩

/-- So does a change of the environment that writes no request and does not turn back the clock. -/
theorem Inv.withEnv {e : Env} (h : Inv s) (hnow : s.env.now ≤ e.now) (hlog : e.txlog = s.env.txlog)
    (hdev : e.dev.wf) : Inv { s with env := e } where
  secondTrip := h.secondTrip
  needed := h.needed
  bounded := h.bounded
  short k hs hlen := (h.short k hs hlen).trans hnow
  ended := h.ended
  status := h.status
  requests := hlog ▸ h.requests
  memory := hdev

theorem Inv.withSched (h : Inv s) (moves : List Move) : Inv (s.withSched moves) :=
  h.withEnv (Nat.le_refl _) rfl h.memory

/-- RETIRE leaves the results and the environment's part of the invariant alone (R127). -/
theorem Inv.retire (h : Inv s) : Inv s.retire := by
  by_cases hs : s.seq = .done
  · rw [retire_of_done hs]
    exact .of_idle rfl h.sound
  · rwa [retire_of_not_done hs]

/-- A move that is neither RETIRE nor reset touches the environment only, in every phase. -/
theorem applyMove_eq_withEnv_of_ne_retire {m : Move} (hretire : m ≠ .retire) (hreset : m ≠ .reset) :
    s.applyMove m = { s with env := (s.applyMove m).env } := by
  cases m with
  | retire => exact absurd rfl hretire
  | reset => exact absurd rfl hreset
  | _ => rfl

/-- Every agent keeps the canonical form of the device register space (R31; log 18). -/
theorem applyMove_dev_wf (h : s.env.dev.wf) (m : Move) : (s.applyMove m).env.dev.wf := by
  cases m with
  | retire =>
    obtain ⟨_, he⟩ := retire_env s
    rw [State.applyMove, he]
    exact h
  | serve => exact serve_wf h
  | poke addr value => exact Memory.write_wf h addr.isLt
  | _ => exact h

theorem Inv.applyMove (h : Inv s) (m : Move) : Inv (s.applyMove m) := by
  by_cases hretire : m = .retire
  · subst hretire
    exact h.retire
  · by_cases hreset : m = .reset
    · subst hreset
      exact .of_idle rfl ⟨nofun, h.requests, h.memory⟩
    · rw [applyMove_eq_withEnv_of_ne_retire hretire hreset]
      exact h.withEnv (now_le_applyMove s m) (applyMove_sched_txlog s m).2 (applyMove_dev_wf h.memory m)

end invariant

/-! ## What the block holds and what it fetches (R121 to R125, R58) -/

section fetch
variable {s : State} {i : Instr}

/-- The block's step where it fetches an instruction. -/
theorem blockStep_of_fetch (h : fetch s = some i) : blockStep s = exec i s := by
  simp only [blockStep, h]

theorem blockStep_of_fetch_none (h : fetch s = none) : blockStep s = .next s := by
  simp only [blockStep, h]

/-- The instruction of what the block holds, decoded; where that is rejected, the command itself, or the
acknowledgement as it is (R124, R125; log 17). -/
def State.instrOf (s : State) : Decoded → Instr
  | .instr i => i
  | .rejected _ => if isRead s.cmd.op then decodeCommand s.cmd else .wrAck s.acc

/-- The block fetches what it holds, decoded. -/
theorem fetch_eq_encodedAt (s : State) :
    fetch s = s.encodedAt.map fun e => s.instrOf (decode e) := by
  cases hs : s.seq with
  | idle =>
    simp only [fetch, State.encodedAt, hs, Option.map_map]
    rfl
  | send k =>
    cases hr : isRead s.cmd.op with
    | true => simp [fetch, State.encodedAt, hs, frameInstr_of_isRead hr, hr, decode, decodeFrame,
        decodeRdReq_encRead, State.instrOf]
    | false => simp [fetch, State.encodedAt, hs, frameInstr_of_isWrite hr, hr, decode, decodeFrame,
        decodeWrReq_encWrite, State.instrOf]
  | recv k =>
    simp only [fetch, State.encodedAt, hs]
    rfl
  | check k =>
    cases hr : isRead s.cmd.op with
    | true =>
      cases hd : decode (.frame .rdRsp s.acc) <;>
        simp [fetch, State.encodedAt, hs, replyInstr, hr, hd, State.instrOf]
    | false =>
      by_cases hlen : s.acc.length ≤ Config.ackLen <;>
        simp [fetch, State.encodedAt, hs, replyInstr, hr, decode, decodeFrame, decodeWrAck, hlen,
          State.instrOf]
  | done => simp [fetch, State.encodedAt, hs]

/-- The low half of a value held as a pattern is the value (R61). -/
theorem lowHalf_setWidth (v : Half) : lowHalf (v.setWidth 32) = v := by
  apply BitVec.eq_of_toNat_eq
  rw [lowHalf_toNat, BitVec.toNat_setWidth]
  omega

/-- The block fetches the instruction that is placed, row by row (log 16). -/
theorem fetch_placeInstr (s : State) (i : Instr) : fetch (s.placeInstr i) = some i := by
  cases i with
  | writeReg => rfl
  | readReg => rfl
  | writeFloat => rfl
  | readFloat => rfl
  | wrReq addr val => simp [fetch, State.placeInstr, frameInstr, tripVal, lowHalf_setWidth]
  | rdReq addr => simp [fetch, State.placeInstr, frameInstr]
  | rdRsp => simp [fetch, State.placeInstr, replyInstr, decode, decodeFrame]
  | wrAck bytes => simp [fetch, State.placeInstr, replyInstr]

theorem placeInstr_sched (s : State) (i : Instr) : (s.placeInstr i).env.sched = [] := by
  cases i <;> rfl

end fetch

/-! ## The command in progress and its frames (R122 to R125) -/

section command
variable {s : State} {k : Trip} {addr : Half} {w : Pattern} {tmoEn : Bool} {tmo : Nat}

/-- A register operation sends the low half of its value (R61, R128). -/
theorem tripVal_of_reg {c : HostCmd} (h : isFloat c.op = false) (k : Trip) :
    tripVal c k = lowHalf c.wdata := by
  simp [tripVal, h]

theorem exec_writeReg_of_send (hs : s.running ⟨0, addr, w, tmoEn, tmo⟩ (.send k)) :
    exec (.writeReg addr w tmoEn tmo) s =
      .next (s.sendRequest (tripFrame ⟨0, addr, w, tmoEn, tmo⟩ k) k) := by
  rw [exec_writeReg, execWriteReg, runCommand_send hs, tripFrame_of_write isRead_zero,
    tripVal_of_reg isFloat_zero]

theorem exec_readReg_of_send (hs : s.running ⟨1, addr, w, tmoEn, tmo⟩ (.send k)) :
    exec (.readReg addr w tmoEn tmo) s =
      .next (s.sendRequest (tripFrame ⟨1, addr, w, tmoEn, tmo⟩ k) k) := by
  rw [exec_readReg, execReadReg, runCommand_send hs, tripFrame_of_read isRead_one]

/-- CHECK of either read command takes the value of a valid response in `ACC` (R125). -/
theorem exec_readReg_of_check (hs : s.running ⟨1, addr, w, tmoEn, tmo⟩ (.check k))
    (hv : validate s.acc = true) :
    exec (.readReg addr w tmoEn tmo) s = .next (s.acceptValue (extract s.acc) k) := by
  rw [exec_readReg, execReadReg, runCommand_check hs, if_pos hv,
    acceptValue_of_reg _ (by rw [hs.2]; exact isFloat_one)]

theorem exec_readFloat_of_check (hs : s.running ⟨3, addr, w, tmoEn, tmo⟩ (.check k))
    (hv : validate s.acc = true) :
    exec (.readFloat addr w tmoEn tmo) s = .next (s.acceptValue (extract s.acc) k) := by
  have hf : isFloat s.cmd.op = true := by rw [hs.2]; exact isFloat_three
  rw [exec_readFloat, execReadFloat, runCommand_check hs, if_pos hv]
  cases k with
  | zero => rw [acceptValue_of_float_zero _ hf]
  | one => rw [acceptValue_of_float_one _ hf]

/-- In `IDLE` a command is accepted (R121). -/
theorem exec_decodeCommand_of_idle (c : HostCmd) (hs : s.seq = .idle) :
    exec (decodeCommand c) s = .next (s.accept c) := by
  obtain ⟨_, _, he, -⟩ := exec_of_command (encode_decodeCommand c) s
  rw [he, runCommand_idle hs]

/-- The SEND of the command in progress hands over the frame of the trip (R122, R128). -/
theorem exec_decodeCommand_of_send (hs : s.seq = .send k) :
    exec (decodeCommand s.cmd) s = .next (s.sendRequest (tripFrame s.cmd k) k) := by
  generalize hc : s.cmd = c
  obtain ⟨op, addr, w, tmoEn, tmo⟩ := c
  rcases op_cases op with rfl | rfl | rfl | rfl
  · exact exec_writeReg_of_send ⟨hs, hc⟩
  · exact exec_readReg_of_send ⟨hs, hc⟩
  · exact exec_writeFloat_of_send ⟨hs, hc⟩
  · exact exec_readFloat_of_send ⟨hs, hc⟩

/-- Its POLL is the reader's (R123). -/
theorem exec_decodeCommand_of_recv (hs : s.seq = .recv k) :
    exec (decodeCommand s.cmd) s = s.poll k := by
  obtain ⟨_, _, he, -⟩ := exec_of_command (encode_decodeCommand s.cmd) s
  rw [he, runCommand_recv ⟨hs, rfl⟩]

/-- Its CHECK discards an acknowledgement (R124). -/
theorem exec_decodeCommand_of_check_write (hs : s.seq = .check k) (hr : isRead s.cmd.op = false) :
    exec (decodeCommand s.cmd) s = .next (s.discardAck k) := by
  generalize hc : s.cmd = c at hr
  obtain ⟨op, addr, w, tmoEn, tmo⟩ := c
  rcases op_cases op with rfl | rfl | rfl | rfl
  · exact exec_writeReg_of_check ⟨hs, hc⟩
  · exact absurd hr (by simp)
  · exact exec_writeFloat_of_check ⟨hs, hc⟩
  · exact absurd hr (by simp)

/-- It takes the value of a valid response (R125). -/
theorem exec_decodeCommand_of_check_valid (hs : s.seq = .check k) (hr : isRead s.cmd.op = true)
    (hv : validate s.acc = true) :
    exec (decodeCommand s.cmd) s = .next (s.acceptValue (extract s.acc) k) := by
  generalize hc : s.cmd = c at hr
  obtain ⟨op, addr, w, tmoEn, tmo⟩ := c
  rcases op_cases op with rfl | rfl | rfl | rfl
  · exact absurd hr (by simp)
  · exact exec_readReg_of_check ⟨hs, hc⟩ hv
  · exact absurd hr (by simp)
  · exact exec_readFloat_of_check ⟨hs, hc⟩ hv

/-- It raises `InvalidResponse` for any other (R125, R143). -/
theorem exec_decodeCommand_of_check_invalid (hs : s.seq = .check k) (hr : isRead s.cmd.op = true)
    (hv : validate s.acc = false) :
    exec (decodeCommand s.cmd) s = .next (s.finish (.invalidResponse s.acc)) := by
  obtain ⟨_, _, he, hcheck⟩ := exec_of_command (encode_decodeCommand s.cmd) s
  rw [he, runCommand_check ⟨hs, rfl⟩, hcheck k s hr hv]

/-! ## The frames as instructions (R122, R124, R125, R130; log 13, log 14) -/

theorem exec_wrReq_of_send (addr val : Half) (hs : s.seq = .send k) (hr : isRead s.cmd.op = false) :
    exec (.wrReq addr val) s = .next (s.sendRequest (encWrite addr.toNat val.toNat) k) := by
  simp [execWrReq, hs, hr]

theorem exec_rdReq_of_send (addr : Half) (hs : s.seq = .send k) (hr : isRead s.cmd.op = true) :
    exec (.rdReq addr) s = .next (s.sendRequest (encRead addr.toNat) k) := by
  simp [execRdReq, hs, hr]

theorem exec_rdRsp_of_check (len ah al cnt vh vl : Byte) (hs : s.seq = .check k)
    (hr : isRead s.cmd.op = true) :
    exec (.rdRsp len ah al cnt vh vl) s = .next (s.acceptValue (join16 vh vl) k) := by
  simp [execRdRsp, hs, hr]

theorem exec_wrReq_still (h : (∀ k, s.seq ≠ .send k) ∨ isRead s.cmd.op = true) (addr val : Half) :
    exec (.wrReq addr val) s = .next s := by
  rw [exec_wrReq, execWrReq]
  split
  next k hs => rw [if_pos (h.resolve_left fun hno => hno k hs)]
  all_goals rfl

theorem exec_rdReq_still (h : (∀ k, s.seq ≠ .send k) ∨ isRead s.cmd.op = false) (addr : Half) :
    exec (.rdReq addr) s = .next s := by
  rw [exec_rdReq, execRdReq]
  split
  next k hs => rw [if_neg (Bool.eq_false_iff.mp (h.resolve_left fun hno => hno k hs))]
  all_goals rfl

theorem exec_wrAck_still (h : (∀ k, s.seq ≠ .check k) ∨ isRead s.cmd.op = true) (bytes : Bytes) :
    exec (.wrAck bytes) s = .next s := by
  rw [exec_wrAck, execWrAck]
  split
  next k hs => rw [if_pos (h.resolve_left fun hno => hno k hs)]
  all_goals rfl

theorem exec_rdRsp_still (h : (∀ k, s.seq ≠ .check k) ∨ isRead s.cmd.op = false)
    (len ah al cnt vh vl : Byte) : exec (.rdRsp len ah al cnt vh vl) s = .next s := by
  rw [exec_rdRsp, execRdRsp]
  split
  next k hs => rw [if_neg (Bool.eq_false_iff.mp (h.resolve_left fun hno => hno k hs))]
  all_goals rfl

end command

/-! ## The port while a command is in progress (R121, V-SEQ-10) -/

section port
variable {s : State} {k : Trip} (port : Option HostCmd)

/-- The outcome with something else presented at the command port. -/
def outcomeWithPort (port : Option HostCmd) : Outcome → Outcome
  | .next t => .next (t.withPort port)
  | .fault r => .fault r
  | .refused r => .refused r

theorem sendRequest_withPort (frame : Bytes) :
    (s.withPort port).sendRequest frame k = (s.sendRequest frame k).withPort port := by
  cases hf : s.env.txFault with
  | none =>
    rw [sendRequest_of_ok _ _ hf, sendRequest_of_ok (s := s.withPort port) _ _ hf]
    rfl
  | some e =>
    rw [sendRequest_of_fault _ _ hf, sendRequest_of_fault (s := s.withPort port) _ _ hf]
    rfl

theorem poll_withPort : (s.withPort port).poll k = outcomeWithPort port (s.poll k) := by
  rcases poll_cases s k with ⟨hover, hp⟩ | ⟨hlen, hnow, ⟨f, ha, hp⟩ | ⟨ha, hq, ho, hp⟩ |
    ⟨f, lost, ha, hr, h0, hp⟩ | ⟨b, rest, ha, hr, hq, hp⟩ | ⟨ha, hr, hq, ho, hp⟩⟩
  · rw [hp, poll_of_over (s := s.withPort port) k hover]
    rfl
  · rw [hp, poll_of_availFault (s := s.withPort port) k ⟨hlen, hnow⟩ ha]
    rfl
  · rw [hp, poll_of_none (s := s.withPort port) k ⟨hlen, hnow⟩ ha (by simp [hq, ho])]
    rfl
  · rw [hp, poll_of_readFault (s := s.withPort port) k ⟨hlen, hnow⟩ ha h0 hr]
    rfl
  · rw [hp, poll_of_byte (s := s.withPort port) k ⟨hlen, hnow⟩ ha hr hq]
    rfl
  · rw [hp, poll_of_broken (s := s.withPort port) k ⟨hlen, hnow⟩ ha hr hq ho]
    rfl

theorem discardAck_withPort :
    (s.withPort port).discardAck k = (s.discardAck k).withPort port := by
  cases hl : lastTrip s.cmd.op k with
  | true =>
    rw [discardAck_of_last hl, discardAck_of_last (s := s.withPort port) hl]
    rfl
  | false =>
    rw [discardAck_of_first hl, discardAck_of_first (s := s.withPort port) hl]
    rfl

theorem acceptValue_withPort (v : Half) :
    (s.withPort port).acceptValue v k = (s.acceptValue v k).withPort port := by
  cases hf : isFloat s.cmd.op with
  | false =>
    rw [acceptValue_of_reg v hf, acceptValue_of_reg (s := s.withPort port) v hf]
    rfl
  | true =>
    cases k with
    | zero =>
      rw [acceptValue_of_float_zero v hf, acceptValue_of_float_zero (s := s.withPort port) v hf]
      rfl
    | one =>
      rw [acceptValue_of_float_one v hf, acceptValue_of_float_one (s := s.withPort port) v hf]
      rfl

/-- Outside `IDLE` the block's step neither reads nor writes the port. -/
theorem blockStep_withPort (hi : s.seq ≠ .idle) :
    blockStep (s.withPort port) = outcomeWithPort port (blockStep s) := by
  cases hs : s.seq with
  | idle => exact absurd hs hi
  | send k =>
    rw [blockStep_send hs, blockStep_send (s := s.withPort port) hs, sendRequest_withPort]
    rfl
  | recv k => rw [blockStep_recv hs, blockStep_recv (s := s.withPort port) hs, poll_withPort]
  | check k =>
    cases hr : isRead s.cmd.op with
    | false =>
      rw [blockStep_check_write hs hr, blockStep_check_write (s := s.withPort port) hs hr,
        discardAck_withPort]
      rfl
    | true =>
      cases hv : validate s.acc with
      | true =>
        rw [blockStep_check_valid hs hr hv, blockStep_check_valid (s := s.withPort port) hs hr hv,
          acceptValue_withPort]
        rfl
      | false =>
        rw [blockStep_check_invalid hs hr hv,
          blockStep_check_invalid (s := s.withPort port) hs hr hv]
        rfl
  | done =>
    rw [blockStep_done hs, blockStep_done (s := s.withPort port) hs]
    rfl

/-- On the block's turn outside `IDLE` the machine's step is the same whatever is presented. -/
theorem step_withPort (hi : s.seq ≠ .idle) (hb : s.blockTurn) :
    step (s.withPort port) = outcomeWithPort port (step s) := by
  rw [step_of_blockTurn hb, step_of_blockTurn (s := s.withPort port) hb]
  exact blockStep_withPort (s := s.atTurn) port hi

end port

/-! ## What another agent's move leaves alone (R129) -/

/-- Only RETIRE gives the host a result (R127). -/
theorem applyMove_taken (s : State) {m : Move} (hm : m ≠ .retire) :
    (s.applyMove m).env.taken = s.env.taken := by
  cases m with
  | retire => exact absurd rfl hm
  | serve =>
    obtain ⟨_, _, _, he⟩ := serve_eq s.env
    rw [State.applyMove, he]
  | _ => rfl

/-! ## Runs of the functions (R9, R80) -/

section runs
variable {α β γ : Type}

@[simp] theorem Run.after_nil (r : Run α) : r.after [] = r := rfl

theorem Run.after_after (r : Run α) (calls calls' : List Call) :
    (r.after calls').after calls = r.after (calls ++ calls') := by
  simp [Run.after]

theorem Run.after_andThen (r : Run α) (calls : List Call) (next : α → List EnvAnswer → Run β) :
    (r.after calls).andThen next = (r.andThen next).after calls := by
  obtain ⟨calls', ended, rest⟩ := r
  cases ended with
  | value a => exact (Run.after_after _ _ _).symm
  | raised e => rfl
  | running => rfl

theorem Run.andThen_assoc (r : Run α) (next : α → List EnvAnswer → Run β)
    (next' : β → List EnvAnswer → Run γ) :
    (r.andThen next).andThen next' = r.andThen fun a rest => (next a rest).andThen next' := by
  obtain ⟨calls, ended, rest⟩ := r
  cases ended with
  | value a => exact Run.after_andThen _ _ _
  | raised e => rfl
  | running => rfl

theorem Run.value_andThen (a : α) (rest : List EnvAnswer) (next : α → List EnvAnswer → Run β) :
    (⟨[], .value a, rest⟩ : Run α).andThen next = next a rest := rfl

theorem Run.raised_andThen (e : Result) (rest : List EnvAnswer) (next : α → List EnvAnswer → Run β) :
    (⟨[], .raised e, rest⟩ : Run α).andThen next = ⟨[], .raised e, rest⟩ := rfl

theorem Run.ite_andThen (p : Prop) [Decidable p] (r r' : Run α) (next : α → List EnvAnswer → Run β) :
    (if p then r else r').andThen next = if p then r.andThen next else r'.andThen next :=
  apply_ite (Run.andThen · next) p r r'

/-- `WRITE_REG` and what follows it: the acknowledgement is dropped (R90, R91). -/
theorem writeRegFn_andThen (addr val : Nat) (tmoEn : Bool) (tmo : Nat) (script : List EnvAnswer)
    (next : Unit → List EnvAnswer → Run β) :
    (writeRegFn addr val tmoEn tmo script).andThen next =
      (tripFn (encWrite addr val) 6 tmoEn tmo script).andThen fun _ rest => next () rest := by
  simp only [writeRegFn, Run.andThen_assoc, Run.value_andThen]

/-- `READ_REG` and what follows it: the value of a valid response, or `InvalidResponse` (R98). -/
theorem readRegFn_andThen (addr : Nat) (tmoEn : Bool) (tmo : Nat) (script : List EnvAnswer)
    (next : Half → List EnvAnswer → Run β) :
    (readRegFn addr tmoEn tmo script).andThen next =
      (tripFn (encRead addr) 9 tmoEn tmo script).andThen fun resp rest =>
        if validate resp then next (extract resp) rest
        else ⟨[], .raised (.invalidResponse resp), rest⟩ := by
  simp only [readRegFn, Run.andThen_assoc, Run.ite_andThen, Run.value_andThen, Run.raised_andThen]

end runs

/-! ## The turns of the reader's loop (R80, R82) -/

section recvLoop
variable {n deadline now : Nat} {acc : Bytes} {avail : Answer Nat} {read : Answer Byte}
  (rest : List EnvAnswer)

theorem recvLoop_of_over (h : ¬ (acc.length < n ∧ now < deadline)) :
    recvLoop n deadline acc (.poll ⟨now, avail, read⟩ :: rest) = ⟨[], .value acc, rest⟩ := by
  rw [recvLoop, if_neg h]

theorem recvLoop_of_availFault (h : acc.length < n ∧ now < deadline) (f : TFault) :
    recvLoop n deadline acc (.poll ⟨now, .fault f, read⟩ :: rest) =
      ⟨[.rxAvail], .raised (.transportError f), rest⟩ := by
  rw [recvLoop, if_pos h]

theorem recvLoop_of_none (h : acc.length < n ∧ now < deadline) :
    recvLoop n deadline acc (.poll ⟨now, .ok 0, read⟩ :: rest) =
      (recvLoop n deadline acc rest).after [.rxAvail] := by
  rw [recvLoop, if_pos h]

theorem recvLoop_of_readFault (h : acc.length < n ∧ now < deadline) (m : Nat) (f : TFault) :
    recvLoop n deadline acc (.poll ⟨now, .ok (m + 1), .fault f⟩ :: rest) =
      ⟨[.rxAvail, .rxReadOne], .raised (.transportError f), rest⟩ := by
  rw [recvLoop, if_pos h]

theorem recvLoop_of_byte (h : acc.length < n ∧ now < deadline) (m : Nat) (b : Byte) :
    recvLoop n deadline acc (.poll ⟨now, .ok (m + 1), .ok b⟩ :: rest) =
      (recvLoop n deadline (acc ++ [b]) rest).after [.rxAvail, .rxReadOne] := by
  rw [recvLoop, if_pos h]

end recvLoop

/-! ## A command's function, cut at its steps (R133) -/

section cut
variable {c : HostCmd} {k : Trip} {hiword : Half} {acc : Bytes}

/-- One round trip of a command: the request of the trip and its reader (R81, R128). -/
def requestFn (c : HostCmd) (k : Trip) : List EnvAnswer → Run Bytes :=
  tripFn (tripFrame c k) (needOf c.op).count c.tmoEn c.tmo

/-- What is left of a command's function when the reader of its last trip has returned `acc`. -/
def lastReplyFn (c : HostCmd) (hiword : Half) (acc : Bytes) (rest : List EnvAnswer) : Run Result :=
  if isRead c.op then
    if validate acc then
      ⟨[], .value (if isFloat c.op then .okFloat (fjoin hiword (extract acc))
        else .okReg (extract acc)), rest⟩
    else ⟨[], .raised (.invalidResponse acc), rest⟩
  else ⟨[], .value .ok, rest⟩

/-- The same when another trip is to come. -/
def firstReplyFn (c : HostCmd) (acc : Bytes) (rest : List EnvAnswer) : Run Result :=
  if isRead c.op = true ∧ validate acc = false then ⟨[], .raised (.invalidResponse acc), rest⟩
  else (requestFn c .one rest).andThen (lastReplyFn c (extract acc))

/-- The same in trip `k`; `hiword` is the value of the response before, where there is one. -/
def replyFn (c : HostCmd) (k : Trip) (hiword : Half) : Bytes → List EnvAnswer → Run Result :=
  if lastTrip c.op k then lastReplyFn c hiword else firstReplyFn c

theorem replyFn_of_last (h : lastTrip c.op k = true) : replyFn c k hiword = lastReplyFn c hiword :=
  if_pos h

theorem replyFn_of_first (h : lastTrip c.op k = false) : replyFn c k hiword = firstReplyFn c :=
  if_neg (Bool.eq_false_iff.mp h)

theorem lastReplyFn_of_write (h : isRead c.op = false) :
    lastReplyFn c hiword = fun _ rest => ⟨[], .value .ok, rest⟩ := by
  funext acc rest
  simp [lastReplyFn, h]

theorem lastReplyFn_of_read (h : isRead c.op = true) :
    lastReplyFn c hiword = fun acc rest => if validate acc then
        ⟨[], .value (if isFloat c.op then .okFloat (fjoin hiword (extract acc))
          else .okReg (extract acc)), rest⟩
      else ⟨[], .raised (.invalidResponse acc), rest⟩ := by
  funext acc rest
  exact if_pos h

theorem firstReplyFn_of_write (h : isRead c.op = false) (hiword : Half) :
    firstReplyFn c = fun _ rest => (requestFn c .one rest).andThen (lastReplyFn c hiword) := by
  funext acc rest
  simp only [firstReplyFn, h, Bool.false_eq_true, false_and, if_false, lastReplyFn_of_write h]

theorem firstReplyFn_of_read (h : isRead c.op = true) :
    firstReplyFn c = fun acc rest => if validate acc then
        (requestFn c .one rest).andThen (lastReplyFn c (extract acc))
      else ⟨[], .raised (.invalidResponse acc), rest⟩ := by
  funext acc rest
  cases hv : validate acc <;> simp [firstReplyFn, h, hv]

/-- A response that is not valid ends the function of a read in either trip (R99, R111). -/
theorem replyFn_of_invalid (h : isRead c.op = true) (hv : validate acc = false)
    (rest : List EnvAnswer) :
    replyFn c k hiword acc rest = ⟨[], .raised (.invalidResponse acc), rest⟩ := by
  cases hl : lastTrip c.op k with
  | true => simp [replyFn_of_last hl, lastReplyFn_of_read h, hv]
  | false => simp [replyFn_of_first hl, firstReplyFn_of_read h, hv]

theorem tripAddr_one_toNat_eq_mask (addr : Half) :
    (tripAddr addr .one).toNat = (addr.toNat + 1) &&& 0xFFFF := by
  rw [tripAddr_one_toNat, and_0xFFFF_eq_mod]

theorem requestFn_of_write (h : isRead c.op = false) (k : Trip) : requestFn c k =
    tripFn (encWrite (tripAddr c.addr k).toNat (tripVal c k).toNat) 6 c.tmoEn c.tmo := by
  rw [requestFn, tripFrame_of_write h, needOf_of_write h]
  rfl

theorem requestFn_of_read (h : isRead c.op = true) (k : Trip) : requestFn c k =
    tripFn (encRead (tripAddr c.addr k).toNat) 9 c.tmoEn c.tmo := by
  rw [requestFn, tripFrame_of_read h, needOf_of_read h]
  rfl

/-- `WRITE_REG` is its one round trip and `OK` (R90). -/
theorem commandFn_of_writeReg (h : c.op = 0) (script : List EnvAnswer) :
    commandFn c script = (requestFn c .zero script).andThen fun _ rest => ⟨[], .value .ok, rest⟩ := by
  have hr : isRead c.op = false := by simp [h]
  have hfn : commandFn c script = (writeRegFn c.addr.toNat (c.wdata.toNat &&& 0xFFFF) c.tmoEn c.tmo
      script).andThen fun _ rest => ⟨[], .value .ok, rest⟩ := by simp [commandFn, h]
  rw [hfn, writeRegFn_andThen, requestFn_of_write hr, tripVal_of_reg (by simp [h]), tripAddr_zero,
    lowHalf_toNat, and_0xFFFF_eq_mod]

/-- `READ_REG` is its one round trip and the value of its response (R98). -/
theorem commandFn_of_readReg (h : c.op = 1) (script : List EnvAnswer) :
    commandFn c script = (requestFn c .zero script).andThen fun resp rest =>
      if validate resp then ⟨[], .value (.okReg (extract resp)), rest⟩
      else ⟨[], .raised (.invalidResponse resp), rest⟩ := by
  have hr : isRead c.op = true := by simp [h]
  have hfn : commandFn c script = (readRegFn c.addr.toNat c.tmoEn c.tmo script).andThen
      fun v rest => ⟨[], .value (.okReg v), rest⟩ := by simp [commandFn, h]
  rw [hfn, readRegFn_andThen, requestFn_of_read hr, tripAddr_zero]

/-- `WRITE_FLOAT` is its two round trips and `OK` (R109). -/
theorem commandFn_of_writeFloat (h : c.op = 2) (script : List EnvAnswer) :
    commandFn c script = (requestFn c .zero script).andThen fun _ rest =>
      (requestFn c .one rest).andThen fun _ rest => ⟨[], .value .ok, rest⟩ := by
  have hr : isRead c.op = false := by simp [h]
  have hf : isFloat c.op = true := by simp [h]
  have hfn : commandFn c script = (writeFloatFn c.addr.toNat c.wdata c.tmoEn c.tmo script).andThen
      fun _ rest => ⟨[], .value .ok, rest⟩ := by simp [commandFn, h]
  simp only [hfn, writeFloatFn, Run.andThen_assoc, writeRegFn_andThen, requestFn_of_write hr,
    tripVal_of_float hf, tripAddr_zero, tripAddr_one_toNat_eq_mask, tripWord]

/-- `READ_FLOAT` is its two round trips and the values of their responses joined (R110). -/
theorem commandFn_of_readFloat (h : c.op = 3) (script : List EnvAnswer) :
    commandFn c script = (requestFn c .zero script).andThen fun resp rest =>
      if validate resp then
        (requestFn c .one rest).andThen fun resp' rest =>
          if validate resp' then ⟨[], .value (.okFloat (fjoin (extract resp) (extract resp'))), rest⟩
          else ⟨[], .raised (.invalidResponse resp'), rest⟩
      else ⟨[], .raised (.invalidResponse resp), rest⟩ := by
  have hr : isRead c.op = true := by simp [h]
  have hfn : commandFn c script = (readFloatFn c.addr.toNat c.tmoEn c.tmo script).andThen
      fun w rest => ⟨[], .value (.okFloat w), rest⟩ := by simp [commandFn, h]
  simp only [hfn, readFloatFn, Run.andThen_assoc, readRegFn_andThen, requestFn_of_read hr, tripAddr_zero,
    tripAddr_one_toNat_eq_mask, Run.ite_andThen, Run.value_andThen, Run.raised_andThen]

/-- The function of each operation is its first round trip and what is left then (R133). -/
theorem commandFn_eq (c : HostCmd) (hiword : Half) (script : List EnvAnswer) :
    commandFn c script = (requestFn c .zero script).andThen (replyFn c .zero hiword) := by
  rcases op_cases c.op with hop | hop | hop | hop
  · rw [commandFn_of_writeReg hop, replyFn_of_last (by simp [hop]),
      lastReplyFn_of_write (by simp [hop])]
  · rw [commandFn_of_readReg hop, replyFn_of_last (by simp [hop]), lastReplyFn_of_read (by simp [hop]),
      hop]
    rfl
  · rw [commandFn_of_writeFloat hop, replyFn_of_first (by simp [hop]),
      firstReplyFn_of_write (by simp [hop]) hiword, lastReplyFn_of_write (by simp [hop])]
  · have hr : isRead c.op = true := by simp [hop]
    rw [commandFn_of_readFloat hop, replyFn_of_first (by simp [hop]), firstReplyFn_of_read hr]
    simp only [lastReplyFn_of_read hr, hop]
    rfl

end cut

/-! ## What one step calls and is answered (R122, R123) -/

section calls
variable {s : State} {k : Trip}

theorem answers_of_send (hs : s.seq = .send k) :
    s.answers = [.send ⟨s.env.txFault.map TxFault.fault, s.env.now, s.env.tDefault⟩] := by
  simp only [State.answers, hs]

theorem answers_of_recv (hs : s.seq = .recv k) :
    ∃ read, s.answers = [.poll ⟨s.env.now, s.rxAvail, read⟩] := by
  simp only [State.answers, hs]
  split <;> exact ⟨_, rfl⟩

theorem answers_of_recv_read {u : State} {read : Answer Byte} (hs : s.seq = .recv k)
    (hr : s.rxReadOne = some (u, read)) : s.answers = [.poll ⟨s.env.now, s.rxAvail, read⟩] := by
  simp only [State.answers, hs, hr]

theorem answers_of_check (hs : s.seq = .check k) : s.answers = [] := by
  simp only [State.answers, hs]

theorem calls_of_send (hs : s.seq = .send k) : s.calls = [.txWrite (tripFrame s.cmd k)] := by
  cases hr : isRead s.cmd.op with
  | true => simp [State.calls, hs, frameInstr_of_isRead hr, encode, tripFrame_of_read hr]
  | false => simp [State.calls, hs, frameInstr_of_isWrite hr, encode, tripFrame_of_write hr]

theorem calls_of_over (hs : s.seq = .recv k)
    (h : ¬ (s.acc.length < s.need.count ∧ s.env.now < s.deadline)) : s.calls = [] := by
  simp only [State.calls, hs, if_neg h]

theorem calls_of_availFault (hs : s.seq = .recv k)
    (h : s.acc.length < s.need.count ∧ s.env.now < s.deadline) {f : TFault} (ha : s.rxAvail = .fault f) :
    s.calls = [.rxAvail] := by
  simp only [State.calls, hs, if_pos h, ha]

theorem calls_of_none (hs : s.seq = .recv k)
    (h : s.acc.length < s.need.count ∧ s.env.now < s.deadline) (ha : s.rxAvail = .ok 0) :
    s.calls = [.rxAvail] := by
  simp only [State.calls, hs, if_pos h, ha]

theorem calls_of_some (hs : s.seq = .recv k)
    (h : s.acc.length < s.need.count ∧ s.env.now < s.deadline) {n : Nat}
    (ha : s.rxAvail = .ok (n + 1)) : s.calls = [.rxAvail, .rxReadOne] := by
  simp only [State.calls, hs, if_pos h, ha]

theorem calls_of_check (hs : s.seq = .check k) : s.calls = [] := by
  simp only [State.calls, hs]

/-- The block's turn on the schedule is none of the environment's answers. -/
theorem answers_atTurn (s : State) : s.atTurn.answers = s.answers := by
  cases hs : s.seq with
  | recv k =>
    cases hr : s.env.readFault with
    | some e =>
      rw [answers_of_recv_read hs (rxReadOne_of_fault hr),
        answers_of_recv_read (s := s.atTurn) hs (rxReadOne_of_fault (s := s.atTurn) hr)]
      rfl
    | none =>
      cases hq : s.env.rxq with
      | nil =>
        simp only [State.answers, atTurn_seq, hs, rxReadOne_of_empty hr hq,
          rxReadOne_of_empty (s := s.atTurn) hr hq]
        rfl
      | cons b rest =>
        rw [answers_of_recv_read hs (rxReadOne_of_byte hr hq),
          answers_of_recv_read (s := s.atTurn) hs (rxReadOne_of_byte (s := s.atTurn) hr hq)]
        rfl
  | send k =>
    rw [answers_of_send hs, answers_of_send (s := s.atTurn) hs]
    rfl
  | _ => simp only [State.answers, atTurn_seq, hs]

end calls

/-! ## What is left of a command's function where the machine stands (R133) -/

section remains
variable {s t : State} {k : Trip} {fn : List EnvAnswer → Run Result}

/-- What is left of the function of the command in progress at SEND of trip `k`. -/
def State.fnAtSend (s : State) (k : Trip) (script : List EnvAnswer) : Run Result :=
  (requestFn s.cmd k script).andThen (replyFn s.cmd k s.hiword)

/-- The same while the reader of trip `k` runs. -/
def State.fnAtRecv (s : State) (k : Trip) (script : List EnvAnswer) : Run Result :=
  (recvLoop s.need.count s.deadline s.acc script).andThen (replyFn s.cmd k s.hiword)

/-- The same at CHECK of trip `k`. -/
def State.fnAtCheck (s : State) (k : Trip) (script : List EnvAnswer) : Run Result :=
  replyFn s.cmd k s.hiword s.acc script

/-- The function `fn` is what is left of the command in progress, or of the one that has ended, at the
state `s`. -/
inductive Remains (s : State) : (List EnvAnswer → Run Result) → Prop where
  | sending (k : Trip) : s.seq = .send k → Remains s (s.fnAtSend k)
  | reading (k : Trip) : s.seq = .recv k → Remains s (s.fnAtRecv k)
  | checking (k : Trip) : s.seq = .check k → Remains s (s.fnAtCheck k)
  | ended (e : Ended Result) (r : Result) : s.seq = .done → e.result = some r → s.res = r.regs →
      Remains s fun rest => ⟨[], e, rest⟩

/-- No part of the environment is in it. -/
theorem Remains.withEnv (h : Remains s fn) (e : Env) : Remains { s with env := e } fn := by
  cases h with
  | sending k hs => exact .sending (s := { s with env := e }) k hs
  | reading k hs => exact .reading (s := { s with env := e }) k hs
  | checking k hs => exact .checking (s := { s with env := e }) k hs
  | ended x r hs hx hres => exact .ended x r hs hx hres

/-- The block's step from `s` to `t` is the first part of `fn`: on the step's answers `fn` makes the step's
calls and goes on as what is left at `t`. -/
def StepsTo (s t : State) (fn : List EnvAnswer → Run Result) : Prop :=
  ∃ fn', Remains t fn' ∧ ∀ rest, fn (s.answers ++ rest) = (fn' rest).after s.calls

/-- SEND: the request of the trip, or the fault that ends the command (R122, R144). -/
theorem stepsTo_of_send (hs : s.seq = .send k) (ht : blockStep s = .next t) :
    StepsTo s t (s.fnAtSend k) := by
  rw [blockStep_send hs] at ht
  rw [StepsTo, answers_of_send hs, calls_of_send hs]
  cases hf : s.env.txFault with
  | none =>
    rw [sendRequest_of_ok _ _ hf] at ht
    obtain rfl := Host.Outcome.next.inj ht
    exact ⟨_, .reading k rfl, fun rest => Run.after_andThen _ _ _⟩
  | some e =>
    rw [sendRequest_of_fault _ _ hf] at ht
    obtain rfl := Host.Outcome.next.inj ht
    exact ⟨_, .ended (.raised (.transportError e.fault)) _ rfl rfl rfl, fun rest => rfl⟩

/-- POLL: one turn of the reader's loop (R123, R80). -/
theorem stepsTo_of_recv (hs : s.seq = .recv k) (ht : blockStep s = .next t) :
    StepsTo s t (s.fnAtRecv k) := by
  rw [blockStep_recv hs] at ht
  obtain ⟨read, hans⟩ := answers_of_recv hs
  rcases poll_cases s k with ⟨hover, hp⟩ | ⟨hlen, hnow, ⟨f, hf, hp⟩ | ⟨ha, hq, ho, hp⟩ |
    ⟨f, lost, ha, hr, h0, hp⟩ | ⟨b, rest, ha, hr, hq, hp⟩ | ⟨-, -, -, -, hp⟩⟩
  · obtain rfl := Host.Outcome.next.inj (hp.symm.trans ht)
    refine ⟨_, .checking k rfl, fun script => ?_⟩
    rw [State.fnAtRecv, hans, calls_of_over hs hover, List.singleton_append, recvLoop_of_over _ hover]
    rfl
  · obtain rfl := Host.Outcome.next.inj (hp.symm.trans ht)
    have hav := rxAvail_of_fault hf
    refine ⟨_, .ended (.raised (.transportError f)) _ rfl rfl rfl, fun script => ?_⟩
    rw [State.fnAtRecv, hans, hav, calls_of_availFault hs ⟨hlen, hnow⟩ hav, List.singleton_append,
      recvLoop_of_availFault _ ⟨hlen, hnow⟩]
    rfl
  · obtain rfl := Host.Outcome.next.inj (hp.symm.trans ht)
    have hav : s.rxAvail = .ok 0 := by rw [rxAvail_of_ok ha, hq, ho]; rfl
    refine ⟨_, .reading k hs, fun script => ?_⟩
    rw [State.fnAtRecv, hans, hav, calls_of_none hs ⟨hlen, hnow⟩ hav, List.singleton_append,
      recvLoop_of_none _ ⟨hlen, hnow⟩, Run.after_andThen]
    rfl
  · obtain rfl := Host.Outcome.next.inj (hp.symm.trans ht)
    obtain ⟨n, hn⟩ := Nat.exists_eq_succ_of_ne_zero h0
    have hav : s.rxAvail = .ok (n + 1) := by rw [rxAvail_of_ok ha, hn]
    refine ⟨_, .ended (.raised (.transportError f)) _ rfl rfl rfl, fun script => ?_⟩
    rw [State.fnAtRecv, answers_of_recv_read hs (rxReadOne_of_fault hr), hav,
      calls_of_some hs ⟨hlen, hnow⟩ hav, List.singleton_append,
      recvLoop_of_readFault _ ⟨hlen, hnow⟩]
    rfl
  · obtain rfl := Host.Outcome.next.inj (hp.symm.trans ht)
    have hav : s.rxAvail = .ok (rest.length + s.env.overcount + 1) := by
      rw [rxAvail_of_ok ha, hq, List.length_cons, Nat.add_right_comm]
    refine ⟨_, .reading k hs, fun script => ?_⟩
    rw [State.fnAtRecv, answers_of_recv_read hs (rxReadOne_of_byte hr hq), hav,
      calls_of_some hs ⟨hlen, hnow⟩ hav, List.singleton_append,
      recvLoop_of_byte _ ⟨hlen, hnow⟩, Run.after_andThen]
    rfl
  · exact nomatch hp.symm.trans ht

/-- CHECK of a write: `OK`, or the second round trip (R124). -/
theorem stepsTo_of_check_write (hs : s.seq = .check k) (hr : isRead s.cmd.op = false)
    (ht : blockStep s = .next t) : StepsTo s t (s.fnAtCheck k) := by
  rw [blockStep_check_write hs hr] at ht
  rw [StepsTo, answers_of_check hs, calls_of_check hs]
  cases hl : lastTrip s.cmd.op k with
  | true =>
    rw [discardAck_of_last hl] at ht
    obtain rfl := Host.Outcome.next.inj ht
    refine ⟨_, .ended (.value .ok) .ok rfl rfl rfl, fun rest => ?_⟩
    rw [State.fnAtCheck, replyFn_of_last hl, lastReplyFn_of_write hr]
    rfl
  | false =>
    rw [discardAck_of_first hl] at ht
    obtain rfl := Host.Outcome.next.inj ht
    refine ⟨_, .sending .one rfl, fun rest => ?_⟩
    rw [State.fnAtCheck, replyFn_of_first hl, firstReplyFn_of_write hr s.hiword, State.fnAtSend,
      replyFn_of_last (lastTrip_one _)]
    rfl

/-- CHECK of a valid response: its value, or the second round trip (R125). -/
theorem stepsTo_of_check_valid (hs : s.seq = .check k) (hr : isRead s.cmd.op = true)
    (hv : validate s.acc = true) (ht : blockStep s = .next t) :
    StepsTo s t (s.fnAtCheck k) := by
  rw [blockStep_check_valid hs hr hv] at ht
  rw [StepsTo, answers_of_check hs, calls_of_check hs]
  cases hf : isFloat s.cmd.op with
  | false =>
    rw [acceptValue_of_reg _ hf] at ht
    obtain rfl := Host.Outcome.next.inj ht
    refine ⟨_, .ended (.value (.okReg (extract s.acc))) _ rfl rfl rfl, fun rest => ?_⟩
    rw [State.fnAtCheck, replyFn_of_last (by simp [lastTrip, hf]), lastReplyFn_of_read hr]
    simp [hv, hf]
  | true =>
    cases k with
    | zero =>
      rw [acceptValue_of_float_zero _ hf] at ht
      obtain rfl := Host.Outcome.next.inj ht
      refine ⟨_, .sending .one rfl, fun rest => ?_⟩
      rw [State.fnAtCheck, replyFn_of_first (by simp [hf]), firstReplyFn_of_read hr,
        State.fnAtSend, replyFn_of_last (lastTrip_one _)]
      simp [hv]
    | one =>
      rw [acceptValue_of_float_one _ hf] at ht
      obtain rfl := Host.Outcome.next.inj ht
      refine ⟨_, .ended (.value (.okFloat (fjoin s.hiword (extract s.acc)))) _ rfl rfl rfl,
        fun rest => ?_⟩
      rw [State.fnAtCheck, replyFn_of_last (lastTrip_one _), lastReplyFn_of_read hr]
      simp [hv, hf]

/-- CHECK of any other response: `InvalidResponse` (R125, R143). -/
theorem stepsTo_of_check_invalid (hs : s.seq = .check k) (hr : isRead s.cmd.op = true)
    (hv : validate s.acc = false) (ht : blockStep s = .next t) :
    StepsTo s t (s.fnAtCheck k) := by
  obtain rfl := Host.Outcome.next.inj ((blockStep_check_invalid hs hr hv).symm.trans ht)
  refine ⟨_, .ended (.raised (.invalidResponse s.acc)) _ rfl rfl rfl, fun rest => ?_⟩
  rw [State.fnAtCheck, answers_of_check hs, calls_of_check hs, List.nil_append,
    replyFn_of_invalid hr hv]
  rfl

/-- Each step of the block before `DONE` is the first part of the function that is left (R133). -/
theorem Remains.block (h : Remains s fn) (hd : s.seq ≠ .done) (ht : blockStep s = .next t) :
    StepsTo s t fn := by
  cases h with
  | sending k hs => exact stepsTo_of_send hs ht
  | reading k hs => exact stepsTo_of_recv hs ht
  | checking k hs =>
    cases hr : isRead s.cmd.op with
    | false => exact stepsTo_of_check_write hs hr ht
    | true =>
      cases hv : validate s.acc with
      | true => exact stepsTo_of_check_valid hs hr hv ht
      | false => exact stepsTo_of_check_invalid hs hr hv ht
  | ended _ _ hs => exact absurd hs hd

end remains

/-! ## A traced run and the function on its answers (R133, R135) -/

section agreement
variable {s t : State} {k : Trip} {n : Nat} {r : Trace} {run : Run Result}
  {fn : List EnvAnswer → Run Result}

/-- What every stopped run has, and what a step of the block and a move of another agent before it keep,
a traced run has. -/
theorem traceRun_induction {P : State → Trace → Prop} (hstop : ∀ s, P s ⟨[], [], [], s⟩)
    (hblock : ∀ s t r, s.seq ≠ .done → blockStep s.atTurn = .next t → P t r →
      P s (r.afterBlock s t))
    (hmove : ∀ s m moves r, s.seq ≠ .done → s.env.sched = m :: moves →
      P ((s.withSched moves).applyMove m) r → P s r)
    (h : traceRun n s = some r) : P s r := by
  induction n generalizing s r with
  | zero =>
    cases h
    exact hstop s
  | succ n ih =>
    by_cases hd : s.seq = .done
    · rw [traceRun_done _ hd] at h
      cases h
      exact hstop s
    · rcases step_cases s with ⟨hb, hstep⟩ | ⟨m, moves, hs, hm, -⟩
      · cases hnext : blockStep s.atTurn with
        | next t =>
          rw [traceRun_block n hd hb (hstep.trans hnext), Option.map_eq_some_iff] at h
          obtain ⟨r', hr', rfl⟩ := h
          exact hblock s t r' hd hnext (ih hr')
        | fault f => simp [traceRun, hd, hstep, hnext] at h
        | refused f => simp [traceRun, hd, hstep, hnext] at h
      · rw [traceRun_move n hd hs hm] at h
        exact hmove s m moves r hd hs (ih h)

/-- The run of a function is that of the machine: the calls are the same, no answer is left over, and the
function has ended with the result written where the machine is in `DONE`, and nowhere else but in
CHECK. -/
structure Agrees (run : Run Result) (r : Trace) : Prop where
  calls : run.calls = r.calls
  rest : run.rest = []
  ended : r.state.seq = .done →
    ∃ result : Result, run.ended.result = some result ∧ r.state.res = result.regs
  running : run.ended.result = none ∨ r.state.seq = .done ∨ ∃ k, r.state.seq = .check k

theorem Agrees.afterBlock (h : Agrees run r) (s t : State) :
    Agrees (run.after s.calls) (r.afterBlock s t) :=
  ⟨congrArg (s.calls ++ ·) h.calls, h.rest, h.ended, h.running⟩

/-- Where no answer is left, CHECK makes no call. -/
theorem replyFn_nil (c : HostCmd) (k : Trip) (hiword : Half) (acc : Bytes) :
    (replyFn c k hiword acc []).calls = [] ∧ (replyFn c k hiword acc []).rest = [] := by
  cases hl : lastTrip c.op k with
  | true =>
    rw [replyFn_of_last hl, lastReplyFn]
    split_ifs <;> exact ⟨rfl, rfl⟩
  | false =>
    rw [replyFn_of_first hl, firstReplyFn]
    split_ifs <;> exact ⟨rfl, rfl⟩

/-- Where the run stops, the function has no answer left and stops too. -/
theorem Remains.agrees_nil (h : Remains s fn) : Agrees (fn []) ⟨[], [], [], s⟩ := by
  cases h with
  | sending k hs => exact ⟨rfl, rfl, fun hd => (nomatch hs.symm.trans hd), .inl rfl⟩
  | reading k hs =>
    rw [State.fnAtRecv, recvLoop]
    exact ⟨rfl, rfl, fun hd => (nomatch hs.symm.trans hd), .inl rfl⟩
  | checking k hs =>
    obtain ⟨hcalls, hrest⟩ := replyFn_nil s.cmd k s.hiword s.acc
    exact ⟨hcalls, hrest, fun hd => (nomatch hs.symm.trans hd), .inr (.inr ⟨k, hs⟩)⟩
  | ended e r hs he hres => exact ⟨rfl, rfl, fun _ => ⟨r, he, hres⟩, .inr (.inl hs)⟩

/-- The function that is left, on the answers of a traced run without reset, runs as the machine does. -/
theorem traceRun_agrees (hreset : .reset ∉ s.env.sched) (h : Remains s fn)
    (hr : traceRun n s = some r) : Agrees (fn r.answers) r := by
  refine traceRun_induction (P := fun s r => .reset ∉ s.env.sched → ∀ fn, Remains s fn →
    Agrees (fn r.answers) r) (fun s _ fn h => h.agrees_nil) ?_ ?_ hr hreset fn h
  · intro s t r hd ht ih hreset fn h
    obtain ⟨fn', h', hfn⟩ := Remains.block (h.withEnv _ : Remains s.atTurn fn) hd ht
    have hrest : .reset ∉ t.env.sched := fun hm =>
      hreset (List.mem_of_mem_tail (blockStep_sched ht ▸ hm))
    have hans : fn (r.afterBlock s t).answers = (fn' r.answers).after s.calls := by
      rw [Trace.afterBlock, ← answers_atTurn s]
      exact hfn r.answers
    rw [hans]
    exact (ih hrest fn' h').afterBlock s t
  · intro s m moves r hd hs ih hreset fn h
    rw [hs] at hreset
    obtain ⟨hne, hmoves⟩ := not_or.mp (mt List.mem_cons.mpr hreset)
    rw [applyMove_eq_withEnv (s := s.withSched moves) (Ne.symm hne) hd] at ih
    refine ih ?_ fn (h.withEnv _)
    rw [(applyMove_sched_txlog _ m).1]
    exact hmoves

theorem sentFrames_append (calls calls' : List Call) :
    sentFrames (calls ++ calls') = sentFrames calls ++ sentFrames calls' :=
  List.filterMap_append

/-- Only SEND calls `TxWrite` (R122, R123). -/
theorem sentFrames_calls_of_not_send (hs : ∀ k, s.seq ≠ .send k) : sentFrames s.calls = [] := by
  cases hq : s.seq with
  | send k => exact absurd hq (hs k)
  | recv k =>
    simp only [State.calls, hq]
    split_ifs
    · split <;> rfl
    · rfl
  | _ =>
    simp only [State.calls, hq]
    rfl

/-- The frames that a step of the block logs are those it calls `TxWrite` with (R32). -/
theorem blockStep_txlog_frames (ht : blockStep s = .next t) :
    t.env.txlog.map TxCall.frame = s.env.txlog.map TxCall.frame ++ sentFrames s.calls := by
  by_cases hs : ∃ k, s.seq = .send k
  · obtain ⟨k, hs⟩ := hs
    rw [blockStep_send hs] at ht
    rw [calls_of_send hs]
    cases hf : s.env.txFault with
    | none =>
      rw [sendRequest_of_ok _ _ hf] at ht
      obtain rfl := Host.Outcome.next.inj ht
      exact List.map_append
    | some e =>
      rw [sendRequest_of_fault _ _ hf] at ht
      obtain rfl := Host.Outcome.next.inj ht
      exact List.map_append
  · rw [not_exists] at hs
    rcases (blockStep_successor ht).txlog_cases with hlog | ⟨k, -, hk, -⟩
    · rw [hlog, sentFrames_calls_of_not_send hs, List.append_nil]
    · exact absurd hk (hs k)

/-- The frames logged on a traced run are those of its calls (R32, R135). -/
theorem traceRun_txlog_frames (hr : traceRun n s = some r) :
    r.state.env.txlog.map TxCall.frame = s.env.txlog.map TxCall.frame ++ sentFrames r.calls := by
  refine traceRun_induction (P := fun s r => r.state.env.txlog.map TxCall.frame =
    s.env.txlog.map TxCall.frame ++ sentFrames r.calls) (fun s => (List.append_nil _).symm) ?_ ?_ hr
  · intro s t r _ ht ih
    have hstep : t.env.txlog.map TxCall.frame = s.env.txlog.map TxCall.frame ++ sentFrames s.calls :=
      blockStep_txlog_frames (s := s.atTurn) ht
    rw [Trace.afterBlock, sentFrames_append, ← List.append_assoc, ← hstep]
    exact ih
  · intro s m moves r _ _ ih
    rwa [(applyMove_sched_txlog (s.withSched moves) m).2] at ih

end agreement

/-! ## The obligations -/

/-- Settles O48: the block's step leads to a successor, and each successor and each move of another
agent keeps the invariant. -/
theorem everyStepKeepsTheInvariant : Obligations.EveryStepKeepsTheInvariant := by
  intro s t h ht
  rcases step_cases s with ⟨-, hstep⟩ | ⟨m, moves, -, -, hstep⟩
  · exact (blockStep_successor (hstep.symm.trans ht)).inv (h.withSched _)
  · cases hstep.symm.trans ht
    exact (h.withSched moves).applyMove m

/-- Settles O19: the placed instruction is what the block fetches, and its turn is next. -/
theorem placedInstructionRunsNext : Obligations.PlacedInstructionRunsNext := by
  intro i s _
  have hfetch := fetch_placeInstr s i
  refine ⟨hfetch, ?_⟩
  simp only [step, placeInstr_sched, blockStep_of_fetch hfetch]

/-- Settles O24: no step outside `IDLE` reads the port, and only ACCEPT writes it or the latches. -/
theorem hostOperationWaitsItsTurn : Obligations.HostOperationWaitsItsTurn := by
  intro s hi
  refine ⟨fun hb port => ⟨fun t ht => ?_, fun f hf => ?_, fun r hr => ?_⟩, fun c hc => ?_⟩
  · have hsucc := blockStep_successor ((step_of_blockTurn hb).symm.trans ht)
    refine ⟨hsucc.port_cases.resolve_right fun h => hi h.1, ?_, ?_⟩
    · by_contra hcmd
      exact hi (hsucc.cmd_changed hcmd).1
    · rw [step_withPort port hi hb, ht]
      rfl
  · rw [step_withPort port hi hb, hf]
    rfl
  · rw [step_withPort port hi hb, hr]
    rfl
  · obtain ⟨_, _, he, -⟩ := exec_of_command (encode_decodeCommand c) s
    rw [he, runCommand_waits hi hc]

/-- Settles O37, phase by phase: each step of the command is the block's. -/
theorem commandStepIsItsFramesStep : Obligations.CommandStepIsItsFramesStep := by
  intro s hb
  obtain ⟨k, hs | hs | hs⟩ := (busy_iff s).mp hb
  · rw [exec_decodeCommand_of_send hs, blockStep_send hs]
  · rw [exec_decodeCommand_of_recv hs, blockStep_recv hs]
  · cases hr : isRead s.cmd.op with
    | false => rw [exec_decodeCommand_of_check_write hs hr, blockStep_check_write hs hr]
    | true =>
      cases hv : validate s.acc with
      | true => rw [exec_decodeCommand_of_check_valid hs hr hv, blockStep_check_valid hs hr hv]
      | false => rw [exec_decodeCommand_of_check_invalid hs hr hv, blockStep_check_invalid hs hr hv]

/-- Settles O38: the block's step goes along a row of R134, and its turn changes no register. -/
theorem sequencerFollowsTheTable : Obligations.SequencerFollowsTheTable :=
  fun s _ hb h => blockStep_seqEdge (s := s.atTurn) ((step_of_blockTurn hb).symm.trans h)

/-- Settles O50: what is left of the function at SEND of trip 0 is the whole of it, each step of the block
is its first part, and the frames logged are those of the calls. -/
theorem stepsAgreeWithTheFunctions : Obligations.StepsAgreeWithTheFunctions := by
  intro n s r hs hreset hr
  obtain ⟨hcalls, hrest, hended, hrunning⟩ := traceRun_agrees hreset (.sending .zero hs) hr
  rw [State.fnAtSend, ← commandFn_eq] at hcalls hrest hended hrunning
  exact ⟨hcalls, hrest, hended, hrunning, traceRun_txlog_frames hr⟩

/-- Settles O57: a busy block that is on time comes to its end in the three rounds. -/
theorem everyCommandEndsWhenTimePasses : Obligations.EveryCommandEndsWhenTimePasses := by
  intro s T moves hb ho ht hd hsched
  have hi : s.seq ≠ .idle := fun hi => by simp [State.busy, hi] at hb
  exact Timely.runSteps_fairMoves ⟨hi, ho, ht, hd⟩ hsched

/-- Settles O18: the block fetches what it holds, decoded. -/
theorem stepRunsTheDecodedInstruction : Obligations.StepRunsTheDecodedInstruction := by
  intro s hb
  have hfetch : fetch s.atTurn = s.encodedAt.map fun e => s.instrOf (decode e) :=
    fetch_eq_encodedAt s.atTurn
  rw [step_of_blockTurn hb]
  refine ⟨fun e i he hd => ?_, fun e r he hd => ?_, fun he => ?_⟩
  · rw [he, Option.map_some, hd] at hfetch
    exact blockStep_of_fetch hfetch
  · rw [he, Option.map_some, hd] at hfetch
    exact blockStep_of_fetch hfetch
  · rw [he, Option.map_none] at hfetch
    exact blockStep_of_fetch_none hfetch

/-- Settles O20: a move that is neither the block's nor RETIRE nor reset is a change of the environment
alone, and of neither the transmit log nor what the host has taken. -/
theorem environmentMovesLeaveTheBlockAlone : Obligations.EnvironmentMovesLeaveTheBlockAlone := by
  refine ⟨fun _ _ _ h => step_of_move h nofun, fun _ _ _ h => step_of_move h nofun,
    fun s m moves h hblock hretire hreset => ?_⟩
  have hstep := step_of_move h hblock
  rw [applyMove_eq_withEnv_of_ne_retire hretire hreset] at hstep
  obtain ⟨hsched, hlog⟩ := applyMove_sched_txlog (s.withSched moves) m
  exact ⟨_, hstep, hlog, applyMove_taken (s.withSched moves) hretire, hsched⟩

/-- Settles O22: in both situations the block fetches nothing. -/
theorem blockIsStillWhenNotBusy : Obligations.BlockIsStillWhenNotBusy := by
  intro s hb h
  rw [step_of_blockTurn hb]
  rcases h with ⟨hs, hp⟩ | hs
  · exact blockStep_idle_none (s := s.atTurn) hs hp
  · exact blockStep_done (s := s.atTurn) hs

/-- Settles O23: in `IDLE` each of the four is the ACCEPT of its tuple. -/
theorem hostOperationIsAcceptedWhenIdle : Obligations.HostOperationIsAcceptedWhenIdle :=
  fun _ addr wdata tmoEn tmo hs =>
    ⟨exec_decodeCommand_of_idle ⟨0, addr, wdata, tmoEn, tmo⟩ hs,
      exec_decodeCommand_of_idle ⟨1, addr, wdata, tmoEn, tmo⟩ hs,
      exec_decodeCommand_of_idle ⟨2, addr, wdata, tmoEn, tmo⟩ hs,
      exec_decodeCommand_of_idle ⟨3, addr, wdata, tmoEn, tmo⟩ hs⟩

/-- Settles O29: SEND of the frame, over a transport that takes it. -/
theorem requestFrameIsHandedOver : Obligations.RequestFrameIsHandedOver := by
  intro s addr val k hs hf
  refine ⟨fun hr => ?_, fun hr => ?_⟩
  · rw [exec_wrReq_of_send addr val hs hr, sendRequest_of_ok _ _ hf, needOf_of_write hr]
    rfl
  · rw [exec_rdReq_of_send addr hs hr, sendRequest_of_ok _ _ hf, needOf_of_read hr]
    rfl

/-- Settles O31: the POLL of the command in progress is the reader's, case by case. -/
theorem pollTakesAtMostOneByte : Obligations.PollTakesAtMostOneByte := by
  intro s k hs
  rw [exec_decodeCommand_of_recv hs]
  refine ⟨fun h => poll_of_over k (by omega), fun hlen hnow => ⟨fun f ha => ?_, fun ha hq ho => ?_,
    fun f lost ha h0 hr => ?_, fun b rest ha hr hq => ?_⟩⟩
  · exact poll_of_availFault k ⟨hlen, hnow⟩ ha
  · exact poll_of_none k ⟨hlen, hnow⟩ ha (by simp [hq, ho])
  · exact poll_of_readFault k ⟨hlen, hnow⟩ ha h0 hr
  · exact poll_of_byte k ⟨hlen, hnow⟩ ha hr hq

/-- Settles O33: the frame and the command both take the value of the last two bytes. -/
theorem validResponseGivesItsValue : Obligations.ValidResponseGivesItsValue := by
  intro s addr w tmoEn tmo len ah al cnt vh vl hacc
  have hv : validate s.acc = true := (validate_iff _).mpr ⟨len, ah, al, cnt, vh, vl, hacc⟩
  have hvalue : extract s.acc = join16 vh vl := by rw [hacc, extract_response]
  refine ⟨fun hs => ?_, fun hs => ?_, fun hs => ?_⟩
  · rw [exec_rdRsp_of_check _ _ _ _ _ _ hs.1 (by simp [hs.2]), exec_readReg_of_check hs hv, hvalue,
      acceptValue_of_reg _ (by simp [hs.2])]
    exact ⟨rfl, rfl⟩
  · rw [exec_rdRsp_of_check _ _ _ _ _ _ hs.1 (by simp [hs.2]), exec_readFloat_of_check hs hv, hvalue,
      acceptValue_of_float_zero _ (by simp [hs.2])]
    exact ⟨rfl, rfl⟩
  · rw [exec_rdRsp_of_check _ _ _ _ _ _ hs.1 (by simp [hs.2]), exec_readFloat_of_check hs hv, hvalue,
      acceptValue_of_float_one _ (by simp [hs.2])]
    exact ⟨rfl, rfl⟩

/-- Settles O35: RETIRE in `DONE` and outside it. -/
theorem retireReturnsToIdle : Obligations.RetireReturnsToIdle := by
  intro s moves hsched
  refine ⟨fun hs => step_retire_of_done hs hsched, fun hs => ?_⟩
  rw [step_of_move hsched nofun, State.applyMove, retire_of_not_done (s := s.withSched moves) hs]
  rfl

/-- Settles O36: the four frames, each where its step is not enabled. -/
theorem frameOutsideItsStepDoesNothing : Obligations.FrameOutsideItsStepDoesNothing := fun _ =>
  ⟨exec_wrReq_still, exec_rdReq_still, exec_wrAck_still, exec_rdRsp_still⟩

end Sys2Proof.Machine
end

section
/-! PROOFS. The statements on the two errors (60_exceptions.md): a fault of `TxWrite` in SEND, and a read
whose response is not valid. -/

namespace Sys2Proof.Machine

/-- The request instruction of a trip is encoded as the frame SEND hands over (R128). -/
theorem encode_frameInstr (c : HostCmd) (k : Trip) :
    encode (frameInstr c k) = .frame (if isRead c.op then .rdReq else .wrReq) (tripFrame c k) := by
  cases hr : isRead c.op with
  | true => rw [frameInstr_of_isRead hr, tripFrame_of_read hr]; rfl
  | false => rw [frameInstr_of_isWrite hr, tripFrame_of_write hr]; rfl

/-- CHECK of a read command in progress, named by its tuple, whose response is not valid (R125, R143). -/
theorem exec_of_running_check_invalid {s : State} {c : HostCmd} {k : Trip}
    (hs : s.running c (.check k)) (hr : isRead c.op = true) (hv : validate s.acc = false) :
    exec (decodeCommand c) s = .next (s.finish (.invalidResponse s.acc)) := by
  obtain ⟨hseq, rfl⟩ := hs
  exact exec_decodeCommand_of_check_invalid hseq hr hv

/-! ## The obligations -/

/-- Settles O30: each of the three is a SEND of its own frame, over a transport that faults. -/
theorem transmitFaultEndsTheCommand : Obligations.TransmitFaultEndsTheCommand := by
  intro s k f n hs hf
  refine ⟨⟨tripFrame s.cmd k, ?_, encode_frameInstr s.cmd k⟩, fun addr val hr => ?_,
    fun addr hr => ?_⟩
  · rw [exec_decodeCommand_of_send hs, sendRequest_of_fault _ _ hf]
    rfl
  · rw [exec_wrReq_of_send addr val hs hr, sendRequest_of_fault _ _ hf]
    rfl
  · rw [exec_rdReq_of_send addr hs hr, sendRequest_of_fault _ _ hf]
    rfl

/-- Settles O34: bytes that are not a response fail `VALIDATE`, and both reads are the command in progress,
whose CHECK then raises. -/
theorem invalidResponseIsRaised : Obligations.InvalidResponseIsRaised := by
  intro s addr w tmoEn tmo k hacc
  have hv : validate s.acc = false :=
    Bool.eq_false_iff.mpr fun h => hacc ((validate_eq_true_iff s.acc).mp h)
  exact ⟨fun hs => exec_of_running_check_invalid hs isRead_one hv,
    fun hs => exec_of_running_check_invalid hs isRead_three hv⟩

end Sys2Proof.Machine
end

section
/-! PROOFS. The statement on reset (70_reset_and_hazards.md): the move as a whole step, and the result port
of a block that has not ended a command. -/

namespace Sys2Proof.Machine

/-- Outside `DONE` the host reads nothing at the result port (R17). -/
theorem resultPort_of_not_done {s : State} (hs : s.seq ≠ .done) : s.resultPort = none :=
  if_neg (mt (rspValid_iff s).mp hs)

/-- A reset move is a whole step from any phase (R160). -/
theorem step_reset {s : State} {moves : List Move} (h : s.env.sched = .reset :: moves) :
    step s = .next (s.withSched moves).pullReset :=
  step_of_move h nofun

/-- Settles O15: the reset block is `IDLE`, so its port is empty, and of the environment only the schedule
has moved on. -/
theorem resetAbandonsTheCommand : Obligations.ResetAbandonsTheCommand := by
  intro s moves hsched
  have hport : (s.withSched moves).pullReset.resultPort = none := resultPort_of_not_done nofun
  exact ⟨_, step_reset hsched, pullReset_seq _, hport, pullReset_rdata _, pullReset_diag _,
    pullReset_tfault _, pullReset_env _⟩

end Sys2Proof.Machine
end
